-- ==== Sys2Proof/Word.lean ====
section
/-! DEFINITION. The plain types HTB's rules are written over: the 64-bit command and response word
(`30_encoding.md` R43, R44), symbols (`00_scope.md` R8), bits and bitstreams (R10), and
zero-extension to the response's data field. -/

namespace Sys2Proof

/-- A command word or a response word: one indivisible 64-bit transfer (R35, R43, R44). -/
abbrev Word := BitVec 64

/-- A symbol, zero-extended from SYM_W bits to the 16 bits of the words' `sym` fields (R8, R44).
That only the low SYM_W bits are in use is a condition of well-formedness and of the state's
invariant, not of the type. -/
abbrev Symbol := BitVec 16

/-- A bitstream: an ordered sequence of bits, first bit first; true is 1 and false is 0 (R10, R37). -/
abbrev Bits := List Bool

/-- `zext_32(n)` of the rules: a number in the 32-bit data field of a response (R44) or in a status
register (R30). Every number the reachable machine puts there fits (log entry 7). -/
def zext32 (n : Nat) : BitVec 32 := BitVec.ofNat 32 n

end Sys2Proof
end

