-- ==== Sys2Proof/Config.lean ====
section
/-! DEFINITION. What one HTB is built with: the four free parameters (`00_scope.md` R6) and the
derived constants (R7). There is no free value: the spec leaves none (`93_implementation_defined.md`,
end of part 1). -/

namespace Sys2Proof

/-- The four free parameters of R6. -/
structure Config where
  /-- SYM_W: the width of a symbol in bits. -/
  symW : Nat
  /-- FREQ_W: the width of a frequency as loaded. -/
  freqW : Nat
  /-- N_MAX: the largest number of pairs one table may hold. -/
  nMax : Nat
  /-- ENC_BUF_BITS: the capacity of the encoder's buffer in bits. -/
  encBufBits : Nat
  deriving DecidableEq, Repr

/-- The default parameter values of R6. -/
def Config.defaults : Config := { symW := 8, freqW := 32, nMax := 256, encBufBits := 65536 }

/-- The ranges R6 gives for the four parameters. -/
abbrev Config.wf (c : Config) : Prop :=
  (1 ≤ c.symW ∧ c.symW ≤ 16) ∧ (1 ≤ c.freqW ∧ c.freqW ≤ 32) ∧
  (1 ≤ c.nMax ∧ c.nMax ≤ 2 ^ c.symW) ∧ (1 ≤ c.encBufBits ∧ c.encBufBits ≤ 2 ^ 32 - 1)

/-- `ceil(log2(n))` for `n ≥ 1`: the least `k` with `n ≤ 2 ^ k`. -/
def ceilLog2 (n : Nat) : Nat := if n ≤ 1 then 0 else Nat.log2 (n - 1) + 1

/-- LG_N (R7). -/
def Config.lgN (c : Config) : Nat := ceilLog2 c.nMax

/-- SUM_W, the width of the frequency field of a node (R7). -/
def Config.sumW (c : Config) : Nat := c.freqW + c.lgN

/-- NODES_MAX, the number of entries of the node memory (R7). -/
def Config.nodesMax (c : Config) : Nat := 2 * c.nMax - 1

/-- IDX_W, the width of a node index (R7). -/
def Config.idxW (c : Config) : Nat := max 1 (ceilLog2 c.nodesMax)

/-- CODE_MAX, the largest code length in bits (R7). -/
def Config.codeMax (c : Config) : Nat := max 1 (c.nMax - 1)

/-- LEN_W, the width of a code-length field (R7). -/
def Config.lenW (c : Config) : Nat := ceilLog2 (c.codeMax + 1)

/-- N_SYMS, the number of dictionary entries (R7). -/
def Config.nSyms (c : Config) : Nat := 2 ^ c.symW

/-- The width of the counter `n_leaves` (`10_state.md` R15). -/
def Config.leavesW (c : Config) : Nat := ceilLog2 (c.nMax + 1)

/-- The width of the counter `n_nodes` (`10_state.md` R16). -/
def Config.nodesW (c : Config) : Nat := ceilLog2 (2 * c.nMax)

end Sys2Proof
end

