-- ==== Sys2Proof/Syntax.lean ====
section
/-! DEFINITION. The commands of HTB, one constructor per row of spec/opcode_table.json
(`30_encoding.md` R48), and the status registers RDREG may name (`10_state.md` R30). -/

namespace Sys2Proof

/-- The twelve read-only status registers, in the order of their numbers 0x0 to 0xB (R30). -/
inductive StatusReg where
  | phase | nleaves | nnodes | root | encerr | enccnt
  | decptr | decdepth | decsym | decleaf | cfg0 | cfg1
  deriving DecidableEq, Repr

/-- A command with its operands assembled (R48, R49). -/
inductive Instr where
  /-- NOP (R83): do nothing. -/
  | nop
  /-- CLEAR (R84): return to the reset state. -/
  | clear
  /-- LOADW (R55): append one (symbol, frequency) pair to the table. -/
  | loadw (sym : Symbol) (freq : BitVec 32)
  /-- BUILD (R56): build the tree and the dictionary from the table. -/
  | build
  /-- ENCBEG (R69): open an encode message. -/
  | encbeg
  /-- ENC (R70): append one symbol's code to the message. -/
  | enc (sym : Symbol)
  /-- ENCEND (R71): close the message and deliver its bitstream. -/
  | encend
  /-- DECBEG (R74): start a decode stream. -/
  | decbeg
  /-- DECBIT (R75): consume one bit. -/
  | decbit (bit : Bool)
  /-- DECEND (R76): end the decode stream. -/
  | decend
  /-- RDREG (R85): read a status register. -/
  | rdreg (reg : StatusReg)
  deriving DecidableEq, Repr

/-- The pseudo-command `construct` (R53): clear, one loadw per pair in the order written, build. -/
def constructSeq (table : List (Symbol × BitVec 32)) : List Instr :=
  .clear :: table.map (fun p => .loadw p.1 p.2) ++ [.build]

/-- The pseudo-command `encode` (R53): encbeg, one enc per symbol in the order written, encend. -/
def encodeSeq (message : List Symbol) : List Instr :=
  .encbeg :: message.map .enc ++ [.encend]

/-- The pseudo-command `decode` (R53): decbeg, one decbit per bit in the order written, decend. -/
def decodeSeq (stream : Bits) : List Instr :=
  .decbeg :: stream.map .decbit ++ [.decend]

end Sys2Proof
end

