-- ==== Sys2Proof/WellFormed.lean ====
section
/-! DEFINITION. Which commands have a legal word under a configuration (`30_encoding.md` R49): a
symbol operand uses only the low SYM_W bits of its field, a frequency only the low FREQ_W bits. The
register operand of RDREG and the bit of DECBIT are in range by their types. -/

namespace Sys2Proof

/-- `v[n-1:w]` is zero: the value fits in its low `w` bits (R49). -/
def fitsIn (w : Nat) {n : Nat} (v : BitVec n) : Bool := decide (v.toNat < 2 ^ w)

/-- The operand ranges of R49. -/
def Instr.wellFormed (c : Config) : Instr → Bool
  | .nop => true
  | .clear => true
  | .loadw sym freq => fitsIn c.symW sym && fitsIn c.freqW freq
  | .build => true
  | .encbeg => true
  | .enc sym => fitsIn c.symW sym
  | .encend => true
  | .decbeg => true
  | .decbit _ => true
  | .decend => true
  | .rdreg _ => true

end Sys2Proof
end

