-- ==== Sys2Proof/Decode.lean ====
section
/-! DEFINITION. The command word CMD (`30_encoding.md` R43, R48, R49, R50): the decoder, total on all
2^64 words and rejecting by name; and the encoder, from the same tables. Decoding reads the
configuration and no state (R51). -/

namespace Sys2Proof

/-- Why a word is no legal command: the four clauses of R50. Every one of them gives the one status
ILLEGAL (R99); the names exist for a reader. -/
inductive IllegalWord where
  /-- (a) `op` is 0xB to 0xF. -/
  | reservedOpcode
  /-- (b) `rsvd0` is not zero. -/
  | rsvd0NotZero
  /-- (c) a bit that R49 requires to be zero for this opcode is 1. -/
  | operandBitSet
  /-- (d) RDREG of register 0xC to 0xF. -/
  | reservedRegister
  deriving DecidableEq, Repr

/-- `op = cmd[63:60]` (R43). -/
def cmdOp (w : Word) : BitVec 4 := w.extractLsb' 60 4

/-- `rsvd0 = cmd[59:48]` (R43). -/
def cmdRsvd0 (w : Word) : BitVec 12 := w.extractLsb' 48 12

/-- `sym = cmd[47:32]` (R43). -/
def cmdSym (w : Word) : BitVec 16 := w.extractLsb' 32 16

/-- `imm = cmd[31:0]` (R43). -/
def cmdImm (w : Word) : BitVec 32 := w.extractLsb' 0 32

/-- The status register with number `n`; 0xC and above name none (R30, R50). -/
def StatusReg.ofNumber (n : Nat) : Option StatusReg :=
  match n with
  | 0 => some .phase
  | 1 => some .nleaves
  | 2 => some .nnodes
  | 3 => some .root
  | 4 => some .encerr
  | 5 => some .enccnt
  | 6 => some .decptr
  | 7 => some .decdepth
  | 8 => some .decsym
  | 9 => some .decleaf
  | 10 => some .cfg0
  | 11 => some .cfg1
  | _ => none

/-- The number of a status register (R30). -/
def StatusReg.number : StatusReg → Nat
  | .phase => 0
  | .nleaves => 1
  | .nnodes => 2
  | .root => 3
  | .encerr => 4
  | .enccnt => 5
  | .decptr => 6
  | .decdepth => 7
  | .decsym => 8
  | .decleaf => 9
  | .cfg0 => 10
  | .cfg1 => 11

/-- A command without operands: all bits of `sym` and `imm` must be zero (R49). -/
def decodePlain (i : Instr) (w : Word) : Except IllegalWord Instr :=
  if cmdSym w = 0 ∧ cmdImm w = 0 then .ok i else .error .operandBitSet

/-- LOADW: symbol and frequency in range (R49). -/
def decodeLoadw (c : Config) (w : Word) : Except IllegalWord Instr :=
  if fitsIn c.symW (cmdSym w) && fitsIn c.freqW (cmdImm w) then .ok (.loadw (cmdSym w) (cmdImm w))
  else .error .operandBitSet

/-- ENC: symbol in range, `imm` zero (R49). -/
def decodeEnc (c : Config) (w : Word) : Except IllegalWord Instr :=
  if fitsIn c.symW (cmdSym w) && cmdImm w == 0 then .ok (.enc (cmdSym w))
  else .error .operandBitSet

/-- DECBIT: `sym` zero, `imm[31:1]` zero, bit = `imm[0]` (R49). -/
def decodeDecbit (w : Word) : Except IllegalWord Instr :=
  if cmdSym w = 0 ∧ fitsIn 1 (cmdImm w) then .ok (.decbit ((cmdImm w).getLsbD 0))
  else .error .operandBitSet

/-- RDREG: `sym` zero, `imm[31:4]` zero, register number = `imm[3:0]` at most 0xB (R49, R50). -/
def decodeRdreg (w : Word) : Except IllegalWord Instr :=
  if cmdSym w = 0 ∧ fitsIn 4 (cmdImm w) then
    match StatusReg.ofNumber (cmdImm w).toNat with
    | some r => .ok (.rdreg r)
    | none => .error .reservedRegister
  else .error .operandBitSet

/-- The decoder (R48, R49, R50): every one of the 2^64 words is one of the eleven commands with
legal operands, or illegal. -/
def decode (c : Config) (w : Word) : Except IllegalWord Instr :=
  if cmdRsvd0 w ≠ 0 then .error .rsvd0NotZero
  else
    match (cmdOp w).toNat with
    | 0 => decodePlain .nop w
    | 1 => decodePlain .clear w
    | 2 => decodeLoadw c w
    | 3 => decodePlain .build w
    | 4 => decodePlain .encbeg w
    | 5 => decodeEnc c w
    | 6 => decodePlain .encend w
    | 7 => decodePlain .decbeg w
    | 8 => decodeDecbit w
    | 9 => decodePlain .decend w
    | 10 => decodeRdreg w
    | _ => .error .reservedOpcode

/-- The word of a line of R52: opcode, twelve zero bits, symbol field, immediate field. -/
def mkCmd (op : BitVec 4) (sym : BitVec 16) (imm : BitVec 32) : Word :=
  op ++ 0#12 ++ sym ++ imm

/-- The opcode of R48. -/
def Instr.opcode : Instr → BitVec 4
  | .nop => 0x0
  | .clear => 0x1
  | .loadw _ _ => 0x2
  | .build => 0x3
  | .encbeg => 0x4
  | .enc _ => 0x5
  | .encend => 0x6
  | .decbeg => 0x7
  | .decbit _ => 0x8
  | .decend => 0x9
  | .rdreg _ => 0xA

/-- The `sym` field of a command's word: its symbol operand, or 0 (R49, R52). -/
def Instr.symField : Instr → BitVec 16
  | .nop => 0
  | .clear => 0
  | .loadw sym _ => sym
  | .build => 0
  | .encbeg => 0
  | .enc sym => sym
  | .encend => 0
  | .decbeg => 0
  | .decbit _ => 0
  | .decend => 0
  | .rdreg _ => 0

/-- The `imm` field of a command's word: frequency, bit or register number, or 0 (R49, R52). -/
def Instr.immField : Instr → BitVec 32
  | .nop => 0
  | .clear => 0
  | .loadw _ freq => freq
  | .build => 0
  | .encbeg => 0
  | .enc _ => 0
  | .encend => 0
  | .decbeg => 0
  | .decbit bit => if bit then 1 else 0
  | .decend => 0
  | .rdreg reg => BitVec.ofNat 32 reg.number

/-- The word of a command (R43, R52). -/
def encode (i : Instr) : Word := mkCmd i.opcode i.symField i.immField

/-- The command the decoder reads from a table word at the default parameters, the ones
spec/opcode_table.json's masks are given for. A command is one 64-bit word numbered as R43 numbers
it, so the table's numbering is the word's own, and `nbits` (64 in every row) adds nothing. -/
def decodeTableWord (_nbits w : Nat) : Option Instr :=
  match decode Config.defaults (BitVec.ofNat 64 w) with
  | .ok i => some i
  | .error _ => none

end Sys2Proof
end

