-- ==== Sys2Proof/Machine/State.lean ====
section
/-! DEFINITION. What HTB holds (`10_state.md`), as plain data, and its value after reset (R31). The
heap and the assignment stack are working storage of BUILD that holds no value between commands
(R19, R20) and are locals of that command. -/

namespace Sys2Proof.Machine

/-- The front end's phase (R13). The 2-bit code 3 is never held and has no constructor. -/
inductive Phase where
  | load | ready | failed
  deriving DecidableEq, Repr

/-- The reason register `tb_reason` and the response's reason field (R18, R46); `none` is code 0. -/
inductive Reason where
  | none | empty | internal | duplicate | capacity
  deriving DecidableEq, Repr

/-- The message error register `enc_err` (R23): no error, or the status of the message's first error. -/
inductive MsgErr where
  | none | noSuchKey | overflow
  deriving DecidableEq, Repr

/-- The status codes of R45; codes 6 to 15 are never returned. -/
inductive Status where
  | ok | noSuchKey | invalidWeights | seq | illegal | overflow
  deriving DecidableEq, Repr

/-- The kind bit of a node record (R14). -/
inductive Kind where
  | leaf | internal
  deriving DecidableEq, Repr

/-- A node record (R14): `freq` of SUM_W bits, `sym` of SYM_W, `left` and `right` of IDX_W. In a leaf
the children are written 0 and mean nothing, in an internal node the symbol. -/
structure Node where
  kind : Kind
  freq : Nat
  sym : Symbol
  left : Nat
  right : Nat
  deriving DecidableEq, Repr

/-- A valid dictionary entry (R21): `len` of LEN_W bits and the CODE_MAX bits of `code`, `code[i]`
being the i-th decision from the root. An entry whose valid bit is 0 is absent from the store. -/
structure DictEntry where
  len : Nat
  code : Bits
  deriving DecidableEq, Repr

/-- A record memory: the (index, record) pairs that hold a value, indices strictly rising. An index
that is not listed holds no value, as R31 asks for unspecified entries. -/
abbrev Store (α : Type) := List (Nat × α)

/-- The flags of a response (R47). -/
structure RspFlags where
  emit : Bool := false
  dropped : Bool := false
  deriving DecidableEq, Repr

/-- The five fields of a response; a field left out is zero (R44). -/
structure Response where
  status : Status := .ok
  flags : RspFlags := {}
  reason : Reason := .none
  sym : Symbol := 0
  data : BitVec 32 := 0
  deriving DecidableEq, Repr

/-- What the port returns for one command: the response word and the burst, which is empty but for
ENCEND (R5, R44). -/
structure Reply where
  word : Word
  burst : Bits
  deriving DecidableEq, Repr

/-- The errors of R96 to R100, each with what its response carries. -/
inductive Error where
  /-- R96: ENC of a symbol with no dictionary entry; repeated inside the message. -/
  | noSuchKey (sym : Symbol)
  /-- R97: LOADW and BUILD. -/
  | invalidWeights (reason : Reason)
  /-- R98: a legal word in a phase or message state that does not let it run. -/
  | seq
  /-- R99: no legal word. -/
  | illegal
  /-- R100: ENC of a code that does not fit. -/
  | overflow (sym : Symbol)
  deriving DecidableEq, Repr

/-- The state. Every register and memory of `10_state.md`, the configuration (constant, log entry 1)
and the two sides of the command port (log entries 2 and 3). -/
structure State where
  /-- the four parameters of R6; no command writes them -/
  cfg : Config
  /-- `phase` (R13) -/
  phase : Phase
  /-- `n_leaves` (R15) -/
  nLeaves : Nat
  /-- `n_nodes` (R16) -/
  nNodes : Nat
  /-- `root` (R17) -/
  root : Nat
  /-- `tb_reason` (R18) -/
  tbReason : Reason
  /-- the node memory (R14) -/
  nodes : Store Node
  /-- the code dictionary (R21), indexed by symbol value -/
  dict : Store DictEntry
  /-- `enc_open` (R22) -/
  encOpen : Bool
  /-- `enc_err` (R23) -/
  encErr : MsgErr
  /-- `enc_err_sym` (R23) -/
  encErrSym : Symbol
  /-- `enc_buf` (R24), first bit first -/
  encBuf : Bits
  /-- `dec_ptr` (R25) -/
  decPtr : Nat
  /-- `dec_depth` (R26) -/
  decDepth : Nat
  /-- `dec_sym` (R27) -/
  decSym : Symbol
  /-- `dec_leaf` (R27) -/
  decLeaf : Nat
  /-- `dec_valid` (R28) -/
  decValid : Bool
  /-- the commands the host has yet to present, in port order (R5, R40, R110; log entry 2) -/
  cmds : List Word
  /-- the replies returned so far, oldest first (R5, R116; log entry 3) -/
  replies : List Reply
  deriving DecidableEq, Repr

/-- Why a step has no next state. No run from reset meets one of these: they mark states in which a
rule would read or write an entry that R29 shows it never does (`93_implementation_defined.md` row 22,
treatment `stuck`). All are safe: the model stops where the spec gives no value. -/
inductive Fault where
  /-- Raised by LOADW, BUILD and DECBIT on reading a node entry that holds no value (R31). Safe. -/
  | absentNode (index : Nat)
  /-- Raised by LOADW and BUILD on writing a node entry outside 0 .. NODES_MAX-1 (R33). Safe. -/
  | noSuchNode (index : Nat)
  /-- Raised by BUILD when the code assignment has visited `n_nodes` nodes and its stack is not empty:
  the node memory is no tree (R29 (c), R116). Safe. -/
  | codeWalkUnfinished
  deriving DecidableEq, Repr

/-- Why an instruction has no meaning. -/
inductive Refusal where
  /-- Raised by exec for an instruction whose meaning has not been written. Safe. No arm raises it. -/
  | notModelled (mnemonic : String)
  deriving DecidableEq, Repr

/-- The state after reset of an HTB built with the parameters `c` (R31, R107). -/
def State.resetWith (c : Config) : State where
  cfg := c
  phase := .load
  nLeaves := 0
  nNodes := 0
  root := 0
  tbReason := .none
  nodes := []
  dict := []
  encOpen := false
  encErr := .none
  encErrSym := 0
  encBuf := []
  decPtr := 0
  decDepth := 0
  decSym := 0
  decLeaf := 0
  decValid := false
  cmds := []
  replies := []

/-- The state after reset at the default parameters of R6. -/
def State.reset : State := State.resetWith Config.defaults

end Sys2Proof.Machine
end

