-- ==== Sys2Proof/Machine/Flags.lean ====
section
/-! DEFINITION. The codes and flag bits of the response word (`30_encoding.md` R44 to R47) and of the
state registers (`10_state.md` R13, R14, R18, R23). HTB has no condition codes (R32). -/

namespace Sys2Proof.Machine

/-- A one-bit field. -/
def bit1 (b : Bool) : BitVec 1 := BitVec.ofBool b

/-- The code of `phase` (R13). -/
def Phase.code : Phase → BitVec 2
  | .load => 0
  | .ready => 1
  | .failed => 2

/-- The kind bit (R14). -/
def Kind.code : Kind → BitVec 1
  | .leaf => 0
  | .internal => 1

/-- The reason codes of R46, as the 4-bit register `tb_reason` holds them (R18). -/
def Reason.code : Reason → BitVec 4
  | .none => 0
  | .empty => 1
  | .internal => 2
  | .duplicate => 3
  | .capacity => 4

/-- The status codes of R45. -/
def Status.code : Status → BitVec 4
  | .ok => 0
  | .noSuchKey => 1
  | .invalidWeights => 2
  | .seq => 3
  | .illegal => 4
  | .overflow => 5

/-- The status a stored message error stands for (R23); OK when there is none. -/
def MsgErr.status : MsgErr → Status
  | .none => .ok
  | .noSuchKey => .noSuchKey
  | .overflow => .overflow

/-- The code of `enc_err`: 0, or the status code of the first error (R23). -/
def MsgErr.code (e : MsgErr) : BitVec 4 := e.status.code

/-- The flags field: bit 0 (response bit 56) EMIT, bit 1 (bit 57) PARTIAL, bits 2 and 3 zero (R47). -/
def RspFlags.code (f : RspFlags) : BitVec 4 := 0#2 ++ bit1 f.dropped ++ bit1 f.emit

/-- EMIT, the flag of a DECBIT that emitted a symbol (R47, R75). -/
def RspFlags.emitted : RspFlags := { emit := true }

/-- PARTIAL, the flag of a DECEND that found `depth` bits of an unfinished code (R47, R76). -/
def RspFlags.droppedBits (depth : Nat) : RspFlags := { dropped := depth != 0 }

/-- The response word (R44): status, flags, reason, `zext_16(sym)`, `zext_32(data)`. -/
def Response.word (r : Response) : Word :=
  r.status.code ++ r.flags.code ++ (r.reason.code.setWidth 8) ++ r.sym ++ r.data

/-- `status` of a response word (R44). -/
def rspStatus (w : Word) : BitVec 4 := w.extractLsb' 60 4

/-- `flags` of a response word (R44). -/
def rspFlags (w : Word) : BitVec 4 := w.extractLsb' 56 4

/-- EMIT, bit 56 of a response word (R47). -/
def rspEmit (w : Word) : Bool := w.getLsbD 56

/-- PARTIAL, bit 57 of a response word (R47). -/
def rspPartial (w : Word) : Bool := w.getLsbD 57

/-- `reason` of a response word (R44). -/
def rspReason (w : Word) : BitVec 8 := w.extractLsb' 48 8

/-- `sym` of a response word (R44). -/
def rspSym (w : Word) : Symbol := w.extractLsb' 32 16

/-- `data` of a response word (R44). -/
def rspData (w : Word) : BitVec 32 := w.extractLsb' 0 32

end Sys2Proof.Machine
end

