-- ==== Sys2Proof/Machine/Ops.lean ====
section
/-! DEFINITION. The named operations every command is written over: the record memories
(`20_memory.md` R33), the command port (R40, R110), the response (`30_encoding.md` R44), raising an
error (`60_exceptions.md` R95 to R100) and the leaving of error state (R104). -/

namespace Sys2Proof.Machine

/-- One step's outcome on this machine. -/
abbrev Result := Host.Outcome State Fault Refusal

/-! ### Record memories -/

/-- The record at index `j`, if that entry holds a value. -/
def Store.read {α : Type} : Store α → Nat → Option α
  | [], _ => none
  | (k, v) :: m, j => if j = k then some v else Store.read m j

/-- Write record `x` at index `j`, keeping the indices strictly rising. -/
def Store.write {α : Type} : Store α → Nat → α → Store α
  | [], j, x => [(j, x)]
  | (k, v) :: m, j, x =>
    if j < k then (j, x) :: (k, v) :: m
    else if j = k then (j, x) :: m
    else (k, v) :: Store.write m j x

/-- The canonical form: indices strictly rising, so that equal memories are equal data. -/
abbrev Store.wf {α : Type} (m : Store α) : Prop := (m.map Prod.fst).Pairwise (· < ·)

/-- `node[i]` as a value. An entry that holds no value has none to give (R31). -/
def readNode (s : State) (i : Nat) : Except Fault Node :=
  match Store.read s.nodes i with
  | some nd => .ok nd
  | none => .error (.absentNode i)

/-- `node[i] <- nd`. Only entries 0 to NODES_MAX - 1 exist (R33). -/
def writeNode (s : State) (i : Nat) (nd : Node) : Except Fault State :=
  if i < s.cfg.nodesMax then .ok { s with nodes := Store.write s.nodes i nd }
  else .error (.noSuchNode i)

/-- `dict[sym]`; `none` is an entry whose valid bit is 0 (R21). -/
def readDict (s : State) (sym : Symbol) : Option DictEntry := Store.read s.dict sym.toNat

/-- A dictionary record for the decisions `c`, `code[i] = 0` beyond them (R21, R66). -/
def dictRecord (cfg : Config) (c : Bits) : DictEntry :=
  { len := c.length, code := c ++ List.replicate (cfg.codeMax - c.length) false }

/-- The bit sequence of a valid entry, `[code[0], ..., code[len-1]]` (R21). -/
def DictEntry.bits (e : DictEntry) : Bits := e.code.take e.len

/-! ### The command port -/

/-- Take the next command from the port; `none` while the host presents none (R40, R110). -/
def acceptCommand (s : State) : Option (Word × State) :=
  match s.cmds with
  | [] => none
  | w :: rest => some (w, { s with cmds := rest })

/-- With no command presented HTB waits, and nothing changes (R107, R116; log entry 2). -/
def idle (s : State) : Result := .next s

/-- Return one reply to the host. -/
def State.withReply (s : State) (r : Reply) : State := { s with replies := s.replies ++ [r] }

/-- `respond(...)`: end the command with this response and an empty burst (R44). -/
def respond (r : Response) (s : State) : Result := .next (s.withReply ⟨r.word, []⟩)

/-- `respond(...) with burst = out`, ENCEND's alone (R71). -/
def respondBurst (r : Response) (out : Bits) (s : State) : Result := .next (s.withReply ⟨r.word, out⟩)

/-! ### Errors -/

/-- The response of an error (R96 to R100). -/
def Error.response : Error → Response
  | .noSuchKey sym => { status := .noSuchKey, sym := sym }
  | .invalidWeights reason => { status := .invalidWeights, reason := reason }
  | .seq => { status := .seq }
  | .illegal => { status := .illegal }
  | .overflow sym => { status := .overflow, sym := sym }

/-- `raise`: stop the command here, keep the changes made so far, return the error's response word
and no burst (R95). The one way any command reports an error; control goes nowhere (R103). -/
def raise (e : Error) (s : State) : Result := respond e.response s

/-- What the first INVALID_WEIGHTS of a construction records (R97). -/
def failTable (reason : Reason) (s : State) : Result :=
  raise (.invalidWeights reason) { s with phase := .failed, tbReason := reason }

/-- The error a stored message error repeats (R70, R71, R96, R100). -/
def storedError (e : MsgErr) (sym : Symbol) : Response := { status := e.status, sym := sym }

/-- What the first error of a message records: the error, its symbol, and an empty buffer (R96, R100). -/
def voidMessage (e : MsgErr) (sym : Symbol) (s : State) : State :=
  { s with encErr := e, encErrSym := sym, encBuf := [] }

/-- The encoder with no message open and no error kept: how message error state is left (R71, R104). -/
def closeMessage (s : State) : State :=
  { s with encOpen := false, encErr := .none, encErrSym := 0, encBuf := [] }

/-- A word that is no legal command: ILLEGAL, in any phase, with no state change (R50, R54, R99). -/
def rejectWord (s : State) : Result := raise .illegal s

/-- Every register and valid bit at its reset value, every node entry without a value: how table
error state is left, and all other state with it (R84, R104, R108). The configuration is the
machine's, the port's two sides are the host's; neither is HTB state that CLEAR reaches. -/
def clearAll (s : State) : State :=
  { State.resetWith s.cfg with cmds := s.cmds, replies := s.replies }

/-- The decoder's pointer back at the root, nothing walked, nothing emitted (R56, R74, R76). -/
def pointerToRoot (s : State) : State :=
  { s with decPtr := s.root, decDepth := 0, decValid := false }

end Sys2Proof.Machine
end

