-- ==== Sys2Proof/Machine/Operands.lean ====
section
/-! DEFINITION. How operands are read: the record LOADW makes of its symbol and frequency
(`40_tree_builder.md` R55), the child a bit names (`42_decoder.md` R75) and the status register a
number names (`10_state.md` R30). -/

namespace Sys2Proof.Machine

/-- The leaf record of a pair: the frequency zero-extended to SUM_W bits (R55). -/
def leafRecord (sym : Symbol) (freq : BitVec 32) : Node :=
  { kind := .leaf, freq := freq.toNat, sym := sym, left := 0, right := 0 }

/-- The internal record of a merge (R60). -/
def internalRecord (freq left right : Nat) : Node :=
  { kind := .internal, freq := freq, sym := 0, left := left, right := right }

/-- The child a bit names: 0 left, 1 right (R75). -/
def Node.child (nd : Node) (bit : Bool) : Nat := if bit then nd.right else nd.left

/-- The status registers (R30): read-only views, bits not listed zero. -/
def statusReg (s : State) : StatusReg → BitVec 32
  | .phase =>
    0#24 ++ s.tbReason.code ++ bit1 s.decValid ++ bit1 s.encOpen ++ s.phase.code
  | .nleaves => zext32 s.nLeaves
  | .nnodes => zext32 s.nNodes
  | .root => zext32 s.root
  | .encerr => s.encErrSym ++ 0#12 ++ s.encErr.code
  | .enccnt => zext32 s.encBuf.length
  | .decptr => zext32 s.decPtr
  | .decdepth => zext32 s.decDepth
  | .decsym => 0#15 ++ bit1 s.decValid ++ s.decSym
  | .decleaf => zext32 s.decLeaf
  | .cfg0 =>
    BitVec.ofNat 16 (s.cfg.nMax - 1) ++ 0#2 ++ BitVec.ofNat 6 s.cfg.freqW ++ 0#3 ++
      BitVec.ofNat 5 s.cfg.symW
  | .cfg1 => zext32 s.cfg.encBufBits

end Sys2Proof.Machine
end

