-- ==== Sys2Proof/Machine/Decoder.lean ====
section
/-! DEFINITION. The decoder's commands DECBEG, DECBIT and DECEND (`42_decoder.md` R74, R75, R76). -/

namespace Sys2Proof.Machine

/-- DECBEG (R74): the pointer to the root, a partial code dropped without a report. -/
def execDecbeg (s : State) : Result :=
  match s.phase with
  | .load => raise .seq s
  | .failed => raise .seq s
  | .ready => respond {} (pointerToRoot s)

/-- Step 1 of DECBIT: the child the bit names, or no move when the node is a leaf (R75, R79). -/
def moveTarget (s : State) (bit : Bool) : Except Fault Nat :=
  match readNode s s.decPtr with
  | .error f => .error f
  | .ok nd =>
    match nd.kind with
    | .internal => .ok (nd.child bit)
    | .leaf => .ok s.decPtr

/-- Step 2 of DECBIT at the candidate `q`: emit and go back to the root at a leaf, else go on (R75). -/
def arriveAt (q : Nat) (s : State) : Result :=
  match readNode s q with
  | .error f => .fault f
  | .ok nd =>
    match nd.kind with
    | .leaf =>
      respond { flags := RspFlags.emitted, sym := nd.sym, data := zext32 q }
        { s with decSym := nd.sym, decLeaf := q, decValid := true, decPtr := s.root, decDepth := 0 }
    | .internal =>
      respond { data := zext32 q }
        { s with decPtr := q, decDepth := s.decDepth + 1, decValid := false }

/-- DECBIT (R75). -/
def execDecbit (bit : Bool) (s : State) : Result :=
  match s.phase with
  | .load => raise .seq s
  | .failed => raise .seq s
  | .ready =>
    match moveTarget s bit with
    | .error f => .fault f
    | .ok q => arriveAt q s

/-- DECEND (R76): report how many bits of an unfinished code are dropped, pointer to the root. -/
def execDecend (s : State) : Result :=
  match s.phase with
  | .load => raise .seq s
  | .failed => raise .seq s
  | .ready =>
    respond { flags := RspFlags.droppedBits s.decDepth, data := zext32 s.decDepth } (pointerToRoot s)

end Sys2Proof.Machine
end

