-- ==== Sys2Proof/Machine/Encoder.lean ====
section
/-! DEFINITION. The encoder's commands ENCBEG, ENC and ENCEND (`41_encoder.md` R69, R70, R71). -/

namespace Sys2Proof.Machine

/-- ENCBEG (R69): open a message; one that is open is abandoned. -/
def execEncbeg (s : State) : Result :=
  match s.phase with
  | .load => raise .seq s
  | .failed => raise .seq s
  | .ready => respond {} { closeMessage s with encOpen := true }

/-- The look-up and append of ENC in an open message without error (R70): NO_SUCH_KEY, then
OVERFLOW (R102), then the code's bits at the end of the buffer. -/
def appendCode (sym : Symbol) (s : State) : Result :=
  match readDict s sym with
  | none => raise (.noSuchKey sym) (voidMessage .noSuchKey sym s)
  | some e =>
    if s.cfg.encBufBits < s.encBuf.length + e.len then
      raise (.overflow sym) (voidMessage .overflow sym s)
    else
      respond { sym := sym, data := zext32 e.len } { s with encBuf := s.encBuf ++ e.bits }

/-- ENC (R70): the phase and the open message, then the message's stored error, then the symbol. -/
def execEnc (sym : Symbol) (s : State) : Result :=
  match s.phase with
  | .load => raise .seq s
  | .failed => raise .seq s
  | .ready =>
    if s.encOpen then
      match s.encErr with
      | .none => appendCode sym s
      | e => respond (storedError e s.encErrSym) s
    else raise .seq s

/-- ENCEND (R71): close the message; deliver its bits, or its error and no bit. -/
def execEncend (s : State) : Result :=
  match s.phase with
  | .load => raise .seq s
  | .failed => raise .seq s
  | .ready =>
    if s.encOpen then
      match s.encErr with
      | .none => respondBurst { data := zext32 s.encBuf.length } s.encBuf (closeMessage s)
      | e => respond (storedError e s.encErrSym) (closeMessage s)
    else raise .seq s

end Sys2Proof.Machine
end

