-- ==== Sys2Proof/Machine/FrontEnd.lean ====
section
/-! DEFINITION. The front end's commands NOP, CLEAR and RDREG (`43_control.md` R83, R84, R85). -/

namespace Sys2Proof.Machine

/-- NOP (R83): the all-zero response. -/
def execNop (s : State) : Result := respond {} s

/-- CLEAR (R84): the reset state. -/
def execClear (s : State) : Result := respond {} (clearAll s)

/-- RDREG (R85): the register's value, and no change. -/
def execRdreg (reg : StatusReg) (s : State) : Result := respond { data := statusReg s reg } s

end Sys2Proof.Machine
end

