-- ==== Sys2Proof/Machine/CodeAssignment.lean ====
section
/-! DEFINITION. The code assignment BUILD runs once its tree has a root (`41_encoder.md` R66, R67). -/

namespace Sys2Proof.Machine

/-- One turn of `assign_codes`' loop, on the popped pair of a node and its path: at a leaf write its
symbol's entry, at an internal node push the right child and then the left, each with its decision
appended (R66). The result is the stack and the dictionary the turn leaves. -/
def assignTurn (s : State) (p : Nat) (c : Bits) (stack : List (Nat × Bits)) (d : Store DictEntry) :
    Except Fault (List (Nat × Bits) × Store DictEntry) :=
  match readNode s p with
  | .error f => .error f
  | .ok nd =>
    match nd.kind with
    | .leaf => .ok (stack, Store.write d nd.sym.toNat (dictRecord s.cfg c))
    | .internal => .ok ((nd.left, c ++ [false]) :: (nd.right, c ++ [true]) :: stack, d)

/-- The loop of `assign_codes`, while the stack is not empty (R66). The fuel counts the nodes visited;
a tree's walk visits each of its nodes once (R116). -/
def assignLoop (s : State) : Nat → List (Nat × Bits) → Store DictEntry → Except Fault (Store DictEntry)
  | _, [], d => .ok d
  | 0, _ :: _, _ => .error .codeWalkUnfinished
  | fuel + 1, (p, c) :: stack, d =>
    match assignTurn s p c stack d with
    | .error f => .error f
    | .ok (stack', d') => assignLoop s fuel stack' d'

/-- `assign_codes`: the lone leaf's one-bit code `0` (R67), or the walk from the root (R66). -/
def assignCodes (s : State) : Except Fault (Store DictEntry) :=
  match readNode s s.root with
  | .error f => .error f
  | .ok nd =>
    match nd.kind with
    | .leaf => .ok (Store.write s.dict nd.sym.toNat (dictRecord s.cfg [false]))
    | .internal => assignLoop s s.nNodes [(s.root, [])] s.dict

end Sys2Proof.Machine
end

