-- ==== Sys2Proof/Machine/Heap.lean ====
section
/-! DEFINITION. BUILD's priority queue (`40_tree_builder.md` R57, R58, R59): a binary min-heap in an
array, keyed by frequency and then node index. The array holds each queued node's key, frequency
beside index, where R19 speaks of indices: no record of a queued node changes while it is queued, so
the key read at insertion is the key at every later comparison (log entry 8). -/

namespace Sys2Proof.Machine

/-- The key of a node: its frequency and its index (R57). -/
structure Key where
  freq : Nat
  idx : Nat
  deriving DecidableEq, Repr

/-- The order on keys: by frequency, then by index (R57). -/
def Key.lt (a b : Key) : Bool := decide (a.freq < b.freq) || (a.freq == b.freq && decide (a.idx < b.idx))

/-- The array `heap[0 .. heap_count-1]`; its length is `heap_count` (R19). -/
abbrev Heap := List Key

/-- Exchange the entries at two positions whose values are given. -/
def swapAt (h : Heap) (p q : Nat) (kp kq : Key) : Heap := (h.set p kq).set q kp

/-- The loop of `heap_insert`: while the entry at `p` is not at the top and its parent's key is
greater, exchange the two (R58). The fuel bounds the climb; `p` itself is enough. -/
def siftUp : Nat → Heap → Nat → Heap
  | 0, h, _ => h
  | fuel + 1, h, p =>
    if p = 0 then h
    else
      match h[(p - 1) / 2]?, h[p]? with
      | some kq, some kp =>
        if kp.lt kq then siftUp fuel (swapAt h p ((p - 1) / 2) kp kq) ((p - 1) / 2) else h
      | _, _ => h

/-- `heap_insert` (R58). -/
def heapInsert (h : Heap) (k : Key) : Heap := siftUp h.length (h ++ [k]) h.length

/-- Of positions `m` and `c`, the one to go on with: `c` if it exists and its key is smaller (R59). -/
def smallerOf (h : Heap) (m c : Nat) : Nat :=
  match h[c]?, h[m]? with
  | some kc, some km => if kc.lt km then c else m
  | _, _ => m

/-- The loop of `heap_extract_min`: exchange the entry at `p` with the smaller of its children, left
examined before right, while that child's key is smaller (R59). The fuel bounds the descent; the
number of entries is enough. -/
def siftDown : Nat → Heap → Nat → Heap
  | 0, h, _ => h
  | fuel + 1, h, p =>
    let m := smallerOf h (smallerOf h p (2 * p + 1)) (2 * p + 2)
    if m = p then h
    else
      match h[p]?, h[m]? with
      | some kp, some km => siftDown fuel (swapAt h p m kp km) m
      | _, _ => h

/-- `heap_extract_min` (R59): the entry at the top and the heap without it; `none` on an empty queue. -/
def heapExtractMin (h : Heap) : Option (Key × Heap) :=
  match h with
  | [] => none
  | r :: rest =>
    match rest.getLast? with
    | none => some (r, [])
    | some last => some (r, siftDown rest.length (last :: rest.dropLast) 0)

end Sys2Proof.Machine
end

