-- ==== Sys2Proof/Machine/TreeBuilder.lean ====
section
/-! DEFINITION. The tree builder's commands LOADW and BUILD (`40_tree_builder.md` R55, R56, R60). -/

namespace Sys2Proof.Machine

/-- Whether one of the first `n` leaves has this symbol: LOADW's duplicate check, a scan (R55). -/
def symbolLoaded (s : State) (sym : Symbol) : Nat → Except Fault Bool
  | 0 => .ok false
  | n + 1 =>
    match readNode s n with
    | .error f => .error f
    | .ok nd => if nd.sym = sym then .ok true else symbolLoaded s sym n

/-- The successful end of LOADW: the leaf at `node[n_leaves]`, both counters up by one (R55). -/
def appendLeaf (sym : Symbol) (freq : BitVec 32) (s : State) : Result :=
  match writeNode s s.nLeaves (leafRecord sym freq) with
  | .error f => .fault f
  | .ok t =>
    respond { sym := sym, data := zext32 s.nLeaves }
      { t with nLeaves := s.nLeaves + 1, nNodes := s.nLeaves + 1 }

/-- LOADW (R55): the phase, then CAPACITY, then DUPLICATE (R102), then the leaf. -/
def execLoadw (sym : Symbol) (freq : BitVec 32) (s : State) : Result :=
  match s.phase with
  | .ready => raise .seq s
  | .failed => raise (.invalidWeights s.tbReason) s
  | .load =>
    if s.nLeaves = s.cfg.nMax then failTable .capacity s
    else
      match symbolLoaded s sym s.nLeaves with
      | .error f => .fault f
      | .ok true => failTable .duplicate s
      | .ok false => appendLeaf sym freq s

/-- BUILD's first loop: `heap_insert(i)` for i = 0, 1, ..., n-1 (R56). -/
def fillQueue (s : State) : Nat → Except Fault Heap
  | 0 => .ok []
  | n + 1 =>
    match fillQueue s n with
    | .error f => .error f
    | .ok h =>
      match readNode s n with
      | .error f => .error f
      | .ok nd => .ok (heapInsert h ⟨nd.freq, n⟩)

/-- How a stage of BUILD leaves the machine. -/
inductive Stage where
  /-- the stage is done: the state and the queue it leaves -/
  | done (s : State) (h : Heap)
  /-- an extraction met an empty queue, "running out of nodes mid-merge" (R59; never, R61) -/
  | outOfNodes (s : State)
  /-- an entry that holds no value was read, or one that does not exist written -/
  | stuck (f : Fault)

/-- `merge_step` (R60): the smallest and the second smallest key become the left and the right child
of a new internal node at index `n_nodes`, which is queued (R62). -/
def mergeStep (s : State) (h : Heap) : Stage :=
  match heapExtractMin h with
  | none => .outOfNodes s
  | some (a, h1) =>
    match heapExtractMin h1 with
    | none => .outOfNodes s
    | some (b, h2) =>
      match writeNode s s.nNodes (internalRecord (a.freq + b.freq) a.idx b.idx) with
      | .error f => .stuck f
      | .ok t => .done { t with nNodes := s.nNodes + 1 } (heapInsert h2 ⟨a.freq + b.freq, s.nNodes⟩)

/-- The merge loop, `while heap_count > 1` (R56). Each turn shortens the queue by one (R61), so a
fuel of the queue's length is enough. -/
def mergeLoop : Nat → State → Heap → Stage
  | 0, s, h => .done s h
  | fuel + 1, s, h =>
    if h.length ≤ 1 then .done s h
    else
      match mergeStep s h with
      | .done t g => mergeLoop fuel t g
      | .outOfNodes t => .outOfNodes t
      | .stuck f => .stuck f

/-- The end of BUILD: the dictionary from the tree, the decoder at the root, phase READY (R56). -/
def finishBuild (s : State) (root : Nat) : Result :=
  match assignCodes { s with root := root } with
  | .error f => .fault f
  | .ok d =>
    respond { data := zext32 root }
      (pointerToRoot { s with root := root, dict := d, phase := .ready })

/-- BUILD after its first check: fill the queue, merge, take the root, finish (R56). -/
def buildTree (s : State) : Result :=
  match fillQueue s s.nLeaves with
  | .error f => .fault f
  | .ok h =>
    match mergeLoop h.length s h with
    | .stuck f => .fault f
    | .outOfNodes t => failTable .internal t
    | .done t g =>
      match heapExtractMin g with
      | none => failTable .internal t
      | some (k, _) => finishBuild t k.idx

/-- BUILD (R56): the phase, then EMPTY (R102), then the tree. -/
def execBuild (s : State) : Result :=
  match s.phase with
  | .ready => raise .seq s
  | .failed => raise (.invalidWeights s.tbReason) s
  | .load => if s.nLeaves = 0 then failTable .empty s else buildTree s

end Sys2Proof.Machine
end

