-- ==== Sys2Proof/Machine/Dispatch.lean ====
section
/-! DEFINITION. One arm per constructor of Instr: the table of `30_encoding.md` R48. -/

namespace Sys2Proof.Machine

/-- What a legal command does (R48, R54). -/
def exec (i : Instr) (s : State) : Host.Outcome State Fault Refusal :=
  match i with
  | .nop => Sys2Proof.Machine.execNop s
  | .clear => Sys2Proof.Machine.execClear s
  | .loadw sym freq => Sys2Proof.Machine.execLoadw sym freq s
  | .build => Sys2Proof.Machine.execBuild s
  | .encbeg => Sys2Proof.Machine.execEncbeg s
  | .enc sym => Sys2Proof.Machine.execEnc sym s
  | .encend => Sys2Proof.Machine.execEncend s
  | .decbeg => Sys2Proof.Machine.execDecbeg s
  | .decbit bit => Sys2Proof.Machine.execDecbit bit s
  | .decend => Sys2Proof.Machine.execDecend s
  | .rdreg reg => Sys2Proof.Machine.execRdreg reg s

end Sys2Proof.Machine
end

