-- ==== Sys2Proof/Machine/Step.lean ====
section
/-! DEFINITION. One step (`00_scope.md` R5): take the next command, decode it (illegal words end
there, `30_encoding.md` R54), execute it. -/

namespace Sys2Proof.Machine

/-- One atomic step: one command accepted, one reply returned (R5, R40, R54). -/
def step (s : State) : Host.Outcome State Fault Refusal :=
  match acceptCommand s with
  | none => idle s
  | some (w, t) =>
    match decode t.cfg w with
    | .ok i => exec i t
    | .error _ => rejectWord t

/-- The state in which the host presents the word `w` next. A command is one 64-bit word in the
table's own numbering, so `nbits` adds nothing. -/
def State.withFetchWord (s : State) (_nbits w : Nat) : State :=
  { s with cmds := BitVec.ofNat 64 w :: s.cmds }

end Sys2Proof.Machine
end

