-- ==== Sys2Proof/Machine/Assembler.lean ====
section
/-! DEFINITION. The textual form of commands (`30_encoding.md` R52) and the three macros (R53): a line
of text to the commands it stands for, and to their words. It is a host's aid; no command's effect
depends on it (`92_eei_decisions.md` D27). Log entry 11 names the small choices. -/

namespace Sys2Proof.Machine

/-- The pieces of a line. -/
inductive Token where
  | word (cs : List Char)
  | comma | lpar | rpar
  deriving DecidableEq, Repr

/-- A letter or a digit. -/
def isNameChar (c : Char) : Bool :=
  (decide (48 ≤ c.toNat) && decide (c.toNat ≤ 57)) ||
  (decide (97 ≤ c.toNat) && decide (c.toNat ≤ 122)) ||
  (decide (65 ≤ c.toNat) && decide (c.toNat ≤ 90))

/-- The word gathered so far, if there is one, in front of the rest. -/
def flushWord (acc : List Char) (ts : List Token) : List Token :=
  if acc.isEmpty then ts else .word acc.reverse :: ts

/-- Cut a line into tokens; `;` starts a comment (R52). -/
def tokenize : List Char → List Char → Option (List Token)
  | [], acc => some (flushWord acc [])
  | c :: cs, acc =>
    if c = ';' then some (flushWord acc [])
    else if c = ' ' ∨ c = '\t' then (tokenize cs []).map (flushWord acc)
    else if c = ',' then (tokenize cs []).map (fun ts => flushWord acc (.comma :: ts))
    else if c = '(' then (tokenize cs []).map (fun ts => flushWord acc (.lpar :: ts))
    else if c = ')' then (tokenize cs []).map (fun ts => flushWord acc (.rpar :: ts))
    else if isNameChar c then tokenize cs (c :: acc)
    else none

/-- The value of a digit in a base up to 16. -/
def digitValue (base : Nat) (c : Char) : Option Nat :=
  let n := c.toNat
  let v :=
    if 48 ≤ n ∧ n ≤ 57 then n - 48
    else if 97 ≤ n ∧ n ≤ 102 then n - 87
    else if 65 ≤ n ∧ n ≤ 70 then n - 55
    else 16
  if v < base then some v else none

/-- The digits of a number, most significant first, onto a value. -/
def digits (base : Nat) : List Char → Nat → Option Nat
  | [], acc => some acc
  | c :: cs, acc =>
    match digitValue base c with
    | some v => digits base cs (acc * base + v)
    | none => none

/-- A number in decimal or `0x` hexadecimal (R52). -/
def number (cs : List Char) : Option Nat :=
  match cs with
  | [] => none
  | '0' :: 'x' :: c :: rest => digits 16 (c :: rest) 0
  | c :: rest => digits 10 (c :: rest) 0

/-- A symbol operand in 0 .. 2^SYM_W - 1; out of range has no word (R52). -/
def symbolOperand (c : Config) (cs : List Char) : Option Symbol :=
  match number cs with
  | some n => if n < 2 ^ c.symW then some (BitVec.ofNat 16 n) else none
  | none => none

/-- A frequency operand in 0 .. 2^FREQ_W - 1 (R52). -/
def freqOperand (c : Config) (cs : List Char) : Option (BitVec 32) :=
  match number cs with
  | some n => if n < 2 ^ c.freqW then some (BitVec.ofNat 32 n) else none
  | none => none

/-- A bit operand, 0 or 1 (R52). -/
def bitOperand (cs : List Char) : Option Bool :=
  match number cs with
  | some n => if n = 0 then some false else if n = 1 then some true else none
  | none => none

/-- The register names of R52. -/
def registerName (r : StatusReg) : List Char :=
  match r with
  | .phase => "phase".toList
  | .nleaves => "nleaves".toList
  | .nnodes => "nnodes".toList
  | .root => "root".toList
  | .encerr => "encerr".toList
  | .enccnt => "enccnt".toList
  | .decptr => "decptr".toList
  | .decdepth => "decdepth".toList
  | .decsym => "decsym".toList
  | .decleaf => "decleaf".toList
  | .cfg0 => "cfg0".toList
  | .cfg1 => "cfg1".toList

/-- The twelve registers in the order of their numbers (R30). -/
def allRegisters : List StatusReg :=
  [.phase, .nleaves, .nnodes, .root, .encerr, .enccnt,
   .decptr, .decdepth, .decsym, .decleaf, .cfg0, .cfg1]

/-- A register operand: a number 0x0 to 0xB or a name (R52). -/
def registerOperand (cs : List Char) : Option StatusReg :=
  match number cs with
  | some n => StatusReg.ofNumber n
  | none => allRegisters.find? (fun r => decide (registerName r = cs))

/-- The operands of `construct`: pairs in parentheses, separated by commas (R53). -/
def pairOperands (c : Config) : List Token → Option (List (Symbol × BitVec 32))
  | [.lpar, .word s, .comma, .word f, .rpar] =>
    match symbolOperand c s, freqOperand c f with
    | some x, some y => some [(x, y)]
    | _, _ => none
  | .lpar :: .word s :: .comma :: .word f :: .rpar :: .comma :: rest =>
    match symbolOperand c s, freqOperand c f, pairOperands c rest with
    | some x, some y, some ps => some ((x, y) :: ps)
    | _, _, _ => none
  | _ => none

/-- The operands of `encode`: symbols separated by commas (R53). -/
def symbolOperands (c : Config) : List Token → Option (List Symbol)
  | [.word s] => (symbolOperand c s).map (fun x => [x])
  | .word s :: .comma :: rest =>
    match symbolOperand c s, symbolOperands c rest with
    | some x, some xs => some (x :: xs)
    | _, _ => none
  | _ => none

/-- The operands of `decode`: bits separated by blanks (R53). -/
def bitOperands : List Token → Option Bits
  | [] => some []
  | .word b :: rest =>
    match bitOperand b, bitOperands rest with
    | some x, some xs => some (x :: xs)
    | _, _ => none
  | _ => none

/-- The commands without operands, by mnemonic (R52). -/
def plainCommand (m : List Char) : Option Instr :=
  if m = "nop".toList then some .nop
  else if m = "clear".toList then some .clear
  else if m = "build".toList then some .build
  else if m = "encbeg".toList then some .encbeg
  else if m = "encend".toList then some .encend
  else if m = "decbeg".toList then some .decbeg
  else if m = "decend".toList then some .decend
  else none

/-- The command with one operand (R52). -/
def oneOperand (c : Config) (m a : List Char) : Option Instr :=
  if m = "enc".toList then (symbolOperand c a).map .enc
  else if m = "decbit".toList then (bitOperand a).map .decbit
  else if m = "rdreg".toList then (registerOperand a).map .rdreg
  else none

/-- A macro's expansion, an empty operand list included (R53). -/
def expandMacro (c : Config) (m : List Char) (ts : List Token) : Option (List Instr) :=
  if m = "construct".toList then
    if ts.isEmpty then some (constructSeq []) else (pairOperands c ts).map constructSeq
  else if m = "encode".toList then
    if ts.isEmpty then some (encodeSeq []) else (symbolOperands c ts).map encodeSeq
  else if m = "decode".toList then (bitOperands ts).map decodeSeq
  else none

/-- The commands a line's tokens stand for: none for an empty line (R52, R53). -/
def parseTokens (c : Config) (ts : List Token) : Option (List Instr) :=
  match ts with
  | [] => some []
  | [.word m] =>
    match plainCommand m with
    | some i => some [i]
    | none => expandMacro c m []
  | [.word m, .word a] =>
    match oneOperand c m a with
    | some i => some [i]
    | none => expandMacro c m [.word a]
  | [.word m, .word a, .comma, .word b] =>
    if m = "loadw".toList then
      match symbolOperand c a, freqOperand c b with
      | some x, some y => some [.loadw x y]
      | _, _ => none
    else expandMacro c m [.word a, .comma, .word b]
  | .word m :: rest => expandMacro c m rest
  | _ => none

/-- The words of one line of text; `none` where an assembler must reject the line (R52). -/
def assembleLine (c : Config) (line : List Char) : Option (List Word) :=
  match tokenize line [] with
  | some ts => (parseTokens c ts).map (fun is => is.map encode)
  | none => none

/-- The words of a program's lines, in order. -/
def assemble (c : Config) : List (List Char) → Option (List Word)
  | [] => some []
  | line :: rest =>
    match assembleLine c line, assemble c rest with
    | some ws, some more => some (ws ++ more)
    | _, _ => none

end Sys2Proof.Machine
end

