-- ==== Sys2Proof/Machine/Facade.lean ====
section
/-! DEFINITION. How a host reads the replies of a command sequence as the result of one of the
library's calls (`43_control.md` R88 to R92). The sequences themselves are `constructSeq`,
`encodeSeq` and `decodeSeq` (Syntax.lean). `split` is no sequence but a property (R93). -/

namespace Sys2Proof.Machine

/-- The result of a call, as the host reads it. -/
inductive CallResult (α : Type) where
  /-- `Ok(value)` -/
  | ok (value : α)
  /-- `Err(InvalidWeights(reason))` (R89) -/
  | invalidWeights (reason : BitVec 8)
  /-- `Err(NoSuchKey(symbol))` (R90) -/
  | noSuchKey (sym : Symbol)
  /-- the message was too long for this HTB's buffer; no counterpart in the library (R90) -/
  | overflow (sym : Symbol)
  /-- these replies are not those of the call's sequence -/
  | other
  deriving DecidableEq, Repr

/-- `construct` (R89): the first INVALID_WEIGHTS gives the reason; `Ok` when every status is OK. -/
def constructResult (rs : List Reply) : CallResult Unit :=
  match rs.find? (fun r => rspStatus r.word == Status.invalidWeights.code) with
  | some r => .invalidWeights (rspReason r.word)
  | none => if rs.all (fun r => rspStatus r.word == Status.ok.code) then .ok () else .other

/-- `encode` (R90): the ENCEND response with its burst. -/
def encodeResult (rs : List Reply) : CallResult Bits :=
  match rs.getLast? with
  | none => .other
  | some r =>
    if rspStatus r.word = Status.ok.code then .ok r.burst
    else if rspStatus r.word = Status.noSuchKey.code then .noSuchKey (rspSym r.word)
    else if rspStatus r.word = Status.overflow.code then .overflow (rspSym r.word)
    else .other

/-- `decode` (R91): the leaf indices of the emitting responses, in order. -/
def decodeResult (rs : List Reply) : List (BitVec 32) :=
  (rs.filter (fun r => rspEmit r.word)).map (fun r => rspData r.word)

/-- `decode_owned` (R92): the symbols of the emitting responses, in order. -/
def decodeOwnedResult (rs : List Reply) : List Symbol :=
  (rs.filter (fun r => rspEmit r.word)).map (fun r => rspSym r.word)

end Sys2Proof.Machine
end

