-- ==== Sys2Proof/Safety.lean ====
section
/-! DEFINITION. The terms claims about HTB are stated in: sequences of commands, the tree a state
holds, the invariant of `10_state.md` R29, the priority queue of `40_tree_builder.md` R65 as a plain
selection of the smallest key, and the must-be-zero bits of `30_encoding.md` R49. -/

namespace Sys2Proof

/-- The three encoder commands (R93). -/
def Instr.isEncoder : Instr → Bool
  | .nop => false
  | .clear => false
  | .loadw _ _ => false
  | .build => false
  | .encbeg => true
  | .enc _ => true
  | .encend => true
  | .decbeg => false
  | .decbit _ => false
  | .decend => false
  | .rdreg _ => false

/-- The three decoder commands (R93). -/
def Instr.isDecoder : Instr → Bool
  | .nop => false
  | .clear => false
  | .loadw _ _ => false
  | .build => false
  | .encbeg => false
  | .enc _ => false
  | .encend => false
  | .decbeg => true
  | .decbit _ => true
  | .decend => true
  | .rdreg _ => false

end Sys2Proof

namespace Sys2Proof.Machine

/-! ### Sequences of commands -/

/-- The whole of a sequence of commands, in order (R40). -/
def execAll : List Instr → State → Result
  | [], s => .next s
  | i :: is, s =>
    match exec i s with
    | .next t => execAll is t
    | .fault f => .fault f
    | .refused r => .refused r

/-- HTB's own state, the host's two sides of the port left out. -/
def State.quiet (s : State) : State := { s with cmds := [], replies := [] }

/-- The response word with these five fields (R44), from their numbers in the spec. -/
def rspWord (status flags : BitVec 4) (reason : BitVec 8) (sym : Symbol) (data : BitVec 32) : Word :=
  status ++ flags ++ reason ++ sym ++ data

/-- The state after the one reply of a command. -/
def State.replied (s : State) (w : Word) (burst : Bits) : State :=
  { s with replies := s.replies ++ [⟨w, burst⟩] }

/-! ### The three parts of the state in phase READY (R93) -/

/-- `t` is `s` but for the encoder's part, the dictionary excepted, and the replies. -/
def SameButEncoder (s t : State) : Prop :=
  t = { s with encOpen := t.encOpen, encErr := t.encErr, encErrSym := t.encErrSym,
               encBuf := t.encBuf, replies := t.replies }

/-- `t` is `s` but for the decoder's part and the replies. -/
def SameButDecoder (s t : State) : Prop :=
  t = { s with decPtr := t.decPtr, decDepth := t.decDepth, decSym := t.decSym,
               decLeaf := t.decLeaf, decValid := t.decValid, replies := t.replies }

/-! ### The tree -/

/-- The node reached from node `p` by a sequence of decisions, 0 left and 1 right, each taken at an
internal node (R66, R75); `none` where a decision meets a leaf or an absent entry. -/
def walk (nodes : Store Node) : Nat → Bits → Option Nat
  | p, [] => some p
  | p, b :: bs =>
    match Store.read nodes p with
    | some nd =>
      match nd.kind with
      | .internal => walk nodes (nd.child b) bs
      | .leaf => none
    | none => none

/-- The `left` and `right` fields of the entries `a` to `b - 1`, in order. -/
def childFields (nodes : Store Node) (a b : Nat) : List Nat :=
  (List.range' a (b - a)).flatMap fun k =>
    match Store.read nodes k with
    | some nd => [nd.left, nd.right]
    | none => []

/-- A record LOADW writes (R14, R55), its fields in their widths. -/
def IsLeafRecord (c : Config) (nd : Node) : Prop :=
  nd.kind = .leaf ∧ nd.freq < 2 ^ c.freqW ∧ nd.sym.toNat < 2 ^ c.symW ∧ nd.left = 0 ∧ nd.right = 0

/-- A record BUILD writes at index `k` (R14, R29 (c), R60): children older than the node, two of
them, the frequency their sum. -/
def IsInternalRecord (nodes : Store Node) (k : Nat) (nd : Node) : Prop :=
  nd.kind = .internal ∧ nd.sym = 0 ∧ nd.left < k ∧ nd.right < k ∧ nd.left ≠ nd.right ∧
  ∃ l r, Store.read nodes nd.left = some l ∧ Store.read nodes nd.right = some r ∧
    nd.freq = l.freq + r.freq

/-- The symbol `x` is the symbol of one of the loaded leaves. -/
def Loaded (s : State) (x : Symbol) : Prop :=
  ∃ k nd, k < s.nLeaves ∧ Store.read s.nodes k = some nd ∧ nd.sym = x

/-! ### The invariant (R29) -/

/-- R29 (b): what holds outside phase READY. -/
structure NoTree (s : State) : Prop where
  nodes_are_leaves : s.nNodes = s.nLeaves
  root : s.root = 0
  dict : s.dict = []
  encOpen : s.encOpen = false
  encErr : s.encErr = .none
  encErrSym : s.encErrSym = 0
  encBuf : s.encBuf = []
  decPtr : s.decPtr = 0
  decDepth : s.decDepth = 0
  decSym : s.decSym = 0
  decLeaf : s.decLeaf = 0
  decValid : s.decValid = false

/-- R29 (c): the tree in phase READY. -/
structure TreeOk (s : State) : Prop where
  some_leaf : 1 ≤ s.nLeaves
  count : s.nNodes = 2 * s.nLeaves - 1
  root : s.root = s.nNodes - 1
  internals : ∀ k, s.nLeaves ≤ k → k < s.nNodes →
    ∃ nd, Store.read s.nodes k = some nd ∧ IsInternalRecord s.nodes k nd
  one_parent : (childFields s.nodes s.nLeaves s.nNodes).Perm (List.range (s.nNodes - 1))

/-- R29 (c), R66, R67, R73: the dictionary in phase READY. -/
structure DictionaryOk (s : State) : Prop where
  domain : ∀ x : Nat, (Store.read s.dict x).isSome = true ↔ ∃ y, Loaded s y ∧ y.toNat = x
  codes : ∀ k nd, k < s.nLeaves → Store.read s.nodes k = some nd →
    ∃ path, Store.read s.dict nd.sym.toNat = some (dictRecord s.cfg path) ∧
      1 ≤ path.length ∧ path.length ≤ s.cfg.codeMax ∧
      (s.nLeaves = 1 → path = [false]) ∧
      (2 ≤ s.nLeaves → walk s.nodes s.root path = some k)

/-- R29 (e), R23, R24: the encoder in phase READY. -/
structure EncoderOk (s : State) : Prop where
  fits : s.encBuf.length ≤ s.cfg.encBufBits
  failed : s.encErr ≠ .none → s.encOpen = true ∧ s.encBuf = []
  closed : s.encOpen = false → s.encErr = .none ∧ s.encBuf = []
  no_symbol : s.encErr = .none → s.encErrSym = 0
  symbol : s.encErrSym.toNat < 2 ^ s.cfg.symW

/-- R29 (d), R27, R77: the decoder in phase READY. -/
structure DecoderOk (s : State) : Prop where
  place : s.decPtr = s.root ∨ (s.nLeaves ≤ s.decPtr ∧ s.decPtr < s.nNodes)
  depth : ∃ path : Bits, path.length = s.decDepth ∧ walk s.nodes s.root path = some s.decPtr
  at_root : s.decDepth = 0 ↔ s.decPtr = s.root
  bound : s.decDepth ≤ s.cfg.codeMax - 1
  leaf : s.decLeaf < s.nLeaves
  symbol : s.decSym.toNat < 2 ^ s.cfg.symW
  emitted : s.decValid = true →
    ∃ nd, Store.read s.nodes s.decLeaf = some nd ∧ nd.sym = s.decSym

/-- R29 (b), (c), (f): what depends on the phase. -/
def PhaseOk (s : State) : Prop :=
  match s.phase with
  | .load => NoTree s ∧ s.tbReason = .none
  | .failed =>
    NoTree s ∧ (s.tbReason = .empty ∨ s.tbReason = .duplicate ∨ s.tbReason = .capacity)
  | .ready => s.tbReason = .none ∧ TreeOk s ∧ DictionaryOk s ∧ EncoderOk s ∧ DecoderOk s

/-- The invariant of R29 with the widths of `10_state.md` and the canonical form of the record
memories: it holds at reset and every step keeps it. -/
structure Invariant (s : State) : Prop where
  cfg : s.cfg.wf
  nodes_wf : Store.wf s.nodes
  dict_wf : Store.wf s.dict
  leaves_max : s.nLeaves ≤ s.cfg.nMax
  nodes_max : s.nNodes ≤ s.cfg.nodesMax
  held : ∀ k, (Store.read s.nodes k).isSome = true ↔ k < s.nNodes
  leaves : ∀ k, k < s.nLeaves → ∃ nd, Store.read s.nodes k = some nd ∧ IsLeafRecord s.cfg nd
  symbols_differ : ∀ i j a b, i < s.nLeaves → j < s.nLeaves → Store.read s.nodes i = some a →
    Store.read s.nodes j = some b → a.sym = b.sym → i = j
  freq_fits : ∀ k nd, Store.read s.nodes k = some nd → nd.freq < 2 ^ s.cfg.sumW
  phase : PhaseOk s

/-! ### BUILD by selection (R65) -/

/-- The smallest of a key and a list of keys. -/
def leastKey (k : Key) : List Key → Key
  | [] => k
  | x :: xs => leastKey (if x.lt k then x else k) xs

/-- Remove the smallest key from a collection: the queue of R65 with nothing said of its layout. -/
def selectMin (q : List Key) : Option (Key × List Key) :=
  match q with
  | [] => none
  | k :: ks => some (leastKey k ks, (k :: ks).erase (leastKey k ks))

/-- The keys of the leaves 0 to n-1. -/
def leafKeys (s : State) : Nat → Except Fault (List Key)
  | 0 => .ok []
  | n + 1 =>
    match leafKeys s n with
    | .error f => .error f
    | .ok q =>
      match readNode s n with
      | .error f => .error f
      | .ok nd => .ok (q ++ [⟨nd.freq, n⟩])

/-- One merge of the two smallest members of a plain collection (R60). -/
def selectStep (s : State) (q : List Key) : Stage :=
  match selectMin q with
  | none => .outOfNodes s
  | some (a, q1) =>
    match selectMin q1 with
    | none => .outOfNodes s
    | some (b, q2) =>
      match writeNode s s.nNodes (internalRecord (a.freq + b.freq) a.idx b.idx) with
      | .error f => .stuck f
      | .ok t => .done { t with nNodes := s.nNodes + 1 } (q2 ++ [⟨a.freq + b.freq, s.nNodes⟩])

/-- Merges while more than one member remains. -/
def selectLoop : Nat → State → List Key → Stage
  | 0, s, q => .done s q
  | fuel + 1, s, q =>
    if q.length ≤ 1 then .done s q
    else
      match selectStep s q with
      | .done t r => selectLoop fuel t r
      | .outOfNodes t => .outOfNodes t
      | .stuck f => .stuck f

/-- BUILD with the queue replaced by "remove the minimum of a finite set" (R65). -/
def buildBySelection (s : State) : Result :=
  match leafKeys s s.nLeaves with
  | .error f => .fault f
  | .ok q =>
    match selectLoop q.length s q with
    | .stuck f => .fault f
    | .outOfNodes t => failTable .internal t
    | .done t r =>
      match selectMin r with
      | none => failTable .internal t
      | some (k, _) => finishBuild t k.idx

/-- The heap property (R58): no entry's key is smaller than its parent's. -/
def HeapOrdered (h : Heap) : Prop :=
  ∀ p c kp kc, (c = 2 * p + 1 ∨ c = 2 * p + 2) → h[p]? = some kp → h[c]? = some kc →
    kc.lt kp = false

/-! ### The code assignment's stack (R20, R66) -/

/-- The loop of `assign_codes` on a stack that holds at most `limit` entries: the model's own turns,
and no answer once the stack holds more (R20, R115). -/
def boundedAssignLoop (limit : Nat) (s : State) :
    Nat → List (Nat × Bits) → Store DictEntry → Option (Except Fault (Store DictEntry))
  | 0, stack, d => if stack.length ≤ limit then some (assignLoop s 0 stack d) else none
  | fuel + 1, stack, d =>
    if stack.length ≤ limit then
      match stack with
      | [] => some (.ok d)
      | (p, c) :: rest =>
        match assignTurn s p c rest d with
        | .error f => some (.error f)
        | .ok (stack', d') => boundedAssignLoop limit s fuel stack' d'
    else none

/-! ### Registers and legality as the spec's tables have them -/

/-- A one-bit register as a number. -/
def bitNumber (b : Bool) : Nat := if b then 1 else 0

/-- The value of a status register as a number, field by field at the bit positions of R30. -/
def statusNumber (s : State) : StatusReg → Nat
  | .phase =>
    s.phase.code.toNat + 2 ^ 2 * bitNumber s.encOpen + 2 ^ 3 * bitNumber s.decValid +
      2 ^ 4 * s.tbReason.code.toNat
  | .nleaves => s.nLeaves
  | .nnodes => s.nNodes
  | .root => s.root
  | .encerr => s.encErr.code.toNat + 2 ^ 16 * s.encErrSym.toNat
  | .enccnt => s.encBuf.length
  | .decptr => s.decPtr
  | .decdepth => s.decDepth
  | .decsym => s.decSym.toNat + 2 ^ 16 * bitNumber s.decValid
  | .decleaf => s.decLeaf
  | .cfg0 => s.cfg.symW + 2 ^ 8 * s.cfg.freqW + 2 ^ 16 * (s.cfg.nMax - 1)
  | .cfg1 => s.cfg.encBufBits

/-- SEQ (R98). -/
def seqWord : Word := rspWord 3 0 0 0 0

/-- INVALID_WEIGHTS with a reason (R97). -/
def weightsWord (r : Reason) : Word := rspWord 2 0 (r.code.setWidth 8) 0 0

/-- The cells of R86's table that are not "run": the response a legal command gets in this state
instead of being run. -/
def refusedWith (i : Instr) (s : State) : Option Word :=
  match i with
  | .nop => none
  | .clear => none
  | .rdreg _ => none
  | .loadw _ _ =>
    match s.phase with
    | .load => none
    | .ready => some seqWord
    | .failed => some (weightsWord s.tbReason)
  | .build =>
    match s.phase with
    | .load => none
    | .ready => some seqWord
    | .failed => some (weightsWord s.tbReason)
  | .encbeg => if s.phase = .ready then none else some seqWord
  | .enc _ => if s.phase = .ready ∧ s.encOpen = true then none else some seqWord
  | .encend => if s.phase = .ready ∧ s.encOpen = true then none else some seqWord
  | .decbeg => if s.phase = .ready then none else some seqWord
  | .decbit _ => if s.phase = .ready then none else some seqWord
  | .decend => if s.phase = .ready then none else some seqWord

/-! ### Encoded messages -/

/-- The bit sequence the dictionary gives a symbol; empty for a symbol that has none. -/
def codeOf (s : State) (x : Symbol) : Bits :=
  match readDict s x with
  | some e => e.bits
  | none => []

/-- What an encode message of these symbols gives, by the dictionary alone: the concatenation of the
codes, or the error of the first symbol that has none or whose code does not fit (R70, R71). -/
def messageResult (s : State) : List Symbol → Bits → CallResult Bits
  | [], out => .ok out
  | x :: xs, out =>
    match readDict s x with
    | none => .noSuchKey x
    | some e =>
      if s.cfg.encBufBits < out.length + e.len then .overflow x
      else messageResult s xs (out ++ e.bits)

/-- The first reason a table is refused for, given the symbols already loaded (R55, R56): capacity
before duplicate, pair by pair; an empty table at BUILD. -/
def tableFault (c : Config) : List Symbol → List (Symbol × BitVec 32) → Reason
  | [], [] => .empty
  | _ :: _, [] => .none
  | seen, p :: ps =>
    if seen.length = c.nMax then .capacity
    else if p.1 ∈ seen then .duplicate
    else tableFault c (seen ++ [p.1]) ps

/-! ### Lines of text (R52, R53) -/

/-- The texts R52 gives a number: its decimal digits, and `0x` with its hexadecimal digits. -/
def numeralTexts (n : Nat) : List (List Char) :=
  [Nat.toDigits 10 n, '0' :: 'x' :: Nat.toDigits 16 n]

/-- Texts one after another, with a separator between them. -/
def joinWith (sep : List Char) : List (List Char) → List Char
  | [] => []
  | [t] => t
  | t :: u :: rest => t ++ sep ++ joinWith sep (u :: rest)

/-- A pair of `construct`, as R53 writes it: `(s,f)`. -/
def pairText (p : Nat × Nat) : List Char :=
  '(' :: Nat.toDigits 10 p.1 ++ ',' :: Nat.toDigits 10 p.2 ++ [')']

/-! ### The command word -/

/-- Bit `b` of a word is one that R49 requires to be zero for this opcode. -/
def mustBeZero (c : Config) (op b : Nat) : Prop :=
  match op with
  | 2 => (32 + c.symW ≤ b ∧ b < 48) ∨ (c.freqW ≤ b ∧ b < 32)
  | 5 => (32 + c.symW ≤ b ∧ b < 48) ∨ b < 32
  | 8 => (32 ≤ b ∧ b < 48) ∨ (1 ≤ b ∧ b < 32)
  | 10 => (32 ≤ b ∧ b < 48) ∨ (4 ≤ b ∧ b < 32)
  | _ => b < 48

/-- R50: the four clauses. -/
def IllegalCommand (c : Config) (w : Word) : Prop :=
  0xB ≤ (cmdOp w).toNat ∨
  (∃ b, 48 ≤ b ∧ b < 60 ∧ w.getLsbD b = true) ∨
  (∃ b, mustBeZero c (cmdOp w).toNat b ∧ w.getLsbD b = true) ∨
  ((cmdOp w).toNat = 0xA ∧ 0xC ≤ (w.extractLsb' 0 4).toNat)

end Sys2Proof.Machine
end

