-- ==== Sys2Proof/Certificates/Slice0/Obligations.lean ====
section
/-! DEFINITION. The statements about HTB, each from the numbered rules of spec/ (see OBLIGATIONS.json for
their citations). Response words are written `rspWord status flags reason sym data` with the numbers
of `30_encoding.md` R44 to R47. -/

open Sys2Proof Sys2Proof.Machine

/-! ### Encoding -/

/-- The decoder gives back every well-formed command from its word, with every operand it has
(`30_encoding.md` sections 2 and 4). -/
def Obligations.DecodeOfEncodeIsTheCommand : Prop :=
  ∀ (c : Config) (i : Instr), i.wellFormed c = true → decode c (encode i) = .ok i

/-- The other direction: a word the decoder accepts is the word of the command it gives, and that
command's operands are in range (`30_encoding.md` sections 2 and 4). -/
def Obligations.LegalWordsAreTheWordsOfTheirCommands : Prop :=
  ∀ (c : Config) (w : Word) (i : Instr), decode c w = .ok i → encode i = w ∧ i.wellFormed c = true

/-- R50, R99: the illegal words are exactly those of R50's four clauses, and a step on one changes no
state and returns ILLEGAL with every other field 0, in any phase. -/
def Obligations.IllegalWordsAreThoseOfTheFourClauses : Prop :=
  (∀ (c : Config) (w : Word), (∃ e, decode c w = .error e) ↔ IllegalCommand c w) ∧
  ∀ (s : State) (w : Word) (rest : List Word), s.cmds = w :: rest → IllegalCommand s.cfg w →
    step s = .next (({ s with cmds := rest } : State).replied (rspWord 4 0 0 0 0) [])

/-- Words the spec writes out (`30_encoding.md` R52, `95_test_vectors.md` P1, P2) decode to the commands
they stand for, and some it calls illegal (`95_test_vectors.md` section 2.5) to none. -/
def Obligations.WordsOfTheSpecDecode : Prop :=
  decode Config.defaults 0x200000410000000A#64 = .ok (.loadw 0x41 10) ∧
  decode Config.defaults 0x5000004200000000#64 = .ok (.enc 0x42) ∧
  decode Config.defaults 0x8000000000000001#64 = .ok (.decbit true) ∧
  decode Config.defaults 0xA000000000000003#64 = .ok (.rdreg .root) ∧
  decode Config.defaults 0x3000000000000000#64 = .ok .build ∧
  decode Config.defaults 0x6000000000000000#64 = .ok .encend ∧
  decode Config.defaults 0x9000000000000000#64 = .ok .decend ∧
  decode Config.defaults 0x1000000000000000#64 = .ok .clear ∧
  decode Config.defaults 0x2000014100000001#64 = .error .operandBitSet ∧
  decode Config.defaults 0x6001000000000000#64 = .error .rsvd0NotZero ∧
  decode Config.defaults 0xA00000000000000C#64 = .error .reservedRegister ∧
  decode Config.defaults 0xF000000000000000#64 = .error .reservedOpcode

/-- A step takes the next word off the port and executes the command it decodes to; with no word
presented nothing changes, which is the model's choice (log entry 2). -/
def Obligations.StepRunsTheDecodedCommand : Prop :=
  (∀ (s : State) (w : Word) (rest : List Word) (i : Instr), s.cmds = w :: rest →
    decode s.cfg w = .ok i → step s = exec i { s with cmds := rest }) ∧
  ∀ s : State, s.cmds = [] → step s = .next s

/-- Commands presented one after another take effect in port order: the steps of a run are the
commands of the sequence, each from the state the one before it left (`20_memory.md` section 3). -/
def Obligations.RunTakesCommandsInPortOrder : Prop :=
  ∀ (is : List Instr) (s t : State) (rest : List Word),
    (∀ i ∈ is, i.wellFormed s.cfg = true) → s.cmds = is.map encode ++ rest →
    execAll is { s with cmds := rest } = .next t → Host.Core.run Sys2Proof.core is.length s = .next t

/-- The lines of R52 (`30_encoding.md` section 4), with one blank after the mnemonic and after a comma
(log entry 11). A line with a numeric operand, in decimal or in hexadecimal, has exactly the word of its
command, written out here as a number, when its operands are in range, and no word when one is not; the
lines without operands and those that name a register have theirs; a comment changes nothing; and a line
of any text that is accepted gives words of well-formed commands only. -/
def Obligations.AssembledLinesAreLegalCommands : Prop :=
  ∀ c : Config, c.wf →
    (∀ n cs, cs ∈ numeralTexts n → assembleLine c ("enc ".toList ++ cs) =
      if n < 2 ^ c.symW then some [BitVec.ofNat 64 (0x5 * 2 ^ 60 + n * 2 ^ 32)] else none) ∧
    (∀ n f cs ds, cs ∈ numeralTexts n → ds ∈ numeralTexts f →
      assembleLine c ("loadw ".toList ++ cs ++ ", ".toList ++ ds) =
        if n < 2 ^ c.symW ∧ f < 2 ^ c.freqW then some [BitVec.ofNat 64 (0x2 * 2 ^ 60 + n * 2 ^ 32 + f)]
        else none) ∧
    (∀ n cs, cs ∈ numeralTexts n → assembleLine c ("decbit ".toList ++ cs) =
      if n < 2 then some [BitVec.ofNat 64 (0x8 * 2 ^ 60 + n)] else none) ∧
    (∀ n cs, cs ∈ numeralTexts n → assembleLine c ("rdreg ".toList ++ cs) =
      if n < 12 then some [BitVec.ofNat 64 (0xA * 2 ^ 60 + n)] else none) ∧
    (∀ p ∈ [("phase", 0), ("nleaves", 1), ("nnodes", 2), ("root", 3), ("encerr", 4), ("enccnt", 5),
        ("decptr", 6), ("decdepth", 7), ("decsym", 8), ("decleaf", 9), ("cfg0", 10), ("cfg1", 11)],
      assembleLine c ("rdreg ".toList ++ p.1.toList) = some [BitVec.ofNat 64 (0xA * 2 ^ 60 + p.2)]) ∧
    (∀ p ∈ [("nop", 0x0), ("clear", 0x1), ("build", 0x3), ("encbeg", 0x4), ("encend", 0x6),
        ("decbeg", 0x7), ("decend", 0x9)],
      assembleLine c p.1.toList = some [BitVec.ofNat 64 (p.2 * 2 ^ 60)]) ∧
    (∀ line comment : List Char, assembleLine c (line ++ ';' :: comment) = assembleLine c line) ∧
    ∀ (line : List Char) (ws : List Word), assembleLine c line = some ws →
      ∃ is : List Instr, ws = is.map encode ∧ ∀ i ∈ is, i.wellFormed c = true

/-- The three macros (`30_encoding.md` section 4), with the blanks R53 writes and decimal numbers: a macro
stands for the commands of its expansion in the order written, the empty operand list included, and a
macro with an operand out of range has no word. The blanks are the model's choice (log entry 11). -/
def Obligations.MacrosAssembleToTheirSequences : Prop :=
  ∀ c : Config, c.wf →
    (∀ ps : List (Nat × Nat),
      assembleLine c ("construct ".toList ++ joinWith ", ".toList (ps.map pairText)) =
        if ∀ p ∈ ps, p.1 < 2 ^ c.symW ∧ p.2 < 2 ^ c.freqW then
          some (encode .clear ::
            ps.map (fun p => encode (.loadw (BitVec.ofNat 16 p.1) (BitVec.ofNat 32 p.2))) ++
            [encode .build])
        else none) ∧
    (∀ ns : List Nat,
      assembleLine c ("encode ".toList ++ joinWith ", ".toList (ns.map (Nat.toDigits 10))) =
        if ∀ n ∈ ns, n < 2 ^ c.symW then
          some (encode .encbeg :: ns.map (fun n => encode (.enc (BitVec.ofNat 16 n))) ++ [encode .encend])
        else none) ∧
    ∀ ns : List Nat,
      assembleLine c ("decode ".toList ++ joinWith " ".toList (ns.map (Nat.toDigits 10))) =
        if ∀ n ∈ ns, n < 2 then
          some (encode .decbeg :: ns.map (fun n => encode (.decbit (n == 1))) ++ [encode .decend])
        else none

/-! ### Configuration and reset -/

/-- R7: the derived constants are R7's formulas, `ceil(log2(n))` being the least `k` with `n ≤ 2^k`,
and have R7's values at the defaults. -/
def Obligations.DerivedConstantsFollowTheirFormulas : Prop :=
  (∀ n : Nat, n ≤ 2 ^ ceilLog2 n ∧ ∀ k, n ≤ 2 ^ k → ceilLog2 n ≤ k) ∧
  (∀ c : Config, c.lgN = ceilLog2 c.nMax ∧ c.sumW = c.freqW + c.lgN ∧ c.nodesMax = 2 * c.nMax - 1 ∧
    c.idxW = max 1 (ceilLog2 c.nodesMax) ∧ c.codeMax = max 1 (c.nMax - 1) ∧
    c.lenW = ceilLog2 (c.codeMax + 1) ∧ c.nSyms = 2 ^ c.symW) ∧
  (∀ c : Config, c.nMax = 1 → c.lgN = 0) ∧
  Config.defaults.lgN = 8 ∧ Config.defaults.sumW = 40 ∧ Config.defaults.nodesMax = 511 ∧
  Config.defaults.idxW = 9 ∧ Config.defaults.codeMax = 255 ∧ Config.defaults.lenW = 8 ∧
  Config.defaults.nSyms = 256

/-- R31: the reset value of every register, and that no memory holds a readable value. -/
def Obligations.ResetLeavesTheStatedValues : Prop :=
  ∀ c : Config,
    (State.resetWith c).phase = .load ∧ (State.resetWith c).nLeaves = 0 ∧
    (State.resetWith c).nNodes = 0 ∧ (State.resetWith c).root = 0 ∧
    (State.resetWith c).tbReason = .none ∧ (State.resetWith c).encOpen = false ∧
    (State.resetWith c).encErr = .none ∧ (State.resetWith c).encErrSym = 0 ∧
    (State.resetWith c).encBuf = [] ∧ (State.resetWith c).decPtr = 0 ∧
    (State.resetWith c).decDepth = 0 ∧ (State.resetWith c).decSym = 0 ∧
    (State.resetWith c).decLeaf = 0 ∧ (State.resetWith c).decValid = false ∧
    (∀ x : Symbol, readDict (State.resetWith c) x = none) ∧
    ∀ k : Nat, Store.read (State.resetWith c).nodes k = none

/-- The invariant holds at reset, for every configuration of R6's ranges; and the state the core starts
in is the reset state at the default parameters, which is the model's choice (log entry 1). -/
def Obligations.ResetMeetsTheInvariant : Prop :=
  (∀ c : Config, c.wf → Invariant (State.resetWith c)) ∧
  Sys2Proof.core.reset = State.resetWith Config.defaults

/-! ### The invariant -/

/-- R29 as an invariant: every step, on any word, keeps it (`10_state.md` section 4). -/
def Obligations.EveryStepKeepsTheInvariant : Prop :=
  ∀ s t : State, Invariant s → step s = .next t → Invariant t

/-- R29: from reset, whatever commands are presented, every state reached meets R29's clauses; and the
run never stops. -/
def Obligations.EveryRunFromResetMeetsTheInvariant : Prop :=
  ∀ (c : Config) (cmds : List Word) (n : Nat), c.wf →
    ∃ t, Host.Core.run Sys2Proof.core n { State.resetWith c with cmds := cmds } = .next t ∧ Invariant t

/-- HTB cannot hang: in every state that meets the invariant a step has a next state
(`70_reset_and_hazards.md` section 3). -/
def Obligations.NoStepStops : Prop :=
  ∀ s : State, Invariant s → ∃ t, step s = .next t

/-- Every counter, index, length, symbol and frequency fits the width `10_state.md` and R7 give it
(sections 2 and 3), so that numbers may stand for the registers (log entry 7). -/
def Obligations.RegistersFitTheirWidths : Prop :=
  ∀ s : State, Invariant s →
    s.nLeaves < 2 ^ s.cfg.leavesW ∧ s.nNodes < 2 ^ s.cfg.nodesW ∧ s.root < 2 ^ s.cfg.idxW ∧
    s.decPtr < 2 ^ s.cfg.idxW ∧ s.decLeaf < 2 ^ s.cfg.idxW ∧ s.decDepth < 2 ^ s.cfg.lenW ∧
    s.decSym.toNat < 2 ^ s.cfg.symW ∧ s.encErrSym.toNat < 2 ^ s.cfg.symW ∧
    s.encBuf.length ≤ s.cfg.encBufBits ∧
    (∀ k nd, Store.read s.nodes k = some nd → k < s.cfg.nodesMax ∧ nd.freq < 2 ^ s.cfg.sumW ∧
      nd.sym.toNat < 2 ^ s.cfg.symW ∧ nd.left < 2 ^ s.cfg.idxW ∧ nd.right < 2 ^ s.cfg.idxW) ∧
    (∀ x e, Store.read s.dict x = some e → x < s.cfg.nSyms ∧ e.len < 2 ^ s.cfg.lenW ∧
      e.code.length = s.cfg.codeMax)

/-- R77: in phase READY the decoder's pointer is the root or an internal node below it, never a leaf but
a leaf root; with two leaves or more it is at an internal node, both of whose children exist. -/
def Obligations.PointerIsTheRootOrInternal : Prop :=
  ∀ s : State, Invariant s → s.phase = .ready →
    (s.decPtr = s.root ∨ ∃ nd path, Store.read s.nodes s.decPtr = some nd ∧ nd.kind = .internal ∧
      path ≠ [] ∧ walk s.nodes s.root path = some s.decPtr) ∧
    (2 ≤ s.nLeaves → ∃ nd l r, Store.read s.nodes s.decPtr = some nd ∧ nd.kind = .internal ∧
      Store.read s.nodes nd.left = some l ∧ Store.read s.nodes nd.right = some r)

/-! ### The front end -/

/-- R83: NOP, the all-zero word, changes no state and returns the all-zero response. -/
def Obligations.NopReturnsZeroAndChangesNothing : Prop :=
  (∀ c : Config, decode c 0#64 = .ok .nop) ∧
  ∀ s : State, exec .nop s = .next (s.replied 0#64 [])

/-- CLEAR, in any phase, reaches the reset state (`70_reset_and_hazards.md` section 1, `43_control.md`
section 1); that the configuration and the host's two sides of the port stay is the model's choice (log
entries 1 to 3). -/
def Obligations.ClearReachesTheResetState : Prop :=
  ∀ s : State, exec .clear s =
    .next (({ State.resetWith s.cfg with cmds := s.cmds, replies := s.replies } : State).replied 0#64 [])

/-- R30, R85: RDREG returns, with no change, the register's fields at the bit positions of R30; 0x3 to
0x9 read as 0 outside READY; CFG0 and CFG1 have their stated values at the defaults; a number 0xC to
0xF makes the word illegal. -/
def Obligations.RdregReadsTheStatusRegisters : Prop :=
  (∀ (s : State) (r : StatusReg), Invariant s →
    ∃ v : BitVec 32, exec (.rdreg r) s = .next (s.replied (rspWord 0 0 0 0 v) []) ∧
      v.toNat = statusNumber s r) ∧
  (∀ (s : State) (r : StatusReg), Invariant s → s.phase ≠ .ready → 3 ≤ r.number → r.number ≤ 9 →
    exec (.rdreg r) s = .next (s.replied (rspWord 0 0 0 0 0) [])) ∧
  (∀ s : State, s.cfg = Config.defaults →
    exec (.rdreg .cfg0) s = .next (s.replied (rspWord 0 0 0 0 0x00FF2008) []) ∧
    exec (.rdreg .cfg1) s = .next (s.replied (rspWord 0 0 0 0 0x00010000) [])) ∧
  ∀ (c : Config) (n : BitVec 4), 12 ≤ n.toNat →
    decode c (mkCmd 0xA 0 (n.setWidth 32)) = .error .reservedRegister

/-! ### The tree builder -/

/-- R55: LOADW in every case. In LOAD, CAPACITY is checked before DUPLICATE; either fails the table,
writes no leaf and is left by CLEAR alone; otherwise the leaf goes to `node[n_leaves]`. -/
def Obligations.LoadwAppendsALeafOrFails : Prop :=
  ∀ (s : State) (sym : Symbol) (freq : BitVec 32),
    (s.phase = .ready → exec (.loadw sym freq) s = .next (s.replied (rspWord 3 0 0 0 0) [])) ∧
    (s.phase = .failed → exec (.loadw sym freq) s =
      .next (s.replied (rspWord 2 0 (s.tbReason.code.setWidth 8) 0 0) [])) ∧
    (s.phase = .load → s.nLeaves = s.cfg.nMax → exec (.loadw sym freq) s =
      .next (({ s with phase := .failed, tbReason := .capacity } : State).replied
        (rspWord 2 0 4 0 0) [])) ∧
    (Invariant s → s.phase = .load → s.nLeaves ≠ s.cfg.nMax → Loaded s sym → exec (.loadw sym freq) s =
      .next (({ s with phase := .failed, tbReason := .duplicate } : State).replied
        (rspWord 2 0 3 0 0) [])) ∧
    (Invariant s → s.phase = .load → s.nLeaves ≠ s.cfg.nMax → ¬ Loaded s sym → exec (.loadw sym freq) s =
      .next (({ s with
        nodes := Store.write s.nodes s.nLeaves
          { kind := .leaf, freq := freq.toNat, sym := sym, left := 0, right := 0 }
        nLeaves := s.nLeaves + 1
        nNodes := s.nLeaves + 1 } : State).replied
        (rspWord 0 0 0 sym (BitVec.ofNat 32 s.nLeaves)) [])) ∧
    (∀ (is : List Instr) (t u : State), exec (.loadw sym freq) s = .next t → t.phase = .failed →
      .clear ∉ is → execAll is t = .next u → u.phase = .failed ∧ u.tbReason = t.tbReason)

/-- What LOADW leaves unchanged when it answers (`40_tree_builder.md` section 1): every register but
the phase, the reason and the two counters; the dictionary; and every node entry but the one stored
to, `node[n_leaves]`. One reply is added, without a burst. -/
def Obligations.LoadwFrame : Prop :=
  ∀ (s t : State) (sym : Symbol) (freq : BitVec 32), exec (.loadw sym freq) s = .next t →
    t = { s with phase := t.phase, tbReason := t.tbReason, nLeaves := t.nLeaves, nNodes := t.nNodes,
                 nodes := t.nodes, replies := t.replies } ∧
    (∃ w, t.replies = s.replies ++ [⟨w, []⟩]) ∧
    ∀ k, k ≠ s.nLeaves → Store.read t.nodes k = Store.read s.nodes k

/-- BUILD where it does not build: SEQ in READY, the stored reason in FAILED, EMPTY in LOAD with no
leaf (`40_tree_builder.md` section 2). -/
def Obligations.BuildRefusals : Prop :=
  ∀ s : State,
    (s.phase = .ready → exec .build s = .next (s.replied (rspWord 3 0 0 0 0) [])) ∧
    (s.phase = .failed → exec .build s =
      .next (s.replied (rspWord 2 0 (s.tbReason.code.setWidth 8) 0 0) [])) ∧
    (s.phase = .load → s.nLeaves = 0 → exec .build s =
      .next (({ s with phase := .failed, tbReason := .empty } : State).replied (rspWord 2 0 1 0 0) []))

/-- BUILD on a table of `n ≥ 1` leaves completes: `n - 1` internal records at `n` to `2n - 2`, the
leaves as they were, the root `2n - 2` (leaf 0 when `n = 1`), the decoder at the root, phase READY,
every other register unchanged (`40_tree_builder.md` sections 2 and 4, `20_memory.md` section 2). -/
def Obligations.BuildCompletesWithTheRootLast : Prop :=
  ∀ s : State, Invariant s → s.phase = .load → 1 ≤ s.nLeaves →
    ∃ t, exec .build s = .next t ∧
      t = { s with
        nodes := t.nodes, dict := t.dict, nNodes := 2 * s.nLeaves - 1, root := 2 * s.nLeaves - 2
        phase := .ready, decPtr := 2 * s.nLeaves - 2, decDepth := 0, decValid := false
        replies := s.replies ++ [⟨rspWord 0 0 0 0 (BitVec.ofNat 32 (2 * s.nLeaves - 2)), []⟩] } ∧
      t.nNodes ≤ t.cfg.nodesMax ∧
      (∀ k, k < s.nLeaves → Store.read t.nodes k = Store.read s.nodes k) ∧
      (∀ k, s.nLeaves ≤ k → k ≤ 2 * s.nLeaves - 2 →
        ∃ nd, Store.read t.nodes k = some nd ∧ IsInternalRecord t.nodes k nd) ∧
      (∀ k, 2 * s.nLeaves - 1 ≤ k → Store.read t.nodes k = none)

/-- What BUILD leaves unchanged when it answers (`40_tree_builder.md` section 2): the encoder, the
decoder's output register, `n_leaves`; every node entry outside the ones stored to, those from the old
to the new `n_nodes`; and the dictionary entry of every symbol that is in no leaf of the tree. -/
def Obligations.BuildFrame : Prop :=
  ∀ s t : State, exec .build s = .next t →
    t = { s with phase := t.phase, tbReason := t.tbReason, nNodes := t.nNodes, root := t.root
                 nodes := t.nodes, dict := t.dict, decPtr := t.decPtr, decDepth := t.decDepth
                 decValid := t.decValid, replies := t.replies } ∧
    s.nNodes ≤ t.nNodes ∧
    (∀ k, k < s.nNodes ∨ t.nNodes ≤ k → Store.read t.nodes k = Store.read s.nodes k) ∧
    ∀ x : Nat, (∀ k nd, Store.read t.nodes k = some nd → nd.kind = .leaf → nd.sym.toNat ≠ x) →
      Store.read t.dict x = Store.read s.dict x

/-- R65: the heap returns the smallest key and keeps its members, so that BUILD is, on every state,
BUILD with the queue replaced by "remove the minimum of a finite set". -/
def Obligations.BuildIsSelectionOfTheSmallest : Prop :=
  (∀ (h : Heap) (k : Key), HeapOrdered h →
    HeapOrdered (heapInsert h k) ∧ (heapInsert h k).Perm (k :: h)) ∧
  (∀ (h g : Heap) (k : Key), HeapOrdered h → heapExtractMin h = some (k, g) →
    HeapOrdered g ∧ h.Perm (k :: g) ∧ ∀ x ∈ h, x = k ∨ k.lt x = true) ∧
  ∀ s : State, s.phase = .load → s.nLeaves ≠ 0 → exec .build s = buildBySelection s

/-- R57: the order on keys is lexicographic and a strict total order. -/
def Obligations.KeysAreStrictlyTotallyOrdered : Prop :=
  (∀ a b : Key, a.lt b = true ↔ a.freq < b.freq ∨ (a.freq = b.freq ∧ a.idx < b.idx)) ∧
  (∀ a : Key, a.lt a = false) ∧
  (∀ a b c : Key, a.lt b = true → b.lt c = true → a.lt c = true) ∧
  ∀ a b : Key, a ≠ b → a.lt b = true ∨ b.lt a = true

/-- R62: of the two nodes a merge removes, the smaller key becomes the left child and the larger the
right, in every internal node of a built tree; its frequency is their sum, within SUM_W bits. -/
def Obligations.SmallerKeyIsTheLeftChild : Prop :=
  ∀ s : State, Invariant s → s.phase = .load → 1 ≤ s.nLeaves →
    ∃ t, exec .build s = .next t ∧
      ∀ k nd, s.nLeaves ≤ k → Store.read t.nodes k = some nd →
        ∃ l r, Store.read t.nodes nd.left = some l ∧ Store.read t.nodes nd.right = some r ∧
          Key.lt ⟨l.freq, nd.left⟩ ⟨r.freq, nd.right⟩ = true ∧
          nd.freq = l.freq + r.freq ∧ nd.freq < 2 ^ s.cfg.sumW

/-- R64, R67: BUILD on one pair: the leaf is the root, no internal record is written, and its symbol
has the one-bit code `0`. -/
def Obligations.LonePairBuildsALeafRoot : Prop :=
  ∀ s : State, Invariant s → s.phase = .load → s.nLeaves = 1 →
    ∃ nd, Store.read s.nodes 0 = some nd ∧
      exec .build s = .next (({ s with
        root := 0, phase := .ready, decPtr := 0, decDepth := 0, decValid := false
        dict := [(nd.sym.toNat,
          { len := 1, code := false :: List.replicate (s.cfg.codeMax - 1) false })] } : State).replied
        0#64 [])

/-- The reason INTERNAL is never raised: no command enters it into `tb_reason`, whatever the state
(`40_tree_builder.md` section 4). -/
def Obligations.InternalReasonIsNeverRaised : Prop :=
  ∀ (i : Instr) (s t : State), exec i s = .next t → t.tbReason = .internal → s.tbReason = .internal

/-! ### The dictionary -/

/-- R66: after BUILD on two leaves or more, each leaf's symbol has the one path from the root to the
leaf as its code, padded with zeros, and no other symbol has an entry. -/
def Obligations.CodesArePathsFromTheRoot : Prop :=
  ∀ s : State, Invariant s → s.phase = .load → 2 ≤ s.nLeaves →
    ∃ t, exec .build s = .next t ∧
      (∀ q nd, q < s.nLeaves → Store.read t.nodes q = some nd →
        ∃ path, walk t.nodes t.root path = some q ∧
          (∀ other, walk t.nodes t.root other = some q → other = path) ∧
          Store.read t.dict nd.sym.toNat = some
            { len := path.length,
              code := path ++ List.replicate (t.cfg.codeMax - path.length) false }) ∧
      ∀ x : Symbol, ¬ Loaded s x → readDict t x = none

/-- Code lengths in phase READY: from 1 to CODE_MAX, and to `n - 1` for `n ≥ 2` leaves
(`41_encoder.md` section 1). -/
def Obligations.CodeLengthsAreBounded : Prop :=
  ∀ (s : State) (x : Symbol) (e : DictEntry), Invariant s → s.phase = .ready → readDict s x = some e →
    1 ≤ e.len ∧ e.len ≤ s.cfg.codeMax ∧ e.code.length = s.cfg.codeMax ∧
    (2 ≤ s.nLeaves → e.len ≤ s.nLeaves - 1)

/-- R68: for two different symbols of the dictionary neither bit sequence is a prefix of the other's. -/
def Obligations.DictionaryIsPrefixFree : Prop :=
  ∀ (s : State) (x y : Symbol) (e f : DictEntry), Invariant s → s.phase = .ready → x ≠ y →
    readDict s x = some e → readDict s y = some f → ¬ e.bits <+: f.bits

/-- The code assignment's stack never holds more than CODE_MAX + 1 entries (`41_encoder.md` section 1,
`70_reset_and_hazards.md` section 2): on the tree of any state in phase READY, for as many turns as one
likes, the model's loop is the same loop, turn for turn, on a stack of that size; and the dictionary a
BUILD of two leaves or more leaves is the one the loop on that stack writes. -/
def Obligations.AssignmentStackIsBounded : Prop :=
  (∀ (s : State) (turns : Nat) (d : Store DictEntry), Invariant s → s.phase = .ready →
    boundedAssignLoop (s.cfg.codeMax + 1) s turns [(s.root, [])] d =
      some (assignLoop s turns [(s.root, [])] d)) ∧
  ∀ s : State, Invariant s → s.phase = .load → 2 ≤ s.nLeaves →
    ∃ t, exec .build s = .next t ∧
      boundedAssignLoop (s.cfg.codeMax + 1) t t.nNodes [(t.root, [])] s.dict = some (.ok t.dict)

/-! ### The encoder -/

/-- R69: ENCBEG in every case. -/
def Obligations.EncbegOpensAMessage : Prop :=
  ∀ s : State,
    (s.phase ≠ .ready → exec .encbeg s = .next (s.replied (rspWord 3 0 0 0 0) [])) ∧
    (s.phase = .ready → exec .encbeg s =
      .next (({ s with encOpen := true, encErr := .none, encErrSym := 0, encBuf := [] } : State).replied
        0#64 []))

/-- R70: ENC in every case, in the order of its checks. -/
def Obligations.EncAppendsACodeOrFails : Prop :=
  ∀ (s : State) (sym : Symbol),
    (s.phase ≠ .ready ∨ s.encOpen = false →
      exec (.enc sym) s = .next (s.replied (rspWord 3 0 0 0 0) [])) ∧
    (s.phase = .ready → s.encOpen = true → s.encErr ≠ .none →
      exec (.enc sym) s = .next (s.replied (rspWord s.encErr.code 0 0 s.encErrSym 0) [])) ∧
    (s.phase = .ready → s.encOpen = true → s.encErr = .none → readDict s sym = none →
      exec (.enc sym) s =
        .next (({ s with encErr := .noSuchKey, encErrSym := sym, encBuf := [] } : State).replied
          (rspWord 1 0 0 sym 0) [])) ∧
    (∀ e, s.phase = .ready → s.encOpen = true → s.encErr = .none → readDict s sym = some e →
      s.encBuf.length + e.len > s.cfg.encBufBits →
      exec (.enc sym) s =
        .next (({ s with encErr := .overflow, encErrSym := sym, encBuf := [] } : State).replied
          (rspWord 5 0 0 sym 0) [])) ∧
    (∀ e, s.phase = .ready → s.encOpen = true → s.encErr = .none → readDict s sym = some e →
      s.encBuf.length + e.len ≤ s.cfg.encBufBits →
      exec (.enc sym) s =
        .next (({ s with encBuf := s.encBuf ++ e.code.take e.len } : State).replied
          (rspWord 0 0 0 sym (BitVec.ofNat 32 e.len)) []))

/-- R71: ENCEND in every case: the buffer as the burst, first bit first, or the stored error and no
bit; the encoder is then as before ENCBEG. -/
def Obligations.EncendDeliversTheMessageOrItsError : Prop :=
  ∀ s : State,
    (s.phase ≠ .ready ∨ s.encOpen = false →
      exec .encend s = .next (s.replied (rspWord 3 0 0 0 0) [])) ∧
    (s.phase = .ready → s.encOpen = true → s.encErr ≠ .none →
      exec .encend s =
        .next (({ s with encOpen := false, encErr := .none, encErrSym := 0, encBuf := [] } : State).replied
          (rspWord s.encErr.code 0 0 s.encErrSym 0) [])) ∧
    (s.phase = .ready → s.encOpen = true → s.encErr = .none →
      exec .encend s =
        .next (({ s with encOpen := false, encErr := .none, encErrSym := 0, encBuf := [] } : State).replied
          (rspWord 0 0 0 0 (BitVec.ofNat 32 s.encBuf.length)) s.encBuf))

/-- A whole message (`43_control.md` section 3, `41_encoder.md` section 2): the sequence
`encbeg; enc ...; encend` answers, closes the message, and its result is the concatenation of the
codes in input order, or the error of the first symbol with no code or without room, and then no
reply of it carries a bit. -/
def Obligations.EncodeIsAllOrNothing : Prop :=
  ∀ (s : State) (message : List Symbol), s.phase = .ready →
    ∃ t, execAll (encodeSeq message) s = .next t ∧
      encodeResult (t.replies.drop s.replies.length) = messageResult s message [] ∧
      (t.replies.drop s.replies.length).length = message.length + 2 ∧
      t.encOpen = false ∧ t.encErr = .none ∧ t.encErrSym = 0 ∧ t.encBuf = [] ∧ SameButEncoder s t ∧
      ((∀ out, messageResult s message [] ≠ .ok out) →
        ∀ r ∈ t.replies.drop s.replies.length, r.burst = [])

/-- A message error is sticky: every later ENC of the message repeats the first error and its symbol
and changes nothing, and ENCEND returns it with no bit and clears it (`60_exceptions.md` section 1). -/
def Obligations.MessageErrorIsSticky : Prop :=
  ∀ (s : State) (syms : List Symbol), s.phase = .ready → s.encOpen = true → s.encErr ≠ .none →
    ∃ t, execAll (syms.map .enc) s = .next t ∧
      t = { s with replies := s.replies ++
        List.replicate syms.length ⟨rspWord s.encErr.code 0 0 s.encErrSym 0, []⟩ } ∧
      exec .encend t =
        .next (({ t with encOpen := false, encErr := .none, encErrSym := 0, encBuf := [] } : State).replied
          (rspWord s.encErr.code 0 0 s.encErrSym 0) [])

/-- R72: the replies of an encode message are a function of the dictionary (with the buffer's
capacity) and the message's symbols alone. -/
def Obligations.MessageDependsOnDictionaryAndSymbolsAlone : Prop :=
  ∀ (s₁ s₂ t₁ t₂ : State) (message : List Symbol), s₁.phase = .ready → s₂.phase = .ready →
    s₁.dict = s₂.dict → s₁.cfg.encBufBits = s₂.cfg.encBufBits →
    execAll (encodeSeq message) s₁ = .next t₁ → execAll (encodeSeq message) s₂ = .next t₂ →
    t₁.replies.drop s₁.replies.length = t₂.replies.drop s₂.replies.length

/-! ### The decoder -/

/-- R74: DECBEG in every case; and a BUILD that succeeds leaves the decoder as DECBEG would. -/
def Obligations.DecbegStartsAtTheRoot : Prop :=
  ∀ s : State,
    (s.phase ≠ .ready → exec .decbeg s = .next (s.replied (rspWord 3 0 0 0 0) [])) ∧
    (s.phase = .ready → exec .decbeg s =
      .next (({ s with decPtr := s.root, decDepth := 0, decValid := false } : State).replied 0#64 [])) ∧
    ∀ t, s.phase = .load → exec .build s = .next t → t.phase = .ready →
      t.decPtr = t.root ∧ t.decDepth = 0 ∧ t.decValid = false

/-- R75: DECBIT in every case: SEQ outside READY; the move to the child the bit names, or none at a
leaf; the emit and return to the root at a leaf, else one level down; and in a state that meets the
invariant the two entries it reads hold values. -/
def Obligations.DecbitMovesAndEmits : Prop :=
  ∀ (s : State) (bit : Bool),
    (s.phase ≠ .ready → exec (.decbit bit) s = .next (s.replied (rspWord 3 0 0 0 0) [])) ∧
    (∀ (n m : Node) (q : Nat), s.phase = .ready → Store.read s.nodes s.decPtr = some n →
      q = (if n.kind = .internal then (if bit = true then n.right else n.left) else s.decPtr) →
      Store.read s.nodes q = some m → m.kind = .leaf →
      exec (.decbit bit) s = .next (({ s with
        decSym := m.sym, decLeaf := q, decValid := true, decPtr := s.root, decDepth := 0 } : State).replied
        (rspWord 0 1 0 m.sym (BitVec.ofNat 32 q)) [])) ∧
    (∀ (n m : Node) (q : Nat), s.phase = .ready → Store.read s.nodes s.decPtr = some n →
      q = (if n.kind = .internal then (if bit = true then n.right else n.left) else s.decPtr) →
      Store.read s.nodes q = some m → m.kind = .internal →
      exec (.decbit bit) s = .next (({ s with
        decPtr := q, decDepth := s.decDepth + 1, decValid := false } : State).replied
        (rspWord 0 0 0 0 (BitVec.ofNat 32 q)) [])) ∧
    (Invariant s → s.phase = .ready →
      ∃ n m, Store.read s.nodes s.decPtr = some n ∧
        Store.read s.nodes
          (if n.kind = .internal then (if bit = true then n.right else n.left) else s.decPtr) = some m)

/-- R76: DECEND in every case: PARTIAL and the number of dropped bits when the pointer was away from
the root, and the pointer back at the root. -/
def Obligations.DecendReportsDroppedBits : Prop :=
  ∀ s : State,
    (s.phase ≠ .ready → exec .decend s = .next (s.replied (rspWord 3 0 0 0 0) [])) ∧
    (s.phase = .ready → s.decDepth = 0 → exec .decend s =
      .next (({ s with decPtr := s.root, decDepth := 0, decValid := false } : State).replied 0#64 [])) ∧
    (s.phase = .ready → s.decDepth ≠ 0 → exec .decend s =
      .next (({ s with decPtr := s.root, decDepth := 0, decValid := false } : State).replied
        (rspWord 0 2 0 0 (BitVec.ofNat 32 s.decDepth)) []))

/-- R78: every sequence of bits is a legal stream: each DECBIT answers with status OK, nothing but the
decoder's part changes, and the DECEND after it answers OK, with PARTIAL and the depth if the stream
ended inside a code. -/
def Obligations.EveryBitSequenceDecodes : Prop :=
  ∀ (s : State) (bits : Bits), Invariant s → s.phase = .ready →
    ∃ t u, execAll (bits.map .decbit) s = .next t ∧ SameButDecoder s t ∧
      (t.replies.drop s.replies.length).length = bits.length ∧
      (∀ r ∈ t.replies.drop s.replies.length, rspStatus r.word = 0 ∧ r.burst = []) ∧
      exec .decend t = .next u ∧
      u.replies = t.replies ++ [⟨rspWord 0 (if t.decDepth = 0 then 0 else 2) 0 0
        (BitVec.ofNat 32 t.decDepth), []⟩]

/-- R79: on a tree of one leaf every bit, whatever its value, emits the one symbol; the depth stays 0
and DECEND reports nothing dropped. -/
def Obligations.LoneLeafEmitsOncePerBit : Prop :=
  ∀ (s : State) (bits : Bits), Invariant s → s.phase = .ready → s.nLeaves = 1 →
    ∃ nd t, Store.read s.nodes 0 = some nd ∧ execAll (bits.map .decbit) s = .next t ∧
      t.replies = s.replies ++ List.replicate bits.length ⟨rspWord 0 1 0 nd.sym 0, []⟩ ∧
      t.decPtr = 0 ∧ t.decDepth = 0 ∧
      ∃ u, exec .decend t = .next u ∧ u.replies = t.replies ++ [⟨0#64, []⟩]

/-- R81: after DECBEG the replies of a stream are a function of the tree and the stream's bits alone. -/
def Obligations.StreamDependsOnTreeAndBitsAlone : Prop :=
  ∀ (s₁ s₂ t₁ : State) (stream : Bits), s₁.phase = .ready → s₂.phase = .ready →
    s₁.nodes = s₂.nodes → s₁.root = s₂.root → execAll (decodeSeq stream) s₁ = .next t₁ →
    ∃ t₂, execAll (decodeSeq stream) s₂ = .next t₂ ∧
      t₁.replies.drop s₁.replies.length = t₂.replies.drop s₂.replies.length

/-- The references a stream returns name the symbols it returns (`42_decoder.md` section 2,
`43_control.md` section 3): the two results are read off the same replies, one for one, and each leaf
index is that of a leaf of the tree whose symbol is the symbol beside it. -/
def Obligations.DecodedReferencesNameTheirSymbols : Prop :=
  ∀ (s t : State) (bits : Bits), Invariant s → s.phase = .ready →
    execAll (decodeSeq bits) s = .next t →
    (decodeResult (t.replies.drop s.replies.length)).length =
      (decodeOwnedResult (t.replies.drop s.replies.length)).length ∧
    ∀ (n : Nat) (ref : BitVec 32) (sym : Symbol),
      (decodeResult (t.replies.drop s.replies.length))[n]? = some ref →
      (decodeOwnedResult (t.replies.drop s.replies.length))[n]? = some sym →
      ref.toNat < s.nLeaves ∧
        ∃ nd, Store.read s.nodes ref.toNat = some nd ∧ nd.kind = .leaf ∧ nd.sym = sym

/-- R82: the round trip. In phase READY, for every sequence of the table's symbols whose encoding fits
the buffer, the message delivers the concatenation of the codes, and the stream of those bits emits
exactly those symbols, in order, with no bit left over. -/
def Obligations.RoundTrip : Prop :=
  ∀ (s : State) (message : List Symbol), Invariant s → s.phase = .ready → (∀ x ∈ message, Loaded s x) →
    (message.flatMap (codeOf s)).length ≤ s.cfg.encBufBits →
    ∃ t u, execAll (encodeSeq message) s = .next t ∧
      t.replies.getLast? = some
        ⟨rspWord 0 0 0 0 (BitVec.ofNat 32 (message.flatMap (codeOf s)).length),
         message.flatMap (codeOf s)⟩ ∧
      execAll (decodeSeq (message.flatMap (codeOf s))) t = .next u ∧
      decodeOwnedResult (u.replies.drop t.replies.length) = message ∧
      u.replies.getLast? = some ⟨0#64, []⟩

/-! ### Whole-machine rules -/

/-- R86: in the cells of the table that are not "run" a command returns the status shown and changes
no state; in the others it never returns SEQ. -/
def Obligations.LegalityByPhase : Prop :=
  (∀ (i : Instr) (s : State) (w : Word), refusedWith i s = some w →
    exec i s = .next (s.replied w [])) ∧
  ∀ (i : Instr) (s t : State), refusedWith i s = none → exec i s = .next t →
    ∃ r, t.replies = s.replies ++ [r] ∧ rspStatus r.word ≠ 3

/-- R87: the phase transitions. Reset and CLEAR go to LOAD from anywhere; from LOAD, LOADW stays or
fails the table with CAPACITY or DUPLICATE, BUILD goes to READY, or with no leaf to FAILED with EMPTY, and
the response is INVALID_WEIGHTS exactly when the phase has become FAILED; nothing else changes the phase. -/
def Obligations.PhaseTransitions : Prop :=
  (∀ c : Config, (State.resetWith c).phase = .load) ∧
  ∀ (i : Instr) (s t : State), exec i s = .next t →
    (i = .clear → t.phase = .load) ∧
    (i ≠ .clear → t.phase = s.phase ∨
      (s.phase = .load ∧ t.phase = .failed ∧ (∃ sym freq, i = .loadw sym freq) ∧
        (t.tbReason = .capacity ∨ t.tbReason = .duplicate)) ∨
      (s.phase = .load ∧ t.phase = .failed ∧ i = .build ∧ s.nLeaves = 0 ∧ t.tbReason = .empty) ∨
      (s.phase = .load ∧ t.phase = .ready ∧ i = .build ∧ s.nLeaves ≠ 0)) ∧
    (i = .build → s.phase = .load → t.phase ≠ .load) ∧
    (s.phase = .load → ∃ r, t.replies = s.replies ++ [r] ∧ (rspStatus r.word = 2 ↔ t.phase = .failed))

/-- In phase READY no command but CLEAR writes the tree, the dictionary or any of the shared part
(`20_memory.md` section 3, `43_control.md` section 3). -/
def Obligations.ReadyTreeAndDictionaryAreImmutable : Prop :=
  ∀ (i : Instr) (s t : State), s.phase = .ready → i ≠ .clear → exec i s = .next t →
    t.nodes = s.nodes ∧ t.dict = s.dict ∧ t.nLeaves = s.nLeaves ∧ t.nNodes = s.nNodes ∧
    t.root = s.root ∧ t.phase = .ready ∧ t.tbReason = s.tbReason

/-- R93: in phase READY encoder commands write only the encoder's part, decoder commands only the
decoder's, both answer, and two adjacent commands, one of each kind, commute: the same state and the
same two replies either way round. -/
def Obligations.EncoderAndDecoderCommute : Prop :=
  (∀ (e : Instr) (s t : State), e.isEncoder = true → exec e s = .next t → SameButEncoder s t) ∧
  (∀ (d : Instr) (s t : State), d.isDecoder = true → exec d s = .next t → SameButDecoder s t) ∧
  ∀ (e d : Instr) (s : State), Invariant s → s.phase = .ready → e.isEncoder = true → d.isDecoder = true →
    ∃ t₁ t₂ u₁ u₂ re rd, exec e s = .next t₁ ∧ exec d t₁ = .next t₂ ∧
      exec d s = .next u₁ ∧ exec e u₁ = .next u₂ ∧
      t₂.quiet = u₂.quiet ∧ t₂.cmds = u₂.cmds ∧
      t₂.replies = s.replies ++ [re, rd] ∧ u₂.replies = s.replies ++ [rd, re]

/-- R47, with what R44 to R46 say of the other fields: every command returns exactly one reply; EMIT,
PARTIAL, the reason and the burst appear only where their rules say; a non-zero status has no flag. -/
def Obligations.RepliesKeepTheirForm : Prop :=
  ∀ (i : Instr) (s t : State), exec i s = .next t →
    t.cmds = s.cmds ∧ t.cfg = s.cfg ∧
    ∃ r, t.replies = s.replies ++ [r] ∧
      (rspStatus r.word).toNat ≤ 5 ∧
      (rspEmit r.word = true ↔ s.phase = .ready ∧ (∃ b, i = .decbit b) ∧ t.decValid = true) ∧
      (rspEmit r.word = true → rspSym r.word = t.decSym ∧ rspData r.word = BitVec.ofNat 32 t.decLeaf) ∧
      (rspPartial r.word = true ↔ s.phase = .ready ∧ i = .decend ∧ s.decDepth ≠ 0) ∧
      (rspPartial r.word = true → rspData r.word = BitVec.ofNat 32 s.decDepth) ∧
      r.word.getLsbD 58 = false ∧ r.word.getLsbD 59 = false ∧
      (rspStatus r.word ≠ 0 → rspFlags r.word = 0 ∧ r.burst = []) ∧
      (rspStatus r.word ≠ 2 → rspReason r.word = 0) ∧
      (r.burst ≠ [] → i = .encend ∧ rspStatus r.word = 0 ∧ r.burst = s.encBuf)

/-- Errors are precise (`60_exceptions.md` section 1): where the status is not zero, the state is the
state before but for the reply and the bookkeeping of its own error: phase and reason for the first
INVALID_WEIGHTS, the message's error and empty buffer for NO_SUCH_KEY and OVERFLOW, the closed
message for an ENCEND that returns one. -/
def Obligations.ErrorsArePrecise : Prop :=
  ∀ (i : Instr) (s t : State) (r : Reply), exec i s = .next t → t.replies = s.replies ++ [r] →
    rspStatus r.word ≠ 0 →
    t = { s with replies := t.replies } ∨
    (rspStatus r.word = 2 ∧ s.phase = .load ∧
      t = { s with phase := .failed, tbReason := t.tbReason, replies := t.replies } ∧
      rspReason r.word = t.tbReason.code.setWidth 8) ∨
    ((∃ x, i = .enc x ∧ t.encErrSym = x ∧ rspSym r.word = x) ∧ rspStatus r.word = t.encErr.code ∧
      t = { s with encErr := t.encErr, encErrSym := t.encErrSym, encBuf := [], replies := t.replies }) ∨
    (i = .encend ∧ rspStatus r.word = s.encErr.code ∧ rspSym r.word = s.encErrSym ∧
      t = { s with encOpen := false, encErr := .none, encErrSym := 0, encBuf := [], replies := t.replies })

/-- A failed construction is left only by CLEAR: in FAILED any sequence of other commands answers and
leaves every register and memory as it was, `tb_reason` with the first reason (`60_exceptions.md`
section 1). -/
def Obligations.FailedPhaseIsSticky : Prop :=
  ∀ (s : State) (is : List Instr), s.phase = .failed → .clear ∉ is →
    ∃ t, execAll is s = .next t ∧ t = { s with replies := t.replies }

/-- R102: the order of the checks: an illegal word before all else; then the phase; then the open
message; then the message's stored error; then CAPACITY before DUPLICATE and NO_SUCH_KEY before
OVERFLOW. -/
def Obligations.ChecksAreMadeInOrder : Prop :=
  (∀ (s : State) (w : Word) (rest : List Word), s.cmds = w :: rest → IllegalCommand s.cfg w →
    step s = .next (({ s with cmds := rest } : State).replied (rspWord 4 0 0 0 0) [])) ∧
  (∀ (i : Instr) (s : State) (w : Word), refusedWith i s = some w →
    exec i s = .next (s.replied w [])) ∧
  (∀ (s : State) (x : Symbol), s.phase = .ready → s.encOpen = true → s.encErr ≠ .none →
    exec (.enc x) s = .next (s.replied (rspWord s.encErr.code 0 0 s.encErrSym 0) []) ∧
    ∃ t : State, exec .encend s = .next (t.replied (rspWord s.encErr.code 0 0 s.encErrSym 0) [])) ∧
  (∀ (s : State) (x : Symbol) (f : BitVec 32), s.phase = .load → s.nLeaves = s.cfg.nMax →
    ∃ t : State, exec (.loadw x f) s = .next (t.replied (rspWord 2 0 4 0 0) [])) ∧
  (∀ (s : State), s.phase = .load → s.nLeaves = 0 →
    ∃ t : State, exec .build s = .next (t.replied (rspWord 2 0 1 0 0) [])) ∧
  (∀ (s : State) (x : Symbol), s.phase = .ready → s.encOpen = true → s.encErr = .none →
    readDict s x = none → ∃ t : State, exec (.enc x) s = .next (t.replied (rspWord 1 0 0 x 0) []))

/-! ### The library's calls -/

/-- `construct` (`43_control.md` section 3, `70_reset_and_hazards.md` section 1): from any state, clear,
one loadw per pair, build answers; its result is Ok exactly when the table is not empty, has at most
N_MAX pairs and no symbol twice, and else the first reason; and when Ok, HTB is in phase READY, meets
the invariant and holds the pairs in their order. -/
def Obligations.ConstructBuildsOrGivesTheFirstReason : Prop :=
  ∀ (s : State) (table : List (Symbol × BitVec 32)), s.cfg.wf →
    (∀ p ∈ table, p.1.toNat < 2 ^ s.cfg.symW ∧ p.2.toNat < 2 ^ s.cfg.freqW) →
    ∃ t, execAll (constructSeq table) s = .next t ∧
      (tableFault s.cfg [] table = .none →
        constructResult (t.replies.drop s.replies.length) = .ok () ∧ t.phase = .ready ∧ Invariant t ∧
        t.nLeaves = table.length ∧
        ∀ k p, table[k]? = some p → Store.read t.nodes k =
          some { kind := .leaf, freq := p.2.toNat, sym := p.1, left := 0, right := 0 }) ∧
      (tableFault s.cfg [] table ≠ .none →
        constructResult (t.replies.drop s.replies.length) =
          .invalidWeights ((tableFault s.cfg [] table).code.setWidth 8) ∧
        t.phase = .failed ∧ t.tbReason = tableFault s.cfg [] table)

/-- Determinism (`40_tree_builder.md` section 4): the state after `construct`, and its replies, are a
function of the sequence of pairs alone; nothing of the state before it matters. -/
def Obligations.ConstructForgetsThePast : Prop :=
  ∀ (s₁ s₂ t₁ : State) (table : List (Symbol × BitVec 32)), s₁.cfg = s₂.cfg →
    execAll (constructSeq table) s₁ = .next t₁ →
    ∃ t₂, execAll (constructSeq table) s₂ = .next t₂ ∧ t₁.quiet = t₂.quiet ∧
      t₁.replies.drop s₁.replies.length = t₂.replies.drop s₂.replies.length
end

