-- ==== Sys2Proof/Laws/State.lean ====
section
/-! SUPPORT. One lemma per field per named update of the state, so that no later proof unfolds a
record update; and what the shared operations answer. -/

namespace Sys2Proof.Machine

@[simp] theorem withReply_cfg (s : State) (r : Reply) : (s.withReply r).cfg = s.cfg := rfl
@[simp] theorem withReply_phase (s : State) (r : Reply) : (s.withReply r).phase = s.phase := rfl
@[simp] theorem withReply_nLeaves (s : State) (r : Reply) : (s.withReply r).nLeaves = s.nLeaves := rfl
@[simp] theorem withReply_nNodes (s : State) (r : Reply) : (s.withReply r).nNodes = s.nNodes := rfl
@[simp] theorem withReply_root (s : State) (r : Reply) : (s.withReply r).root = s.root := rfl
@[simp] theorem withReply_tbReason (s : State) (r : Reply) : (s.withReply r).tbReason = s.tbReason := rfl
@[simp] theorem withReply_nodes (s : State) (r : Reply) : (s.withReply r).nodes = s.nodes := rfl
@[simp] theorem withReply_dict (s : State) (r : Reply) : (s.withReply r).dict = s.dict := rfl
@[simp] theorem withReply_encOpen (s : State) (r : Reply) : (s.withReply r).encOpen = s.encOpen := rfl
@[simp] theorem withReply_encErr (s : State) (r : Reply) : (s.withReply r).encErr = s.encErr := rfl
@[simp] theorem withReply_encErrSym (s : State) (r : Reply) : (s.withReply r).encErrSym = s.encErrSym := rfl
@[simp] theorem withReply_encBuf (s : State) (r : Reply) : (s.withReply r).encBuf = s.encBuf := rfl
@[simp] theorem withReply_decPtr (s : State) (r : Reply) : (s.withReply r).decPtr = s.decPtr := rfl
@[simp] theorem withReply_decDepth (s : State) (r : Reply) : (s.withReply r).decDepth = s.decDepth := rfl
@[simp] theorem withReply_decSym (s : State) (r : Reply) : (s.withReply r).decSym = s.decSym := rfl
@[simp] theorem withReply_decLeaf (s : State) (r : Reply) : (s.withReply r).decLeaf = s.decLeaf := rfl
@[simp] theorem withReply_decValid (s : State) (r : Reply) : (s.withReply r).decValid = s.decValid := rfl
@[simp] theorem withReply_cmds (s : State) (r : Reply) : (s.withReply r).cmds = s.cmds := rfl
@[simp] theorem withReply_replies (s : State) (r : Reply) : (s.withReply r).replies = s.replies ++ [r] := rfl

@[simp] theorem closeMessage_cfg (s : State) : (closeMessage s).cfg = s.cfg := rfl
@[simp] theorem closeMessage_phase (s : State) : (closeMessage s).phase = s.phase := rfl
@[simp] theorem closeMessage_nLeaves (s : State) : (closeMessage s).nLeaves = s.nLeaves := rfl
@[simp] theorem closeMessage_nNodes (s : State) : (closeMessage s).nNodes = s.nNodes := rfl
@[simp] theorem closeMessage_root (s : State) : (closeMessage s).root = s.root := rfl
@[simp] theorem closeMessage_tbReason (s : State) : (closeMessage s).tbReason = s.tbReason := rfl
@[simp] theorem closeMessage_nodes (s : State) : (closeMessage s).nodes = s.nodes := rfl
@[simp] theorem closeMessage_dict (s : State) : (closeMessage s).dict = s.dict := rfl
@[simp] theorem closeMessage_encOpen (s : State) : (closeMessage s).encOpen = false := rfl
@[simp] theorem closeMessage_encErr (s : State) : (closeMessage s).encErr = .none := rfl
@[simp] theorem closeMessage_encErrSym (s : State) : (closeMessage s).encErrSym = 0 := rfl
@[simp] theorem closeMessage_encBuf (s : State) : (closeMessage s).encBuf = [] := rfl
@[simp] theorem closeMessage_decPtr (s : State) : (closeMessage s).decPtr = s.decPtr := rfl
@[simp] theorem closeMessage_decDepth (s : State) : (closeMessage s).decDepth = s.decDepth := rfl
@[simp] theorem closeMessage_decSym (s : State) : (closeMessage s).decSym = s.decSym := rfl
@[simp] theorem closeMessage_decLeaf (s : State) : (closeMessage s).decLeaf = s.decLeaf := rfl
@[simp] theorem closeMessage_decValid (s : State) : (closeMessage s).decValid = s.decValid := rfl
@[simp] theorem closeMessage_cmds (s : State) : (closeMessage s).cmds = s.cmds := rfl
@[simp] theorem closeMessage_replies (s : State) : (closeMessage s).replies = s.replies := rfl

@[simp] theorem voidMessage_cfg (e : MsgErr) (x : Symbol) (s : State) : (voidMessage e x s).cfg = s.cfg := rfl
@[simp] theorem voidMessage_phase (e : MsgErr) (x : Symbol) (s : State) : (voidMessage e x s).phase = s.phase := rfl
@[simp] theorem voidMessage_nLeaves (e : MsgErr) (x : Symbol) (s : State) : (voidMessage e x s).nLeaves = s.nLeaves := rfl
@[simp] theorem voidMessage_nNodes (e : MsgErr) (x : Symbol) (s : State) : (voidMessage e x s).nNodes = s.nNodes := rfl
@[simp] theorem voidMessage_root (e : MsgErr) (x : Symbol) (s : State) : (voidMessage e x s).root = s.root := rfl
@[simp] theorem voidMessage_tbReason (e : MsgErr) (x : Symbol) (s : State) : (voidMessage e x s).tbReason = s.tbReason := rfl
@[simp] theorem voidMessage_nodes (e : MsgErr) (x : Symbol) (s : State) : (voidMessage e x s).nodes = s.nodes := rfl
@[simp] theorem voidMessage_dict (e : MsgErr) (x : Symbol) (s : State) : (voidMessage e x s).dict = s.dict := rfl
@[simp] theorem voidMessage_encOpen (e : MsgErr) (x : Symbol) (s : State) : (voidMessage e x s).encOpen = s.encOpen := rfl
@[simp] theorem voidMessage_encErr (e : MsgErr) (x : Symbol) (s : State) : (voidMessage e x s).encErr = e := rfl
@[simp] theorem voidMessage_encErrSym (e : MsgErr) (x : Symbol) (s : State) : (voidMessage e x s).encErrSym = x := rfl
@[simp] theorem voidMessage_encBuf (e : MsgErr) (x : Symbol) (s : State) : (voidMessage e x s).encBuf = [] := rfl
@[simp] theorem voidMessage_decPtr (e : MsgErr) (x : Symbol) (s : State) : (voidMessage e x s).decPtr = s.decPtr := rfl
@[simp] theorem voidMessage_decDepth (e : MsgErr) (x : Symbol) (s : State) : (voidMessage e x s).decDepth = s.decDepth := rfl
@[simp] theorem voidMessage_decSym (e : MsgErr) (x : Symbol) (s : State) : (voidMessage e x s).decSym = s.decSym := rfl
@[simp] theorem voidMessage_decLeaf (e : MsgErr) (x : Symbol) (s : State) : (voidMessage e x s).decLeaf = s.decLeaf := rfl
@[simp] theorem voidMessage_decValid (e : MsgErr) (x : Symbol) (s : State) : (voidMessage e x s).decValid = s.decValid := rfl
@[simp] theorem voidMessage_cmds (e : MsgErr) (x : Symbol) (s : State) : (voidMessage e x s).cmds = s.cmds := rfl
@[simp] theorem voidMessage_replies (e : MsgErr) (x : Symbol) (s : State) : (voidMessage e x s).replies = s.replies := rfl

@[simp] theorem pointerToRoot_cfg (s : State) : (pointerToRoot s).cfg = s.cfg := rfl
@[simp] theorem pointerToRoot_phase (s : State) : (pointerToRoot s).phase = s.phase := rfl
@[simp] theorem pointerToRoot_nLeaves (s : State) : (pointerToRoot s).nLeaves = s.nLeaves := rfl
@[simp] theorem pointerToRoot_nNodes (s : State) : (pointerToRoot s).nNodes = s.nNodes := rfl
@[simp] theorem pointerToRoot_root (s : State) : (pointerToRoot s).root = s.root := rfl
@[simp] theorem pointerToRoot_tbReason (s : State) : (pointerToRoot s).tbReason = s.tbReason := rfl
@[simp] theorem pointerToRoot_nodes (s : State) : (pointerToRoot s).nodes = s.nodes := rfl
@[simp] theorem pointerToRoot_dict (s : State) : (pointerToRoot s).dict = s.dict := rfl
@[simp] theorem pointerToRoot_encOpen (s : State) : (pointerToRoot s).encOpen = s.encOpen := rfl
@[simp] theorem pointerToRoot_encErr (s : State) : (pointerToRoot s).encErr = s.encErr := rfl
@[simp] theorem pointerToRoot_encErrSym (s : State) : (pointerToRoot s).encErrSym = s.encErrSym := rfl
@[simp] theorem pointerToRoot_encBuf (s : State) : (pointerToRoot s).encBuf = s.encBuf := rfl
@[simp] theorem pointerToRoot_decPtr (s : State) : (pointerToRoot s).decPtr = s.root := rfl
@[simp] theorem pointerToRoot_decDepth (s : State) : (pointerToRoot s).decDepth = 0 := rfl
@[simp] theorem pointerToRoot_decSym (s : State) : (pointerToRoot s).decSym = s.decSym := rfl
@[simp] theorem pointerToRoot_decLeaf (s : State) : (pointerToRoot s).decLeaf = s.decLeaf := rfl
@[simp] theorem pointerToRoot_decValid (s : State) : (pointerToRoot s).decValid = false := rfl
@[simp] theorem pointerToRoot_cmds (s : State) : (pointerToRoot s).cmds = s.cmds := rfl
@[simp] theorem pointerToRoot_replies (s : State) : (pointerToRoot s).replies = s.replies := rfl

@[simp] theorem clearAll_cfg (s : State) : (clearAll s).cfg = s.cfg := rfl
@[simp] theorem clearAll_phase (s : State) : (clearAll s).phase = .load := rfl
@[simp] theorem clearAll_nLeaves (s : State) : (clearAll s).nLeaves = 0 := rfl
@[simp] theorem clearAll_nNodes (s : State) : (clearAll s).nNodes = 0 := rfl
@[simp] theorem clearAll_root (s : State) : (clearAll s).root = 0 := rfl
@[simp] theorem clearAll_tbReason (s : State) : (clearAll s).tbReason = .none := rfl
@[simp] theorem clearAll_nodes (s : State) : (clearAll s).nodes = [] := rfl
@[simp] theorem clearAll_dict (s : State) : (clearAll s).dict = [] := rfl
@[simp] theorem clearAll_encOpen (s : State) : (clearAll s).encOpen = false := rfl
@[simp] theorem clearAll_encErr (s : State) : (clearAll s).encErr = .none := rfl
@[simp] theorem clearAll_encErrSym (s : State) : (clearAll s).encErrSym = 0 := rfl
@[simp] theorem clearAll_encBuf (s : State) : (clearAll s).encBuf = [] := rfl
@[simp] theorem clearAll_decPtr (s : State) : (clearAll s).decPtr = 0 := rfl
@[simp] theorem clearAll_decDepth (s : State) : (clearAll s).decDepth = 0 := rfl
@[simp] theorem clearAll_decSym (s : State) : (clearAll s).decSym = 0 := rfl
@[simp] theorem clearAll_decLeaf (s : State) : (clearAll s).decLeaf = 0 := rfl
@[simp] theorem clearAll_decValid (s : State) : (clearAll s).decValid = false := rfl
@[simp] theorem clearAll_cmds (s : State) : (clearAll s).cmds = s.cmds := rfl
@[simp] theorem clearAll_replies (s : State) : (clearAll s).replies = s.replies := rfl

theorem respond_eq (r : Response) (s : State) : respond r s = .next (s.withReply ⟨r.word, []⟩) := rfl

theorem respondBurst_eq (r : Response) (out : Bits) (s : State) :
    respondBurst r out s = .next (s.withReply ⟨r.word, out⟩) := rfl

theorem raise_eq (e : Error) (s : State) : raise e s = .next (s.withReply ⟨e.response.word, []⟩) := rfl

theorem failTable_eq (r : Reason) (s : State) :
    failTable r s = .next
      (({ s with phase := .failed, tbReason := r } : State).withReply
        ⟨(Error.invalidWeights r).response.word, []⟩) := rfl

/-- A waiting command is the next one accepted, and no more than it leaves the port. -/
theorem acceptCommand_cons (s : State) (w : Word) (rest : List Word) (h : s.cmds = w :: rest) :
    acceptCommand s = some (w, { s with cmds := rest }) := by
  simp [acceptCommand, h]

theorem acceptCommand_nil (s : State) (h : s.cmds = []) : acceptCommand s = none := by
  simp [acceptCommand, h]

/-- CLEAR on a cleared state changes nothing (R84). -/
@[simp] theorem clearAll_clearAll (s : State) : clearAll (clearAll s) = clearAll s := rfl

end Sys2Proof.Machine
end

