-- ==== Sys2Proof/Laws/Store.lean ====
section
/-! SUPPORT. The laws of the record memories: a read after a write, the canonical form, and that equal
readings are equal data. -/

namespace Sys2Proof.Machine

variable {α : Type}

@[simp] theorem Store.read_nil (j : Nat) : Store.read ([] : Store α) j = none := rfl

@[simp] theorem Store.wf_nil : Store.wf ([] : Store α) := List.Pairwise.nil

@[simp] theorem Store.read_write_same (m : Store α) (j : Nat) (x : α) :
    Store.read (Store.write m j x) j = some x := by
  induction m with
  | nil => simp [Store.write, Store.read]
  | cons e m ih =>
    obtain ⟨k, v⟩ := e
    simp only [Store.write]
    split
    · simp [Store.read]
    · split
      · simp [Store.read]
      · rename_i h1 h2
        simp [Store.read, h2, ih]

theorem Store.read_write_other (m : Store α) {i j : Nat} (x : α) (h : i ≠ j) :
    Store.read (Store.write m j x) i = Store.read m i := by
  induction m with
  | nil => simp [Store.write, Store.read, h]
  | cons e m ih =>
    obtain ⟨k, v⟩ := e
    simp only [Store.write]
    split
    · simp [Store.read, h]
    · split
      · rename_i h1 h2
        subst h2
        simp [Store.read, h]
      · simp [Store.read, ih]

theorem Store.read_write (m : Store α) (i j : Nat) (x : α) :
    Store.read (Store.write m j x) i = if i = j then some x else Store.read m i := by
  split
  · subst_vars; simp
  · exact Store.read_write_other m x ‹_›

/-- Where an index is below every listed one, it is not listed. -/
theorem Store.read_below (m : Store α) (j : Nat) (h : ∀ k ∈ m.map Prod.fst, j < k) :
    Store.read m j = none := by
  induction m with
  | nil => rfl
  | cons e m ih =>
    obtain ⟨k, v⟩ := e
    have hk : j < k := h k (by simp)
    have : j ≠ k := by omega
    simp only [Store.read, this, if_false]
    exact ih fun k' hk' => h k' (by simp at hk' ⊢; tauto)

theorem Store.keys_write (m : Store α) (j : Nat) (x : α) (k : Nat) :
    k ∈ (Store.write m j x).map Prod.fst ↔ k = j ∨ k ∈ m.map Prod.fst := by
  induction m with
  | nil => simp [Store.write]
  | cons e m ih =>
    obtain ⟨k', v⟩ := e
    simp only [Store.write]
    split
    · simp
    · split
      · subst_vars; simp
      · rw [List.map_cons, List.mem_cons, ih, List.map_cons, List.mem_cons]
        tauto

/-- Every write keeps the canonical form. -/
theorem Store.wf_write (m : Store α) (j : Nat) (x : α) (h : Store.wf m) :
    Store.wf (Store.write m j x) := by
  induction m with
  | nil => simp [Store.write, Store.wf]
  | cons e m ih =>
    obtain ⟨k, v⟩ := e
    have hm : Store.wf m := (List.pairwise_cons.mp h).2
    have hlt : ∀ k' ∈ m.map Prod.fst, k < k' := (List.pairwise_cons.mp h).1
    simp only [Store.write]
    split
    · rename_i hj
      refine List.pairwise_cons.mpr ⟨fun k' hk' => ?_, h⟩
      rcases List.mem_cons.mp hk' with rfl | hk'
      · exact hj
      · exact hj.trans (hlt k' hk')
    · split
      · subst_vars
        exact h
      · refine List.pairwise_cons.mpr ⟨fun k' hk' => ?_, ih hm⟩
        rcases (Store.keys_write m j x k').mp hk' with rfl | hk'
        · simp only; omega
        · exact hlt k' hk'

theorem Store.read_isSome (m : Store α) (j : Nat) :
    (Store.read m j).isSome = true ↔ j ∈ m.map Prod.fst := by
  induction m with
  | nil => simp
  | cons e m ih =>
    obtain ⟨k, v⟩ := e
    simp only [Store.read, List.map_cons, List.mem_cons]
    split
    · simp_all
    · simp_all

/-- Memories in canonical form that read alike at every index are the same data. -/
theorem Store.ext_of_read (m n : Store α) (hm : Store.wf m) (hn : Store.wf n)
    (h : ∀ j, Store.read m j = Store.read n j) : m = n := by
  induction m generalizing n with
  | nil =>
    cases n with
    | nil => rfl
    | cons e n => simpa [Store.read] using h e.1
  | cons e m ih =>
    cases n with
    | nil => simpa [Store.read] using (h e.1).symm
    | cons f n =>
      obtain ⟨k, v⟩ := e
      obtain ⟨l, w⟩ := f
      have hk := (List.pairwise_cons.mp hm).1
      have hl := (List.pairwise_cons.mp hn).1
      simp only at hk hl
      have hkl : k = l := by
        rcases Nat.lt_trichotomy k l with hlt | heq | hlt
        · have := h k
          rw [Store.read_below ((l, w) :: n) k] at this
          · simp [Store.read] at this
          · intro k' hk'
            rcases List.mem_cons.mp hk' with rfl | hk'
            · exact hlt
            · exact hlt.trans (hl k' hk')
        · exact heq
        · have := h l
          rw [Store.read_below ((k, v) :: m) l] at this
          · simp [Store.read] at this
          · intro k' hk'
            rcases List.mem_cons.mp hk' with rfl | hk'
            · exact hlt
            · exact hlt.trans (hk k' hk')
      subst hkl
      have hv : v = w := by simpa [Store.read] using h k
      subst hv
      congr 1
      refine ih n (List.pairwise_cons.mp hm).2 (List.pairwise_cons.mp hn).2 fun j => ?_
      by_cases hj : j = k
      · subst hj
        rw [Store.read_below m j hk, Store.read_below n j hl]
      · simpa [Store.read, hj] using h j

/-- The bits of a record made from decisions are those decisions. -/
@[simp] theorem dictRecord_bits (c : Config) (path : Bits) : (dictRecord c path).bits = path := by
  simp [dictRecord, DictEntry.bits]

@[simp] theorem dictRecord_len (c : Config) (path : Bits) : (dictRecord c path).len = path.length := rfl

/-- A record fills its CODE_MAX code bits. -/
theorem dictRecord_code_length (c : Config) (path : Bits) (h : path.length ≤ c.codeMax) :
    (dictRecord c path).code.length = c.codeMax := by
  simp [dictRecord]; omega

/-- What a successful read of a node says. -/
theorem readNode_ok (s : State) (i : Nat) (nd : Node) :
    readNode s i = .ok nd ↔ Store.read s.nodes i = some nd := by
  unfold readNode
  cases Store.read s.nodes i <;> simp

theorem readNode_of_read {s : State} {i : Nat} {nd : Node} (h : Store.read s.nodes i = some nd) :
    readNode s i = .ok nd := (readNode_ok s i nd).mpr h

/-- What a write of a node does when it answers: the entry exists, and only the memory changes. -/
theorem writeNode_ok (s t : State) (i : Nat) (nd : Node) :
    writeNode s i nd = .ok t ↔
      i < s.cfg.nodesMax ∧ t = { s with nodes := Store.write s.nodes i nd } := by
  unfold writeNode
  split <;> simp_all [eq_comm]

end Sys2Proof.Machine
end

