-- ==== Sys2Proof/Laws/Word.lean ====
section
/-! SUPPORT. The fields of a command word and of a response word, read back from the word. -/

namespace Sys2Proof

@[simp] theorem cmdOp_mkCmd (op : BitVec 4) (sym : BitVec 16) (imm : BitVec 32) :
    cmdOp (mkCmd op sym imm) = op := by
  unfold cmdOp mkCmd
  ext i hi
  simp
  grind

@[simp] theorem cmdRsvd0_mkCmd (op : BitVec 4) (sym : BitVec 16) (imm : BitVec 32) :
    cmdRsvd0 (mkCmd op sym imm) = 0#12 := by
  unfold cmdRsvd0 mkCmd
  ext i hi
  simp
  grind

@[simp] theorem cmdSym_mkCmd (op : BitVec 4) (sym : BitVec 16) (imm : BitVec 32) :
    cmdSym (mkCmd op sym imm) = sym := by
  unfold cmdSym mkCmd
  ext i hi
  simp
  grind

@[simp] theorem cmdImm_mkCmd (op : BitVec 4) (sym : BitVec 16) (imm : BitVec 32) :
    cmdImm (mkCmd op sym imm) = imm := by
  unfold cmdImm mkCmd
  ext i hi
  simp
  grind

/-- A word is its four fields (R43). -/
theorem word_eq_fields (w : Word) : w = cmdOp w ++ cmdRsvd0 w ++ cmdSym w ++ cmdImm w := by
  unfold cmdOp cmdRsvd0 cmdSym cmdImm
  apply BitVec.eq_of_getLsbD_eq
  intro i hi
  simp
  grind

theorem word_eq_mkCmd (w : Word) (h : cmdRsvd0 w = 0) : w = mkCmd (cmdOp w) (cmdSym w) (cmdImm w) := by
  conv_lhs => rw [word_eq_fields w, h]
  rfl

/-- A value fits in its low `k` bits exactly when no bit from `k` up is set. -/
theorem fitsIn_iff {n : Nat} (k : Nat) (v : BitVec n) :
    fitsIn k v = true ↔ ∀ b, k ≤ b → v.getLsbD b = false := by
  simp only [fitsIn, decide_eq_true_eq]
  constructor
  · intro h b hb
    rw [BitVec.getLsbD, Nat.testBit_lt_two_pow (h.trans_le (Nat.pow_le_pow_right (by omega) hb))]
  · intro h
    exact Nat.lt_pow_two_of_testBit _ fun b hb => h b hb

@[simp] theorem StatusReg.ofNumber_number (r : StatusReg) : StatusReg.ofNumber r.number = some r := by
  cases r <;> rfl

theorem StatusReg.number_lt (r : StatusReg) : r.number < 12 := by cases r <;> decide

theorem StatusReg.ofNumber_some {n : Nat} {r : StatusReg} (h : StatusReg.ofNumber n = some r) :
    n = r.number := by
  unfold StatusReg.ofNumber at h
  split at h <;> cases h <;> rfl

theorem StatusReg.ofNumber_none {n : Nat} : StatusReg.ofNumber n = none ↔ 12 ≤ n := by
  unfold StatusReg.ofNumber
  split <;> simp_all
  grind

namespace Machine

theorem word_eq_rspWord (r : Response) :
    r.word = rspWord r.status.code r.flags.code (r.reason.code.setWidth 8) r.sym r.data := rfl

@[simp] theorem rspStatus_rspWord (st fl : BitVec 4) (re : BitVec 8) (sy : Symbol) (da : BitVec 32) :
    rspStatus (rspWord st fl re sy da) = st := by
  unfold rspStatus rspWord
  ext i hi
  simp
  grind

@[simp] theorem rspFlags_rspWord (st fl : BitVec 4) (re : BitVec 8) (sy : Symbol) (da : BitVec 32) :
    rspFlags (rspWord st fl re sy da) = fl := by
  unfold rspFlags rspWord
  ext i hi
  simp
  grind

@[simp] theorem rspReason_rspWord (st fl : BitVec 4) (re : BitVec 8) (sy : Symbol) (da : BitVec 32) :
    rspReason (rspWord st fl re sy da) = re := by
  unfold rspReason rspWord
  ext i hi
  simp
  grind

@[simp] theorem rspSym_rspWord (st fl : BitVec 4) (re : BitVec 8) (sy : Symbol) (da : BitVec 32) :
    rspSym (rspWord st fl re sy da) = sy := by
  unfold rspSym rspWord
  ext i hi
  simp
  grind

@[simp] theorem rspData_rspWord (st fl : BitVec 4) (re : BitVec 8) (sy : Symbol) (da : BitVec 32) :
    rspData (rspWord st fl re sy da) = da := by
  unfold rspData rspWord
  ext i hi
  simp
  grind

theorem rspEmit_rspWord (st fl : BitVec 4) (re : BitVec 8) (sy : Symbol) (da : BitVec 32) :
    rspEmit (rspWord st fl re sy da) = fl.getLsbD 0 := by
  unfold rspEmit rspWord
  simp only [BitVec.getLsbD_append]
  norm_num

theorem rspPartial_rspWord (st fl : BitVec 4) (re : BitVec 8) (sy : Symbol) (da : BitVec 32) :
    rspPartial (rspWord st fl re sy da) = fl.getLsbD 1 := by
  unfold rspPartial rspWord
  simp only [BitVec.getLsbD_append]
  norm_num

@[simp] theorem rspStatus_word (r : Response) : rspStatus r.word = r.status.code := by
  rw [word_eq_rspWord, rspStatus_rspWord]

@[simp] theorem rspFlags_word (r : Response) : rspFlags r.word = r.flags.code := by
  rw [word_eq_rspWord, rspFlags_rspWord]

@[simp] theorem rspReason_word (r : Response) : rspReason r.word = r.reason.code.setWidth 8 := by
  rw [word_eq_rspWord, rspReason_rspWord]

@[simp] theorem rspSym_word (r : Response) : rspSym r.word = r.sym := by
  rw [word_eq_rspWord, rspSym_rspWord]

@[simp] theorem rspData_word (r : Response) : rspData r.word = r.data := by
  rw [word_eq_rspWord, rspData_rspWord]

@[simp] theorem rspEmit_word (r : Response) : rspEmit r.word = r.flags.emit := by
  rw [word_eq_rspWord, rspEmit_rspWord]
  have h : ∀ f : RspFlags, f.code.getLsbD 0 = f.emit := by rintro ⟨⟨⟩, ⟨⟩⟩ <;> decide
  exact h r.flags

@[simp] theorem rspPartial_word (r : Response) : rspPartial r.word = r.flags.dropped := by
  rw [word_eq_rspWord, rspPartial_rspWord]
  have h : ∀ f : RspFlags, f.code.getLsbD 1 = f.dropped := by rintro ⟨⟨⟩, ⟨⟩⟩ <;> decide
  exact h r.flags

/-- Different statuses have different codes (R45). -/
theorem Status.code_inj {a b : Status} : a.code = b.code ↔ a = b := by
  cases a <;> cases b <;> decide

end Machine

end Sys2Proof
end

