-- ==== Sys2Proof/Laws/Answers.lean ====
section
/-! SUPPORT. What the shared operations answer, in the terms the statements use: each response word by
its five fields, each error's reply, the two reads of DECBIT, the duplicate scan of LOADW. -/

namespace Sys2Proof.Machine

/-! ### Response words -/

theorem Status.code_ok : Status.ok.code = 0#4 := rfl
theorem Status.code_noSuchKey : Status.noSuchKey.code = 1#4 := rfl
theorem Status.code_invalidWeights : Status.invalidWeights.code = 2#4 := rfl
theorem Status.code_seq : Status.seq.code = 3#4 := rfl
theorem Status.code_illegal : Status.illegal.code = 4#4 := rfl
theorem Status.code_overflow : Status.overflow.code = 5#4 := rfl

theorem code_noFlags : RspFlags.code {} = 0#4 := by decide
theorem code_emitted : RspFlags.code RspFlags.emitted = 1#4 := by decide
theorem code_dropped : RspFlags.code { dropped := true } = 2#4 := by decide

/-- A response without flags and reason. -/
theorem word_plain (st : Status) (x : Symbol) (d : BitVec 32) :
    Response.word { status := st, sym := x, data := d } = rspWord st.code 0 0 x d := by
  rw [word_eq_rspWord]
  exact congrArg (fun f => rspWord st.code f 0 x d) code_noFlags

/-- The response of a DECBIT that emitted (R75). -/
theorem word_emit (x : Symbol) (d : BitVec 32) :
    Response.word { flags := RspFlags.emitted, sym := x, data := d } = rspWord 0 1 0 x d := by
  rw [word_eq_rspWord]
  exact congrArg (fun f => rspWord 0 f 0 x d) code_emitted

/-- The response of a DECEND (R76). -/
theorem word_droppedBits (n : Nat) (d : BitVec 32) :
    Response.word { flags := RspFlags.droppedBits n, data := d } =
      rspWord 0 (if n = 0 then 0 else 2) 0 0 d := by
  rw [word_eq_rspWord]
  by_cases h : n = 0
  · subst h
    exact congrArg (fun f => rspWord 0 f 0 0 d) code_noFlags
  · have : (n != 0) = true := by simpa using h
    simp only [RspFlags.droppedBits, this, h, if_false]
    exact congrArg (fun f => rspWord 0 f 0 0 d) code_dropped

/-- The response of INVALID_WEIGHTS (R97). -/
theorem word_weights (r : Reason) :
    Response.word (Error.invalidWeights r).response = rspWord 2 0 (r.code.setWidth 8) 0 0 := by
  rw [word_eq_rspWord]
  exact congrArg (fun f => rspWord 2 f (r.code.setWidth 8) 0 0) code_noFlags

theorem rspWord_zero : rspWord 0 0 0 0 0 = 0#64 := by decide

/-! ### Replies -/

theorem withReply_eq (s : State) (r : Reply) : s.withReply r = s.replied r.word r.burst := rfl

@[simp] theorem replied_replies (s : State) (w : Word) (b : Bits) :
    (s.replied w b).replies = s.replies ++ [⟨w, b⟩] := rfl

/-- An answer with no flags, no reason and no burst. -/
theorem respond_plain (st : Status) (x : Symbol) (d : BitVec 32) (s : State) :
    respond { status := st, sym := x, data := d } s = .next (s.replied (rspWord st.code 0 0 x d) []) := by
  rw [respond_eq, word_plain]
  rfl

/-- The all-zero answer. -/
theorem respond_zero (s : State) : respond {} s = .next (s.replied 0#64 []) := by
  rw [respond_plain]
  rfl

theorem raise_seq (s : State) : raise .seq s = .next (s.replied (rspWord 3 0 0 0 0) []) :=
  respond_plain .seq 0 0 s

theorem raise_illegal (s : State) : raise .illegal s = .next (s.replied (rspWord 4 0 0 0 0) []) :=
  respond_plain .illegal 0 0 s

theorem raise_noSuchKey (x : Symbol) (s : State) :
    raise (.noSuchKey x) s = .next (s.replied (rspWord 1 0 0 x 0) []) :=
  respond_plain .noSuchKey x 0 s

theorem raise_overflow (x : Symbol) (s : State) :
    raise (.overflow x) s = .next (s.replied (rspWord 5 0 0 x 0) []) :=
  respond_plain .overflow x 0 s

theorem raise_weights (r : Reason) (s : State) :
    raise (.invalidWeights r) s = .next (s.replied (rspWord 2 0 (r.code.setWidth 8) 0 0) []) := by
  rw [raise_eq, word_weights]
  rfl

/-- A table fails (R97): phase and reason change, and nothing else but the reply. -/
theorem failTable_answers (r : Reason) (s : State) :
    failTable r s = .next (({ s with phase := .failed, tbReason := r } : State).replied
      (rspWord 2 0 (r.code.setWidth 8) 0 0) []) := raise_weights r _

theorem respond_stored (e : MsgErr) (x : Symbol) (s : State) :
    respond (storedError e x) s = .next (s.replied (rspWord e.code 0 0 x 0) []) :=
  respond_plain e.status x 0 s

/-! ### DECBIT's two reads -/

theorem moveTarget_leaf {s : State} {n : Node} (h : Store.read s.nodes s.decPtr = some n)
    (hk : n.kind = .leaf) (bit : Bool) : moveTarget s bit = .ok s.decPtr := by
  simp [moveTarget, readNode_of_read h, hk]

theorem moveTarget_internal {s : State} {n : Node} (h : Store.read s.nodes s.decPtr = some n)
    (hk : n.kind = .internal) (bit : Bool) : moveTarget s bit = .ok (n.child bit) := by
  simp [moveTarget, readNode_of_read h, hk]

/-- The emit and the return to the root (R75). -/
theorem arriveAt_leaf {s : State} {q : Nat} {m : Node} (h : Store.read s.nodes q = some m)
    (hk : m.kind = .leaf) :
    arriveAt q s = .next (({ s with decSym := m.sym, decLeaf := q, decValid := true, decPtr := s.root
                                    decDepth := 0 } : State).replied
      (rspWord 0 1 0 m.sym (BitVec.ofNat 32 q)) []) := by
  simp only [arriveAt, readNode_of_read h, hk]
  rw [respond_eq, word_emit]
  rfl

/-- One level down (R75). -/
theorem arriveAt_internal {s : State} {q : Nat} {m : Node} (h : Store.read s.nodes q = some m)
    (hk : m.kind = .internal) :
    arriveAt q s = .next (({ s with decPtr := q, decDepth := s.decDepth + 1, decValid := false }
        : State).replied (rspWord 0 0 0 0 (BitVec.ofNat 32 q)) []) := by
  simp only [arriveAt, readNode_of_read h, hk]
  rw [respond_plain]
  rfl

/-! ### LOADW's scan -/

/-- The scan over leaves that hold values finds the symbol exactly when one of them has it (R55). -/
theorem symbolLoaded_answers {s : State} {n : Nat}
    (hr : ∀ k, k < n → ∃ nd, Store.read s.nodes k = some nd) (x : Symbol) :
    ∃ b, symbolLoaded s x n = .ok b ∧
      (b = true ↔ ∃ k nd, k < n ∧ Store.read s.nodes k = some nd ∧ nd.sym = x) := by
  induction n with
  | zero => exact ⟨false, rfl, by simp⟩
  | succ n ih =>
    obtain ⟨b, hb, hiff⟩ := ih fun k hk => hr k (by omega)
    obtain ⟨nd, hnd⟩ := hr n (by omega)
    rw [symbolLoaded, readNode_of_read hnd]
    by_cases hx : nd.sym = x
    · exact ⟨true, by simp [hx], by simp only [true_iff]; exact ⟨n, nd, by omega, hnd, hx⟩⟩
    · refine ⟨b, by simp [hx, hb], hiff.trans ⟨?_, ?_⟩⟩
      · rintro ⟨k, nd', hk, h⟩
        exact ⟨k, nd', by omega, h⟩
      · rintro ⟨k, nd', hk, h, hs⟩
        by_cases hkn : k = n
        · subst hkn
          rw [hnd] at h
          cases h
          exact absurd hs hx
        · exact ⟨k, nd', by omega, h, hs⟩

/-- The successful end of LOADW when the entry exists (R55). -/
theorem appendLeaf_answers {s : State} (h : s.nLeaves < s.cfg.nodesMax) (x : Symbol) (f : BitVec 32) :
    appendLeaf x f s = .next (({ s with
        nodes := Store.write s.nodes s.nLeaves (leafRecord x f)
        nLeaves := s.nLeaves + 1, nNodes := s.nLeaves + 1 } : State).replied
      (rspWord 0 0 0 x (BitVec.ofNat 32 s.nLeaves)) []) := by
  have hw : writeNode s s.nLeaves (leafRecord x f) =
      .ok { s with nodes := Store.write s.nodes s.nLeaves (leafRecord x f) } :=
    (writeNode_ok _ _ _ _).mpr ⟨h, rfl⟩
  simp only [appendLeaf, hw]
  rw [respond_plain]
  rfl

/-! ### The meanings by phase (R86)

Each lemma names the operation a command comes to in one phase, or the state it leaves. -/

theorem not_ready {s : State} (h : s.phase ≠ .ready) : s.phase = .load ∨ s.phase = .failed := by
  cases hp : s.phase
  · exact .inl rfl
  · exact absurd hp h
  · exact .inr rfl

theorem exec_seq_outside_ready {s : State} (h : s.phase ≠ .ready) {i : Instr}
    (hi : i = .encbeg ∨ (∃ x, i = .enc x) ∨ i = .encend ∨ i = .decbeg ∨ (∃ b, i = .decbit b) ∨
      i = .decend) : exec i s = raise .seq s := by
  rcases hi with rfl | ⟨x, rfl⟩ | rfl | rfl | ⟨b, rfl⟩ | rfl <;> rcases not_ready h with h | h <;>
    simp only [exec, execEncbeg, execEnc, execEncend, execDecbeg, execDecbit, execDecend, h]

/-- A message, open and without an error, with the bits `out` so far. -/
def openMessage (s : State) (out : Bits) : State :=
  { s with encOpen := true, encErr := .none, encErrSym := 0, encBuf := out }

theorem execEncbeg_ready {s : State} (h : s.phase = .ready) :
    execEncbeg s = .next ((openMessage s []).replied 0#64 []) := by
  unfold execEncbeg
  rw [h]
  exact respond_zero _

theorem execEnc_open {s : State} (h : s.phase = .ready) (ho : s.encOpen = true)
    (he : s.encErr = .none) (x : Symbol) : execEnc x s = appendCode x s := by
  simp only [execEnc, h, ho, he, if_true]

theorem execEnc_closed {s : State} (h : s.phase = .ready) (ho : s.encOpen = false) (x : Symbol) :
    execEnc x s = raise .seq s := by
  simp [execEnc, h, ho]

theorem execEnc_error {s : State} (h : s.phase = .ready) (ho : s.encOpen = true)
    (he : s.encErr ≠ .none) (x : Symbol) :
    execEnc x s = .next (s.replied (rspWord s.encErr.code 0 0 s.encErrSym 0) []) := by
  rw [← respond_stored]
  simp only [execEnc, h, ho, if_true]

theorem execEncend_closed {s : State} (h : s.phase = .ready) (ho : s.encOpen = false) :
    execEncend s = raise .seq s := by
  simp [execEncend, h, ho]

theorem execEncend_open {s : State} (h : s.phase = .ready) (ho : s.encOpen = true)
    (he : s.encErr = .none) :
    execEncend s =
      .next ((closeMessage s).replied (rspWord 0 0 0 0 (BitVec.ofNat 32 s.encBuf.length)) s.encBuf) := by
  simp only [execEncend, h, ho, he, if_true]
  rw [respondBurst_eq, word_plain]
  rfl

theorem execEncend_error {s : State} (h : s.phase = .ready) (ho : s.encOpen = true)
    (he : s.encErr ≠ .none) :
    execEncend s = .next ((closeMessage s).replied (rspWord s.encErr.code 0 0 s.encErrSym 0) []) := by
  rw [← respond_stored]
  simp only [execEncend, h, ho, if_true]

theorem execDecbeg_ready {s : State} (h : s.phase = .ready) :
    execDecbeg s = .next ((pointerToRoot s).replied 0#64 []) := by
  unfold execDecbeg
  rw [h]
  exact respond_zero _

theorem execDecbit_ready {s : State} (h : s.phase = .ready) {bit : Bool} {q : Nat}
    (hq : moveTarget s bit = .ok q) : execDecbit bit s = arriveAt q s := by
  simp only [execDecbit, h, hq]

theorem execDecend_ready {s : State} (h : s.phase = .ready) :
    execDecend s = .next ((pointerToRoot s).replied
      (rspWord 0 (if s.decDepth = 0 then 0 else 2) 0 0 (BitVec.ofNat 32 s.decDepth)) []) := by
  simp only [execDecend, h]
  rw [respond_eq, word_droppedBits]
  rfl

theorem execLoadw_ready {s : State} (h : s.phase = .ready) (x : Symbol) (f : BitVec 32) :
    execLoadw x f s = raise .seq s := by
  simp only [execLoadw, h]

theorem execLoadw_failed {s : State} (h : s.phase = .failed) (x : Symbol) (f : BitVec 32) :
    execLoadw x f s = raise (.invalidWeights s.tbReason) s := by
  simp only [execLoadw, h]

theorem execLoadw_full {s : State} (h : s.phase = .load) (hn : s.nLeaves = s.cfg.nMax) (x : Symbol)
    (f : BitVec 32) : execLoadw x f s = failTable .capacity s := by
  simp only [execLoadw, h, hn, if_true]

theorem execLoadw_scanned {s : State} (h : s.phase = .load) (hn : s.nLeaves ≠ s.cfg.nMax) {x : Symbol}
    {b : Bool} (hb : symbolLoaded s x s.nLeaves = .ok b) (f : BitVec 32) :
    execLoadw x f s = if b then failTable .duplicate s else appendLeaf x f s := by
  simp only [execLoadw, h, hn, if_false, hb]
  cases b <;> rfl

theorem execBuild_ready {s : State} (h : s.phase = .ready) : execBuild s = raise .seq s := by
  simp only [execBuild, h]

theorem execBuild_failed {s : State} (h : s.phase = .failed) :
    execBuild s = raise (.invalidWeights s.tbReason) s := by
  simp only [execBuild, h]

theorem execBuild_load {s : State} (h : s.phase = .load) :
    execBuild s = if s.nLeaves = 0 then failTable .empty s else buildTree s := by
  simp only [execBuild, h]

end Sys2Proof.Machine
end

