-- ==== Sys2Proof/Laws/Assembler.lean ====
section
/-! SUPPORT. The lines of text (`30_encoding.md` R52, R53): a numeral's text is a word of the line and
stands for its number; what a line that begins with a word cuts into; what each operand form reads. -/

namespace Sys2Proof.Machine

/-! ### Numerals -/

theorem mem_toDigits {b n : Nat} {ch : Char} (hb : 1 < b) (h : ch ∈ Nat.toDigits b n) :
    ∃ k < b, ch = Nat.digitChar k := by
  induction n using Nat.strongRecOn with
  | _ n ih =>
    by_cases hn : n < b
    · rw [Nat.toDigits_of_lt_base hn] at h
      exact ⟨n, hn, by simpa using h⟩
    · rw [Nat.toDigits_of_base_le hb (by omega)] at h
      rcases List.mem_append.mp h with h | h
      · exact ih (n / b) (Nat.div_lt_self (by omega) hb) h
      · exact ⟨n % b, Nat.mod_lt _ (by omega), by simpa using h⟩

theorem isNameChar_digitChar {k : Nat} (h : k < 16) : isNameChar (Nat.digitChar k) = true := by
  interval_cases k <;> decide

theorem digitValue_digitChar {b k : Nat} (h : k < b) (hb : b ≤ 16) :
    digitValue b (Nat.digitChar k) = some k := by
  have : k < 16 := by omega
  interval_cases k <;> simp [digitValue, Nat.digitChar] <;> omega

theorem digits_append (b : Nat) (as bs : List Char) (acc : Nat) :
    digits b (as ++ bs) acc = (digits b as acc).bind (digits b bs) := by
  induction as generalizing acc with
  | nil => rfl
  | cons a as ih =>
    simp only [List.cons_append, digits]
    cases digitValue b a <;> simp [ih]

theorem digits_toDigits {b : Nat} (hb : 1 < b) (hb' : b ≤ 16) (n : Nat) :
    digits b (Nat.toDigits b n) 0 = some n := by
  induction n using Nat.strongRecOn with
  | _ n ih =>
    by_cases hn : n < b
    · rw [Nat.toDigits_of_lt_base hn]
      simp [digits, digitValue_digitChar hn hb']
    · rw [Nat.toDigits_of_base_le hb (by omega), digits_append,
        ih (n / b) (Nat.div_lt_self (by omega) hb)]
      simp [digits, digitValue_digitChar (Nat.mod_lt n (by omega : b > 0)) hb', Nat.div_add_mod']

theorem number_decimal (n : Nat) : number (Nat.toDigits 10 n) = some n := by
  rw [← digits_toDigits (b := 10) (by omega) (by omega) n]
  have hx : ∀ ch ∈ Nat.toDigits 10 n, ch ≠ 'x' := by
    intro ch h
    obtain ⟨k, hk, rfl⟩ := mem_toDigits (by omega) h
    interval_cases k <;> decide
  have hne := @Nat.toDigits_ne_nil n 10
  generalize Nat.toDigits 10 n = cs at *
  unfold number
  split
  · exact absurd rfl hne
  · exact absurd rfl (hx 'x' (by simp))
  · rfl

theorem number_hexadecimal (n : Nat) : number ('0' :: 'x' :: Nat.toDigits 16 n) = some n := by
  rw [← digits_toDigits (b := 16) (by omega) (by omega) n]
  have hne := @Nat.toDigits_ne_nil n 16
  generalize Nat.toDigits 16 n = cs at *
  cases cs with
  | nil => exact absurd rfl hne
  | cons c cs => simp [number]

/-- A numeral's text stands for its number and is one word of a line. -/
theorem numeralTexts_word {n : Nat} {cs : List Char} (h : cs ∈ numeralTexts n) :
    number cs = some n ∧ (∀ ch ∈ cs, isNameChar ch = true) ∧ cs ≠ [] := by
  simp only [numeralTexts, List.mem_cons, List.not_mem_nil, or_false] at h
  rcases h with rfl | rfl
  · refine ⟨number_decimal n, fun ch h => ?_, Nat.toDigits_ne_nil⟩
    obtain ⟨k, hk, rfl⟩ := mem_toDigits (by omega) h
    exact isNameChar_digitChar (by omega)
  · refine ⟨number_hexadecimal n, fun ch h => ?_, by simp⟩
    simp only [List.mem_cons] at h
    rcases h with rfl | rfl | h
    · decide
    · decide
    · obtain ⟨k, hk, rfl⟩ := mem_toDigits (by omega) h
      exact isNameChar_digitChar (by omega)

theorem decimal_mem_numeralTexts (n : Nat) : Nat.toDigits 10 n ∈ numeralTexts n := by
  simp [numeralTexts]

/-! ### Cutting a line -/

theorem isNameChar_no_mark {ch : Char} (h : isNameChar ch = true) :
    ch ≠ ';' ∧ ¬ (ch = ' ' ∨ ch = '\t') ∧ ch ≠ ',' ∧ ch ≠ '(' ∧ ch ≠ ')' := by
  refine ⟨?_, ?_, ?_, ?_, ?_⟩
  · rintro rfl; revert h; decide
  · rintro (rfl | rfl) <;> revert h <;> decide
  all_goals rintro rfl; revert h; decide

/-- The letters and digits of a word are gathered. -/
theorem tokenize_gather (cs rest : List Char) (h : ∀ ch ∈ cs, isNameChar ch = true) (acc : List Char) :
    tokenize (cs ++ rest) acc = tokenize rest (cs.reverse ++ acc) := by
  induction cs generalizing acc with
  | nil => rfl
  | cons c cs ih =>
    obtain ⟨h1, h2, h3, h4, h5⟩ := isNameChar_no_mark (h c (by simp))
    simp only [List.cons_append, tokenize, h1, h2, h3, h4, h5, h c (by simp), if_true, if_false]
    rw [ih (fun ch hc => h ch (by simp [hc]))]
    simp

theorem flushWord_reverse {cs : List Char} (h : cs ≠ []) (ts : List Token) :
    flushWord (cs.reverse ++ []) ts = .word cs :: ts := by
  cases cs with
  | nil => exact absurd rfl h
  | cons c cs => simp [flushWord]

theorem tokenize_word {cs : List Char} (hn : ∀ ch ∈ cs, isNameChar ch = true) (h : cs ≠ []) :
    tokenize cs [] = some [.word cs] := by
  have := tokenize_gather cs [] hn []
  rw [List.append_nil] at this
  rw [this, tokenize, flushWord_reverse h]

theorem tokenize_word_blank {cs : List Char} (hn : ∀ ch ∈ cs, isNameChar ch = true) (h : cs ≠ [])
    (rest : List Char) :
    tokenize (cs ++ ' ' :: rest) [] = (tokenize rest []).map (.word cs :: ·) := by
  rw [tokenize_gather cs _ hn, tokenize, funext (flushWord_reverse h)]
  simp

theorem tokenize_word_comma {cs : List Char} (hn : ∀ ch ∈ cs, isNameChar ch = true) (h : cs ≠ [])
    (rest : List Char) :
    tokenize (cs ++ ',' :: rest) [] = (tokenize rest []).map (fun ts => .word cs :: .comma :: ts) := by
  rw [tokenize_gather cs _ hn, tokenize]
  simp only [flushWord_reverse h]
  simp

theorem tokenize_word_rpar {cs : List Char} (hn : ∀ ch ∈ cs, isNameChar ch = true) (h : cs ≠ [])
    (rest : List Char) :
    tokenize (cs ++ ')' :: rest) [] = (tokenize rest []).map (fun ts => .word cs :: .rpar :: ts) := by
  rw [tokenize_gather cs _ hn, tokenize]
  simp only [flushWord_reverse h]
  simp

theorem tokenize_blank (rest : List Char) : tokenize (' ' :: rest) [] = tokenize rest [] := by
  simp only [tokenize, flushWord]
  cases tokenize rest [] <;> rfl

theorem tokenize_comma (rest : List Char) :
    tokenize (',' :: rest) [] = (tokenize rest []).map (.comma :: ·) := by
  simp [tokenize, flushWord]

theorem tokenize_lpar (rest : List Char) :
    tokenize ('(' :: rest) [] = (tokenize rest []).map (.lpar :: ·) := by
  simp [tokenize, flushWord]

/-- A pair as R53 writes it. -/
theorem tokenize_pairText (p : Nat × Nat) (rest : List Char) :
    tokenize (pairText p ++ rest) [] = (tokenize rest []).map (fun ts =>
      .lpar :: .word (Nat.toDigits 10 p.1) :: .comma :: .word (Nat.toDigits 10 p.2) :: .rpar :: ts) := by
  obtain ⟨-, h1, h1'⟩ := numeralTexts_word (decimal_mem_numeralTexts p.1)
  obtain ⟨-, h2, h2'⟩ := numeralTexts_word (decimal_mem_numeralTexts p.2)
  simp only [pairText, List.cons_append, List.append_assoc]
  rw [tokenize_lpar, tokenize_word_comma h1 h1', List.nil_append, tokenize_word_rpar h2 h2']
  cases tokenize rest [] <;> rfl

/-! ### Operands and macros -/

theorem symbolOperand_numeral {c : Config} {cs : List Char} {n : Nat} (h : number cs = some n) :
    symbolOperand c cs = if n < 2 ^ c.symW then some (BitVec.ofNat 16 n) else none := by
  simp [symbolOperand, h]

theorem freqOperand_numeral {c : Config} {cs : List Char} {n : Nat} (h : number cs = some n) :
    freqOperand c cs = if n < 2 ^ c.freqW then some (BitVec.ofNat 32 n) else none := by
  simp [freqOperand, h]

theorem bitOperand_numeral {cs : List Char} {n : Nat} (h : number cs = some n) :
    bitOperand cs = if n < 2 then some (n == 1) else none := by
  simp only [bitOperand, h]
  rcases n with _ | _ | n
  · rfl
  · rfl
  · simp

/-- A line whose first word is no command of R52 is a macro's or none. -/
theorem parseTokens_macro (c : Config) {m : List Char} (ts : List Token) (h1 : plainCommand m = none)
    (h2 : ∀ a, oneOperand c m a = none) (h3 : m ≠ "loadw".toList) :
    parseTokens c (.word m :: ts) = expandMacro c m ts := by
  unfold parseTokens
  split
  · rename_i h; cases h
  · rename_i h; cases h; simp [h1]
  · rename_i h; cases h; simp [h2]
  · rename_i h; cases h; rw [if_neg h3]
  · rename_i h; cases h; rfl
  · rename_i h; exact absurd rfl (h _ _)

/-- A macro's line: its operands are cut and read after the blank. -/
theorem assembleLine_macro (c : Config) {m ops : List Char} {ts : List Token}
    (hm : ∀ ch ∈ m, isNameChar ch = true) (h0 : m ≠ []) (h1 : plainCommand m = none)
    (h2 : ∀ a, oneOperand c m a = none) (h3 : m ≠ "loadw".toList) (ht : tokenize ops [] = some ts) :
    assembleLine c (m ++ ' ' :: ops) = (expandMacro c m ts).map (fun is => is.map encode) := by
  rw [assembleLine, tokenize_word_blank hm h0, ht]
  simp only [Option.map_some, parseTokens_macro c ts h1 h2 h3]

end Sys2Proof.Machine
end

