-- ==== Sys2Proof/Laws/Heap.lean ====
section
/-! SUPPORT. The priority queue: the order on keys (`40_tree_builder.md` R57), and that insertion and
extraction keep the queue's members and the heap's order, with the smallest key on top (R58, R59, R65). -/

namespace Sys2Proof.Machine

/-! ### The order on keys -/

theorem Key.lt_iff (a b : Key) :
    a.lt b = true ↔ a.freq < b.freq ∨ (a.freq = b.freq ∧ a.idx < b.idx) := by
  simp [Key.lt]

theorem Key.not_lt_iff (a b : Key) :
    a.lt b = false ↔ b.freq < a.freq ∨ (b.freq = a.freq ∧ b.idx ≤ a.idx) := by
  rw [← Bool.not_eq_true, Key.lt_iff]
  omega

@[simp] theorem Key.lt_self (a : Key) : a.lt a = false := by
  rw [Key.not_lt_iff]; omega

theorem Key.lt_asymm {a b : Key} (h : a.lt b = true) : b.lt a = false := by
  rw [Key.lt_iff] at h; rw [Key.not_lt_iff]; omega

/-- "not smaller" is transitive. -/
theorem Key.ge_trans {a b c : Key} (h : b.lt a = false) (h' : c.lt b = false) : c.lt a = false := by
  rw [Key.not_lt_iff] at *; omega

theorem Key.eq_of_not_lt {a b : Key} (h : a.lt b = false) (h' : b.lt a = false) : a = b := by
  rw [Key.not_lt_iff] at *
  obtain ⟨f, i⟩ := a
  obtain ⟨g, j⟩ := b
  simp only [Key.mk.injEq]
  simp only at h h'
  omega

/-! ### Members -/

theorem swapAt_length (h : Heap) (p q : Nat) (kp kq : Key) : (swapAt h p q kp kq).length = h.length := by
  simp [swapAt]

theorem swapAt_get {h : Heap} {p q : Nat} {kp kq : Key} (hp : h[p]? = some kp) (hq : h[q]? = some kq)
    (i : Nat) :
    (swapAt h p q kp kq)[i]? = if i = q then some kp else if i = p then some kq else h[i]? := by
  have hpl : p < h.length := (List.getElem?_eq_some_iff.mp hp).1
  have hql : q < h.length := (List.getElem?_eq_some_iff.mp hq).1
  simp only [swapAt, List.getElem?_set, List.length_set, hpl, hql, if_true, eq_comm (b := i)]

theorem swapAt_perm {h : Heap} {p q : Nat} {kp kq : Key} (hp : h[p]? = some kp) (hq : h[q]? = some kq) :
    (swapAt h p q kp kq).Perm h := by
  obtain ⟨hpl, rfl⟩ := List.getElem?_eq_some_iff.mp hp
  obtain ⟨hql, rfl⟩ := List.getElem?_eq_some_iff.mp hq
  exact List.set_set_perm hpl hql

theorem siftUp_perm (fuel : Nat) (h : Heap) (p : Nat) : (siftUp fuel h p).Perm h := by
  induction fuel generalizing h p with
  | zero => exact .refl _
  | succ n ih =>
    unfold siftUp
    split
    · exact .refl _
    · split
      · split
        · rename_i hq hp _
          exact (ih _ _).trans (swapAt_perm hp hq)
        · exact .refl _
      · exact .refl _

theorem siftDown_perm (fuel : Nat) (h : Heap) (p : Nat) : (siftDown fuel h p).Perm h := by
  induction fuel generalizing h p with
  | zero => exact .refl _
  | succ n ih =>
    unfold siftDown
    simp only
    split
    · exact .refl _
    · split
      · rename_i hp hm
        exact (ih _ _).trans (swapAt_perm hp hm)
      · exact .refl _

/-- Insertion adds the key to the members (R65). -/
theorem heapInsert_perm (h : Heap) (k : Key) : (heapInsert h k).Perm (k :: h) :=
  (siftUp_perm _ _ _).trans (List.perm_append_singleton k h)

@[simp] theorem heapInsert_length (h : Heap) (k : Key) : (heapInsert h k).length = h.length + 1 := by
  simpa using (heapInsert_perm h k).length_eq

/-- Extraction takes the top away from the members (R65). -/
theorem heapExtractMin_perm {h g : Heap} {k : Key} (e : heapExtractMin h = some (k, g)) :
    h.Perm (k :: g) := by
  unfold heapExtractMin at e
  split at e
  · cases e
  · rename_i r rest
    split at e
    · rename_i hl
      cases e
      rw [List.getLast?_eq_none_iff.mp hl]
    · rename_i last hl
      cases e
      refine List.Perm.cons _ (.symm ((siftDown_perm _ _ _).trans ?_))
      have : rest.dropLast ++ [last] = rest := by
        obtain ⟨ys, rfl⟩ := List.getLast?_eq_some_iff.mp hl
        simp
      have hperm := List.perm_append_singleton last rest.dropLast
      rw [this] at hperm
      exact hperm.symm

theorem heapExtractMin_length {h g : Heap} {k : Key} (e : heapExtractMin h = some (k, g)) :
    h.length = g.length + 1 := by
  simpa using (heapExtractMin_perm e).length_eq

/-- Only an empty queue has nothing to extract (R59). -/
theorem heapExtractMin_none {h : Heap} : heapExtractMin h = none ↔ h = [] := by
  unfold heapExtractMin
  split
  · simp
  · split <;> simp

/-! ### Order -/

/-- The heap is in order but for the entry at `p` and its parent, and the entries below `p` are not
smaller than that parent: what the climb keeps. -/
def OrderedAbove (h : Heap) (p : Nat) : Prop :=
  (∀ a c ka kc, (c = 2 * a + 1 ∨ c = 2 * a + 2) → h[a]? = some ka → h[c]? = some kc → c ≠ p →
    kc.lt ka = false) ∧
  (∀ c kc kg, (c = 2 * p + 1 ∨ c = 2 * p + 2) → 0 < p → h[(p - 1) / 2]? = some kg →
    h[c]? = some kc → kc.lt kg = false)

theorem siftUp_ordered (fuel : Nat) (h : Heap) (p : Nat) (hf : p ≤ fuel) (ho : OrderedAbove h p) :
    HeapOrdered (siftUp fuel h p) := by
  induction fuel generalizing h p with
  | zero =>
    intro a c ka kc hc hka hkc
    exact ho.1 a c ka kc hc hka hkc (by omega)
  | succ n ih =>
    unfold siftUp
    split
    · intro a c ka kc hc hka hkc
      exact ho.1 a c ka kc hc hka hkc (by omega)
    · rename_i hp0
      split
      · rename_i kq kp hq hp
        split
        · rename_i hlt
          refine ih _ _ (by omega) ⟨?_, ?_⟩
          · intro a c ka kc hc hka hkc hcq
            rw [swapAt_get hp hq] at hka hkc
            by_cases hcp : c = p
            · have ha : a = (p - 1) / 2 := by omega
              subst hcp ha
              simp only [if_true, Option.some.injEq] at hka
              simp only [hcq, if_false, if_true, Option.some.injEq] at hkc
              subst hka hkc
              exact Key.lt_asymm hlt
            · simp only [hcq, hcp, if_false] at hkc
              by_cases haq : a = (p - 1) / 2
              · simp only [haq, if_true, Option.some.injEq] at hka
                subst hka
                exact Key.ge_trans (Key.lt_asymm hlt)
                  (ho.1 _ c kq kc (haq ▸ hc) hq hkc hcp)
              · by_cases hap : a = p
                · subst hap
                  simp only [haq, if_false, if_true, Option.some.injEq] at hka
                  subst hka
                  exact ho.2 c kc kq hc (by omega) hq hkc
                · simp only [haq, hap, if_false] at hka
                  exact ho.1 a c ka kc hc hka hkc hcp
          · intro c kc kg hc hq0 hg hkc
            rw [swapAt_get hp hq] at hg hkc
            have hg1 : ((p - 1) / 2 - 1) / 2 ≠ (p - 1) / 2 := by omega
            have hg2 : ((p - 1) / 2 - 1) / 2 ≠ p := by omega
            simp only [hg1, hg2, if_false] at hg
            have hqg : kq.lt kg = false :=
              ho.1 _ ((p - 1) / 2) kg kq (by omega) hg hq (by omega)
            by_cases hcp : c = p
            · subst hcp
              have : c ≠ (c - 1) / 2 := by omega
              simp only [this, if_false, if_true, Option.some.injEq] at hkc
              exact hkc ▸ hqg
            · have : c ≠ (p - 1) / 2 := by omega
              simp only [this, hcp, if_false] at hkc
              exact Key.ge_trans hqg (ho.1 _ c kq kc hc hq hkc hcp)
        · rename_i hlt
          intro a c ka kc hc hka hkc
          by_cases hcp : c = p
          · have ha : a = (p - 1) / 2 := by omega
            subst hcp ha
            rw [hq] at hka
            rw [hp] at hkc
            cases hka
            cases hkc
            simpa using hlt
          · exact ho.1 a c ka kc hc hka hkc hcp
      · rename_i hno
        intro a c ka kc hc hka hkc
        by_cases hcp : c = p
        · have ha : a = (p - 1) / 2 := by omega
          subst hcp ha
          exact absurd hkc (hno ka kc hka)
        · exact ho.1 a c ka kc hc hka hkc hcp

/-- Insertion keeps the heap's order (R58). -/
theorem heapInsert_ordered (h : Heap) (k : Key) (ho : HeapOrdered h) : HeapOrdered (heapInsert h k) := by
  refine siftUp_ordered _ _ _ (le_refl _) ⟨?_, ?_⟩
  · intro a c ka kc hc hka hkc hne
    have hcl : c < h.length := by
      have := (List.getElem?_eq_some_iff.mp hkc).1
      simp at this
      omega
    rw [List.getElem?_append_left hcl] at hkc
    rw [List.getElem?_append_left (by omega)] at hka
    exact ho a c ka kc hc hka hkc
  · intro c kc kg hc _ _ hkc
    have := (List.getElem?_eq_some_iff.mp hkc).1
    simp at this
    omega

/-- The heap is in order but for the entry at `p` and its children, which are not smaller than the
parent of `p`: what the descent keeps. -/
def OrderedBelow (h : Heap) (p : Nat) : Prop :=
  (∀ a c ka kc, (c = 2 * a + 1 ∨ c = 2 * a + 2) → h[a]? = some ka → h[c]? = some kc → a ≠ p →
    kc.lt ka = false) ∧
  (∀ c kc kg, (c = 2 * p + 1 ∨ c = 2 * p + 2) → 0 < p → h[(p - 1) / 2]? = some kg →
    h[c]? = some kc → kc.lt kg = false)

theorem smallerOf_cases (h : Heap) (m c : Nat) :
    (smallerOf h m c = c ∧ ∃ kc km, h[c]? = some kc ∧ h[m]? = some km ∧ kc.lt km = true) ∨
    (smallerOf h m c = m ∧ ∀ kc km, h[c]? = some kc → h[m]? = some km → kc.lt km = false) := by
  unfold smallerOf
  split
  · rename_i kc km hc hm
    split
    · rename_i hlt
      exact .inl ⟨rfl, kc, km, hc, hm, hlt⟩
    · rename_i hlt
      refine .inr ⟨rfl, fun kc' km' hc' hm' => ?_⟩
      rw [hc] at hc'
      rw [hm] at hm'
      cases hc'
      cases hm'
      simpa using hlt
  · rename_i hno
    exact .inr ⟨rfl, fun kc km hc hm => absurd hm (hno kc km hc)⟩

/-- What the choice between an entry and its two children gives (R59). -/
theorem smallest_of_three {h : Heap} {p : Nat} {kp : Key} (hp : h[p]? = some kp) :
    ∃ km, h[smallerOf h (smallerOf h p (2 * p + 1)) (2 * p + 2)]? = some km ∧
      kp.lt km = false ∧
      (smallerOf h (smallerOf h p (2 * p + 1)) (2 * p + 2) = p ∨
       smallerOf h (smallerOf h p (2 * p + 1)) (2 * p + 2) = 2 * p + 1 ∨
       smallerOf h (smallerOf h p (2 * p + 1)) (2 * p + 2) = 2 * p + 2) ∧
      ∀ c kc, (c = 2 * p + 1 ∨ c = 2 * p + 2) → h[c]? = some kc → kc.lt km = false := by
  rcases smallerOf_cases h p (2 * p + 1) with ⟨e1, kl, kp', hl, hp', hlt1⟩ | ⟨e1, hno1⟩
  · rw [hp] at hp'
    cases hp'
    rw [e1]
    rcases smallerOf_cases h (2 * p + 1) (2 * p + 2) with ⟨e2, kr, kl', hr, hl', hlt2⟩ | ⟨e2, hno2⟩
    · rw [hl] at hl'
      cases hl'
      rw [e2]
      refine ⟨kr, hr, Key.ge_trans (Key.lt_asymm hlt2) (Key.lt_asymm hlt1), by omega, ?_⟩
      rintro c kc (rfl | rfl) hc
      · rw [hl] at hc
        cases hc
        exact Key.lt_asymm hlt2
      · rw [hr] at hc
        cases hc
        exact Key.lt_self _
    · rw [e2]
      refine ⟨kl, hl, Key.lt_asymm hlt1, by omega, ?_⟩
      rintro c kc (rfl | rfl) hc
      · rw [hl] at hc
        cases hc
        exact Key.lt_self _
      · exact hno2 kc kl hc hl
  · rw [e1]
    rcases smallerOf_cases h p (2 * p + 2) with ⟨e2, kr, kp', hr, hp', hlt2⟩ | ⟨e2, hno2⟩
    · rw [hp] at hp'
      cases hp'
      rw [e2]
      refine ⟨kr, hr, Key.lt_asymm hlt2, by omega, ?_⟩
      rintro c kc (rfl | rfl) hc
      · exact Key.ge_trans (Key.lt_asymm hlt2) (hno1 kc kp hc hp)
      · rw [hr] at hc
        cases hc
        exact Key.lt_self _
    · rw [e2]
      refine ⟨kp, hp, Key.lt_self _, by omega, ?_⟩
      rintro c kc (rfl | rfl) hc
      · exact hno1 kc kp hc hp
      · exact hno2 kc kp hc hp

theorem siftDown_ordered (fuel : Nat) (h : Heap) (p : Nat) (hf : h.length ≤ p + fuel)
    (ho : OrderedBelow h p) : HeapOrdered (siftDown fuel h p) := by
  induction fuel generalizing h p with
  | zero =>
    intro a c ka kc hc hka hkc
    rw [siftDown] at hka hkc
    have := (List.getElem?_eq_some_iff.mp hka).1
    exact ho.1 a c ka kc hc hka hkc (by omega)
  | succ n ih =>
    unfold siftDown
    simp only
    cases hp : h[p]? with
    | none =>
      have hpl := List.getElem?_eq_none_iff.mp hp
      have : HeapOrdered h := by
        intro a c ka kc hc hka hkc
        have := (List.getElem?_eq_some_iff.mp hka).1
        exact ho.1 a c ka kc hc hka hkc (by omega)
      split <;> exact this
    | some kp =>
      obtain ⟨km, hm, hpm, hcases, hmin⟩ := smallest_of_three hp
      generalize smallerOf h (smallerOf h p (2 * p + 1)) (2 * p + 2) = m at hm hcases
      split
      · rename_i hmp
        subst hmp
        rw [hp] at hm
        cases hm
        intro a c ka kc hc hka hkc
        by_cases ha : a = m
        · subst ha
          rw [hp] at hka
          cases hka
          exact hmin c kc hc hkc
        · exact ho.1 a c ka kc hc hka hkc ha
      · rename_i hmp
        rw [hm]
        have hml := (List.getElem?_eq_some_iff.mp hm).1
        have hmc : m = 2 * p + 1 ∨ m = 2 * p + 2 := by omega
        refine ih _ _ (by rw [swapAt_length]; omega) ⟨?_, ?_⟩
        · intro a c ka kc hc hka hkc ham
          rw [swapAt_get hp hm] at hka hkc
          simp only [ham, if_false] at hka
          by_cases hap : a = p
          · simp only [hap, if_true, Option.some.injEq] at hka
            subst hka hap
            by_cases hcm : c = m
            · simp only [hcm, if_true, Option.some.injEq] at hkc
              exact hkc ▸ hpm
            · have hca : c ≠ a := by omega
              simp only [hcm, hca, if_false] at hkc
              exact hmin c kc hc hkc
          · simp only [hap, if_false] at hka
            have hcm : c ≠ m := by omega
            simp only [hcm, if_false] at hkc
            by_cases hcp : c = p
            · simp only [hcp, if_true, Option.some.injEq] at hkc
              subst hkc
              have hag : a = (p - 1) / 2 := by omega
              exact ho.2 m km ka hmc (by omega) (hag ▸ hka) hm
            · simp only [hcp, if_false] at hkc
              exact ho.1 a c ka kc hc hka hkc hap
        · intro c kc kg hc _ hg hkc
          rw [swapAt_get hp hm] at hg hkc
          have hmp' : (m - 1) / 2 = p := by omega
          have hpm' : p ≠ m := by omega
          simp only [hmp', hpm', if_false, if_true, Option.some.injEq] at hg
          subst hg
          have h1 : c ≠ m := by omega
          have h2 : c ≠ p := by omega
          simp only [h1, h2, if_false] at hkc
          exact ho.1 m c km kc hc hm hkc (by omega)

/-- No member of an ordered heap is smaller than its top. -/
theorem top_is_least {h : Heap} {r : Key} (ho : HeapOrdered h) (hr : h[0]? = some r) :
    ∀ (i : Nat) (k : Key), h[i]? = some k → k.lt r = false := by
  intro i
  induction i using Nat.strong_induction_on with
  | _ i ih =>
    intro k hk
    by_cases hi : i = 0
    · subst hi
      rw [hr] at hk
      cases hk
      exact Key.lt_self _
    · have hil := (List.getElem?_eq_some_iff.mp hk).1
      have hpl : (i - 1) / 2 < h.length := by omega
      have hg : h[(i - 1) / 2]? = some h[(i - 1) / 2] := List.getElem?_eq_getElem hpl
      exact Key.ge_trans (ih _ (by omega) _ hg) (ho _ i _ k (by omega) hg hk)

/-- Extraction from an ordered heap gives the smallest key and an ordered heap (R59). -/
theorem heapExtractMin_ordered {h g : Heap} {k : Key} (ho : HeapOrdered h)
    (e : heapExtractMin h = some (k, g)) :
    HeapOrdered g ∧ ∀ x ∈ h, x.lt k = false := by
  have htop : h[0]? = some k := by
    unfold heapExtractMin at e
    split at e
    · cases e
    · split at e <;> cases e <;> rfl
  refine ⟨?_, fun x hx => ?_⟩
  · unfold heapExtractMin at e
    split at e
    · cases e
    · rename_i r rest
      split at e
      · cases e
        intro p c kp kc _ hp
        simp at hp
      · rename_i last hl
        cases e
        obtain ⟨ys, rfl⟩ := List.getLast?_eq_some_iff.mp hl
        refine siftDown_ordered _ _ _ (by simp) ⟨?_, fun c kc kg _ h0 => absurd h0 (by omega)⟩
        intro a c ka kc hc hka hkc ha
        have hget : ∀ i x, i ≠ 0 → (last :: (ys ++ [last]).dropLast)[i]? = some x →
            (k :: (ys ++ [last]))[i]? = some x := by
          intro i x hi hx
          obtain ⟨j, rfl⟩ : ∃ j, i = j + 1 := ⟨i - 1, by omega⟩
          simp only [List.getElem?_cons_succ, List.dropLast_concat] at hx ⊢
          rw [List.getElem?_append_left (List.getElem?_eq_some_iff.mp hx).1]
          exact hx
        exact ho a c ka kc hc (hget a ka ha hka) (hget c kc (by omega) hkc)
  · obtain ⟨i, hi, rfl⟩ := List.getElem_of_mem hx
    exact top_is_least ho htop i _ (List.getElem?_eq_getElem hi)

/-! ### The plain selection -/

theorem leastKey_mem (k : Key) (ks : List Key) : leastKey k ks ∈ k :: ks := by
  induction ks generalizing k with
  | nil => simp [leastKey]
  | cons x xs ih =>
    rw [leastKey]
    split
    · exact List.mem_cons_of_mem _ (ih x)
    · rcases List.mem_cons.mp (ih k) with h | h
      · exact List.mem_cons.mpr (.inl h)
      · exact List.mem_cons_of_mem _ (List.mem_cons_of_mem _ h)

theorem leastKey_le (k : Key) (ks : List Key) : ∀ x ∈ k :: ks, x.lt (leastKey k ks) = false := by
  induction ks generalizing k with
  | nil => simp [leastKey]
  | cons y ys ih =>
    intro x hx
    rw [leastKey]
    split
    · rename_i hlt
      rcases List.mem_cons.mp hx with rfl | hx
      · exact Key.ge_trans (ih y y List.mem_cons_self) (Key.lt_asymm hlt)
      · exact ih y x hx
    · rename_i hlt
      rcases List.mem_cons.mp hx with rfl | hx
      · exact ih x x List.mem_cons_self
      · rcases List.mem_cons.mp hx with rfl | hx
        · exact Key.ge_trans (ih k k List.mem_cons_self) (by simpa using hlt)
        · exact ih k x (List.mem_cons_of_mem _ hx)

/-- Selection takes a member away that none is smaller than. -/
theorem selectMin_spec {q r : List Key} {k : Key} (e : selectMin q = some (k, r)) :
    q.Perm (k :: r) ∧ ∀ x ∈ q, x.lt k = false := by
  unfold selectMin at e
  split at e
  · cases e
  · cases e
    exact ⟨List.perm_cons_erase (leastKey_mem _ _), leastKey_le _ _⟩

theorem selectMin_none {q : List Key} : selectMin q = none ↔ q = [] := by
  unfold selectMin
  split <;> simp

/-- The heap's extraction is the selection of the smallest member (R65). -/
theorem heapExtractMin_selects {h q : List Key} (ho : HeapOrdered h) (hq : h.Perm q) :
    (heapExtractMin h = none ∧ selectMin q = none) ∨
    ∃ k g r, heapExtractMin h = some (k, g) ∧ selectMin q = some (k, r) ∧ HeapOrdered g ∧ g.Perm r := by
  cases e : heapExtractMin h with
  | none =>
    rw [heapExtractMin_none] at e
    subst e
    exact .inl ⟨rfl, by rw [hq.symm.eq_nil]; rfl⟩
  | some kg =>
    obtain ⟨k, g⟩ := kg
    cases e' : selectMin q with
    | none =>
      rw [selectMin_none] at e'
      subst e'
      rw [hq.eq_nil] at e
      cases e
    | some kr =>
      obtain ⟨k', r⟩ := kr
      obtain ⟨hg, hmin⟩ := heapExtractMin_ordered ho e
      obtain ⟨hp', hmin'⟩ := selectMin_spec e'
      have hp := heapExtractMin_perm e
      have hk : k = k' :=
        Key.eq_of_not_lt (hmin' k (hq.mem_iff.mp (hp.mem_iff.mpr List.mem_cons_self)))
          (hmin k' (hq.mem_iff.mpr (hp'.mem_iff.mpr List.mem_cons_self)))
      subst hk
      exact .inr ⟨k, g, r, rfl, rfl, hg, (hp.symm.trans (hq.trans hp')).cons_inv⟩

end Sys2Proof.Machine
end

