-- ==== Sys2Proof/Laws/Tree.lean ====
section
/-! SUPPORT. The tree: walks along decisions, and what lies below a node (`10_state.md` R29 (c),
`41_encoder.md` R66, `42_decoder.md` R75). -/

namespace Sys2Proof.Machine

/-! ### Walks -/

@[simp] theorem walk_nil (nodes : Store Node) (p : Nat) : walk nodes p [] = some p := rfl

theorem walk_internal {nodes : Store Node} {p : Nat} {nd : Node} (h : Store.read nodes p = some nd)
    (hk : nd.kind = .internal) (b : Bool) (bs : Bits) :
    walk nodes p (b :: bs) = walk nodes (nd.child b) bs := by
  simp [walk, h, hk]

theorem walk_leaf {nodes : Store Node} {p : Nat} {nd : Node} (h : Store.read nodes p = some nd)
    (hk : nd.kind = .leaf) (b : Bool) (bs : Bits) : walk nodes p (b :: bs) = none := by
  simp [walk, h, hk]

/-- A walk along two pieces is a walk along one and then the other. -/
theorem walk_append (nodes : Store Node) (p : Nat) (as bs : Bits) :
    walk nodes p (as ++ bs) = (walk nodes p as).bind fun q => walk nodes q bs := by
  induction as generalizing p with
  | nil => rfl
  | cons a as ih =>
    simp only [List.cons_append, walk]
    split
    · split
      · exact ih _
      · rfl
    · rfl

/-- A walk that took a decision took it at an internal node. -/
theorem walk_cons_some {nodes : Store Node} {p q : Nat} {b : Bool} {bs : Bits}
    (h : walk nodes p (b :: bs) = some q) :
    ∃ nd, Store.read nodes p = some nd ∧ nd.kind = .internal ∧ walk nodes (nd.child b) bs = some q := by
  simp only [walk] at h
  split at h
  · rename_i nd hr
    split at h
    · exact ⟨nd, hr, ‹_›, h⟩
    · cases h
  · cases h

/-- A walk reads only entries that stay readable. -/
theorem walk_mono {m n : Store Node} (hmn : ∀ k nd, Store.read m k = some nd → Store.read n k = some nd)
    {p q : Nat} {bs : Bits} (h : walk m p bs = some q) : walk n p bs = some q := by
  induction bs generalizing p with
  | nil => exact h
  | cons b bs ih =>
    obtain ⟨nd, hr, hk, hw⟩ := walk_cons_some h
    rw [walk_internal (hmn p nd hr) hk]
    exact ih hw

/-- Children older than their parents: each decision of a walk goes to a smaller index (D4). -/
theorem walk_descends {nodes : Store Node}
    (hc : ∀ k nd, Store.read nodes k = some nd → nd.kind = .internal → nd.left < k ∧ nd.right < k)
    {p q : Nat} {bs : Bits} (h : walk nodes p bs = some q) : q + bs.length ≤ p := by
  induction bs generalizing p with
  | nil => cases h; simp
  | cons b bs ih =>
    obtain ⟨nd, hr, hk, hw⟩ := walk_cons_some h
    have h1 := ih hw
    have h2 := hc p nd hr hk
    have h3 : nd.child b < p := by cases b <;> simp [Node.child, h2]
    simp only [List.length_cons]
    omega

/-- Two walks from one node to leaves, one the beginning of the other, end at the same leaf (R68). -/
theorem walk_prefix_leaf {nodes : Store Node} {p q r : Nat} {as bs : Bits} {nd : Node}
    (ha : walk nodes p as = some q) (hq : Store.read nodes q = some nd) (hk : nd.kind = .leaf)
    (hb : walk nodes p bs = some r) (hp : as <+: bs) : q = r ∧ as = bs := by
  obtain ⟨cs, rfl⟩ := hp
  rw [walk_append, ha] at hb
  cases cs with
  | nil => exact ⟨by simpa using hb, by simp⟩
  | cons c cs => simp [walk_leaf hq hk] at hb

/-! ### What lies below a node -/

/-- The leaves below a node, each with the decisions that lead to it, left before right; and the
number of nodes of the subtree. -/
inductive Below (nodes : Store Node) : Nat → List (Nat × Bits) → Nat → Prop where
  | leaf {p : Nat} {nd : Node} (h : Store.read nodes p = some nd) (hk : nd.kind = .leaf) :
      Below nodes p [(p, [])] 1
  | node {p : Nat} {nd : Node} {L R : List (Nat × Bits)} {m n : Nat}
      (h : Store.read nodes p = some nd) (hk : nd.kind = .internal)
      (hl : Below nodes nd.left L m) (hr : Below nodes nd.right R n) :
      Below nodes p (L.map (fun x => (x.1, false :: x.2)) ++ R.map (fun x => (x.1, true :: x.2)))
        (m + n + 1)

theorem Below.mono {m n : Store Node}
    (hmn : ∀ k nd, Store.read m k = some nd → Store.read n k = some nd)
    {p : Nat} {L : List (Nat × Bits)} {c : Nat} (h : Below m p L c) : Below n p L c := by
  induction h with
  | leaf h hk => exact .leaf (hmn _ _ h) hk
  | node h hk _ _ ihl ihr => exact .node (hmn _ _ h) hk ihl ihr

/-- Each leaf below a node is reached by its decisions, which are fewer than the leaves. -/
theorem Below.spec {nodes : Store Node} {p : Nat} {L : List (Nat × Bits)} {c : Nat}
    (h : Below nodes p L c) :
    1 ≤ L.length ∧ ∀ q e, (q, e) ∈ L →
      walk nodes p e = some q ∧ e.length + 1 ≤ L.length ∧
      ∃ nd, Store.read nodes q = some nd ∧ nd.kind = .leaf := by
  induction h with
  | leaf h hk =>
    refine ⟨by simp, fun q e hq => ?_⟩
    simp only [List.mem_singleton, Prod.mk.injEq] at hq
    obtain ⟨rfl, rfl⟩ := hq
    exact ⟨rfl, by simp, _, h, hk⟩
  | node h hk hl hr ihl ihr =>
    refine ⟨by simp; omega, fun q e hq => ?_⟩
    simp only [List.mem_append, List.mem_map, Prod.mk.injEq, Prod.exists] at hq
    rcases hq with ⟨q', e', hm, rfl, rfl⟩ | ⟨q', e', hm, rfl, rfl⟩
    · obtain ⟨hw, hlen, hnd⟩ := ihl.2 q' e' hm
      refine ⟨by rw [walk_internal h hk]; exact hw, by simp; omega, hnd⟩
    · obtain ⟨hw, hlen, hnd⟩ := ihr.2 q' e' hm
      refine ⟨by rw [walk_internal h hk]; exact hw, by simp; omega, hnd⟩

/-- Every walk from a node to a leaf is in the list of what lies below it. -/
theorem Below.complete {nodes : Store Node} {p : Nat} {L : List (Nat × Bits)} {c : Nat}
    (h : Below nodes p L c) {bs : Bits} {q : Nat} {nd : Node} (hw : walk nodes p bs = some q)
    (hq : Store.read nodes q = some nd) (hk : nd.kind = .leaf) : (q, bs) ∈ L := by
  induction h generalizing bs with
  | leaf h' hk' =>
    cases bs with
    | nil => simpa using hw.symm
    | cons b bs => rw [walk_leaf h' hk'] at hw; cases hw
  | node h' hk' _ _ ihl ihr =>
    cases bs with
    | nil =>
      cases hw
      rw [h'] at hq
      cases hq
      rw [hk] at hk'
      cases hk'
    | cons b bs =>
      rw [walk_internal h' hk'] at hw
      cases b
      · exact List.mem_append_left _ (List.mem_map.mpr ⟨_, ihl hw, rfl⟩)
      · exact List.mem_append_right _ (List.mem_map.mpr ⟨_, ihr hw, rfl⟩)

/-- Below an internal node every leaf takes at least one decision. -/
theorem Below.long {nodes : Store Node} {p : Nat} {L : List (Nat × Bits)} {c : Nat} {nd : Node}
    (h : Below nodes p L c) (hr : Store.read nodes p = some nd) (hk : nd.kind = .internal) :
    ∀ q e, (q, e) ∈ L → 1 ≤ e.length := by
  cases h with
  | leaf h' hk' =>
    rw [hr] at h'
    cases h'
    rw [hk] at hk'
    cases hk'
  | node h' hk' hl hr' =>
    intro q e hq
    simp only [List.mem_append, List.mem_map, Prod.mk.injEq, Prod.exists] at hq
    rcases hq with ⟨_, _, _, _, rfl⟩ | ⟨_, _, _, _, rfl⟩ <;> simp

/-! ### The code assignment -/

/-- The dictionary after the entries of these leaves are written, in order, each with its decisions
after `c`. -/
def writeCodes (s : State) (c : Bits) : List (Nat × Bits) → Store DictEntry → Store DictEntry
  | [], d => d
  | (q, e) :: L, d =>
    writeCodes s c L
      (match Store.read s.nodes q with
       | some nd => Store.write d nd.sym.toNat (dictRecord s.cfg (c ++ e))
       | none => d)

theorem writeCodes_append (s : State) (c : Bits) (L R : List (Nat × Bits)) (d : Store DictEntry) :
    writeCodes s c (L ++ R) d = writeCodes s c R (writeCodes s c L d) := by
  induction L generalizing d with
  | nil => rfl
  | cons x L ih => simp only [List.cons_append, writeCodes, ih]

theorem writeCodes_cons (s : State) (c : Bits) (b : Bool) (L : List (Nat × Bits)) (d : Store DictEntry) :
    writeCodes s c (L.map fun x => (x.1, b :: x.2)) d = writeCodes s (c ++ [b]) L d := by
  induction L generalizing d with
  | nil => rfl
  | cons x L ih =>
    simp only [List.map_cons, writeCodes, ih, List.append_assoc, List.singleton_append]

theorem assignTurn_leaf {s : State} {p : Nat} {nd : Node} (h : Store.read s.nodes p = some nd)
    (hk : nd.kind = .leaf) (c : Bits) (stack : List (Nat × Bits)) (d : Store DictEntry) :
    assignTurn s p c stack d = .ok (stack, Store.write d nd.sym.toNat (dictRecord s.cfg c)) := by
  simp only [assignTurn, readNode_of_read h, hk]

theorem assignTurn_internal {s : State} {p : Nat} {nd : Node} (h : Store.read s.nodes p = some nd)
    (hk : nd.kind = .internal) (c : Bits) (stack : List (Nat × Bits)) (d : Store DictEntry) :
    assignTurn s p c stack d = .ok ((nd.left, c ++ [false]) :: (nd.right, c ++ [true]) :: stack, d) := by
  simp only [assignTurn, readNode_of_read h, hk]

/-- Everything a turn can do: stop on an absent entry, write a leaf's entry, or push two children. -/
theorem assignTurn_cases {s : State} {p : Nat} {c : Bits} {stack : List (Nat × Bits)}
    {d : Store DictEntry} :
    (∃ f, assignTurn s p c stack d = .error f) ∨
    ∃ nd, Store.read s.nodes p = some nd ∧
      ((nd.kind = .leaf ∧
        assignTurn s p c stack d = .ok (stack, Store.write d nd.sym.toNat (dictRecord s.cfg c))) ∨
      (nd.kind = .internal ∧
        assignTurn s p c stack d =
          .ok ((nd.left, c ++ [false]) :: (nd.right, c ++ [true]) :: stack, d))) := by
  cases hr : Store.read s.nodes p with
  | none => exact .inl ⟨.absentNode p, by simp only [assignTurn, readNode, hr]⟩
  | some nd =>
    cases hk : nd.kind with
    | leaf => exact .inr ⟨nd, rfl, .inl ⟨hk, assignTurn_leaf hr hk c stack d⟩⟩
    | internal => exact .inr ⟨nd, rfl, .inr ⟨hk, assignTurn_internal hr hk c stack d⟩⟩

/-- The walk of the code assignment below one node takes as much fuel as the subtree has nodes and
writes the entries of its leaves (R66). -/
theorem assignLoop_below {s : State} {p : Nat} {L : List (Nat × Bits)} {m : Nat}
    (h : Below s.nodes p L m) (f : Nat) (c : Bits) (stack : List (Nat × Bits)) (d : Store DictEntry) :
    assignLoop s (m + f) ((p, c) :: stack) d = assignLoop s f stack (writeCodes s c L d) := by
  induction h generalizing f c stack d with
  | leaf h hk =>
    rw [Nat.add_comm, assignLoop, assignTurn_leaf h hk]
    simp only [writeCodes, h, List.append_nil]
  | node h hk hl hr ihl ihr =>
    rename_i p nd L R m n
    have : m + n + 1 + f = (m + (n + f)) + 1 := by omega
    rw [this, assignLoop, assignTurn_internal h hk]
    simp only
    rw [ihl, ihr, writeCodes_append, writeCodes_cons, writeCodes_cons]

theorem assignLoop_empty (s : State) (f : Nat) (d : Store DictEntry) : assignLoop s f [] d = .ok d := by
  unfold assignLoop; rfl

theorem wf_writeCodes (s : State) (c : Bits) (L : List (Nat × Bits)) (d : Store DictEntry)
    (h : Store.wf d) : Store.wf (writeCodes s c L d) := by
  induction L generalizing d with
  | nil => exact h
  | cons x L ih =>
    obtain ⟨q, e⟩ := x
    rw [writeCodes]
    apply ih
    split
    · exact Store.wf_write _ _ _ h
    · exact h

/-- An entry of no leaf of the list is as it was. -/
theorem writeCodes_other (s : State) (c : Bits) (L : List (Nat × Bits)) (d : Store DictEntry) (x : Nat)
    (h : ∀ q e nd, (q, e) ∈ L → Store.read s.nodes q = some nd → nd.sym.toNat ≠ x) :
    Store.read (writeCodes s c L d) x = Store.read d x := by
  induction L generalizing d with
  | nil => rfl
  | cons y L ih =>
    obtain ⟨q, e⟩ := y
    rw [writeCodes, ih _ fun q' e' nd hm hr => h q' e' nd (List.mem_cons_of_mem _ hm) hr]
    split
    · rename_i nd hr
      exact Store.read_write_other _ _ (Ne.symm (h q e nd List.mem_cons_self hr))
    · rfl

/-- The entry of a leaf of the list, when no other leaf of it has the same symbol. -/
theorem writeCodes_mem (s : State) (c : Bits) (L : List (Nat × Bits)) (d : Store DictEntry)
    (hd : ∀ q q' e e' a b, (q, e) ∈ L → (q', e') ∈ L → Store.read s.nodes q = some a →
      Store.read s.nodes q' = some b → a.sym = b.sym → q = q')
    (hn : (L.map Prod.fst).Nodup) {q : Nat} {e : Bits} {nd : Node} (hm : (q, e) ∈ L)
    (hr : Store.read s.nodes q = some nd) :
    Store.read (writeCodes s c L d) nd.sym.toNat = some (dictRecord s.cfg (c ++ e)) := by
  induction L generalizing d with
  | nil => cases hm
  | cons y L ih =>
    obtain ⟨q', e'⟩ := y
    rw [List.map_cons, List.nodup_cons] at hn
    rw [writeCodes]
    rcases List.mem_cons.mp hm with heq | hm'
    · cases heq
      rw [hr, writeCodes_other]
      · simp
      · intro q2 e2 nd2 hm2 hr2 hs
        have := hd q2 q e2 e nd2 nd (List.mem_cons_of_mem _ hm2) List.mem_cons_self hr2 hr
          (BitVec.eq_of_toNat_eq hs)
        subst this
        exact hn.1 (List.mem_map.mpr ⟨_, hm2, rfl⟩)
    · exact ih _ (fun q1 q2 e1 e2 a b h1 h2 => hd q1 q2 e1 e2 a b (List.mem_cons_of_mem _ h1)
        (List.mem_cons_of_mem _ h2)) hn.2 hm'

end Sys2Proof.Machine
end

