-- ==== Sys2Proof/Laws/Merge.lean ====
section
/-! SUPPORT. BUILD's loops: what the queue holds once filled, what a merge step does, and what the
merge loop keeps (`40_tree_builder.md` R56, R60 to R63). -/

namespace Sys2Proof.Machine

/-! ### Filling the queue -/

/-- The filled queue holds the leaves 0 to n-1, each under its key (R56). -/
theorem fillQueue_spec {s : State} {n : Nat} {h : Heap} (e : fillQueue s n = .ok h) :
    HeapOrdered h ∧ (h.map Key.idx).Perm (List.range n) ∧
    ∀ k ∈ h, ∃ nd, Store.read s.nodes k.idx = some nd ∧ nd.freq = k.freq := by
  induction n generalizing h with
  | zero =>
    cases e
    exact ⟨fun p c kp kc _ hp => by simp at hp, .refl _, by simp⟩
  | succ n ih =>
    rw [fillQueue] at e
    split at e
    · cases e
    · rename_i g hg
      split at e
      · cases e
      · rename_i nd hnd
        cases e
        obtain ⟨ho, hp, hk⟩ := ih hg
        have hperm := heapInsert_perm g ⟨nd.freq, n⟩
        refine ⟨heapInsert_ordered _ _ ho, ?_, fun k hmem => ?_⟩
        · rw [List.range_succ]
          exact (hperm.map Key.idx).trans
            ((List.Perm.cons n hp).trans (List.perm_append_singleton n _).symm)
        · rcases List.mem_cons.mp (hperm.mem_iff.mp hmem) with rfl | hmem
          · exact ⟨nd, (readNode_ok _ _ _).mp hnd, rfl⟩
          · exact hk k hmem

theorem fillQueue_length {s : State} {n : Nat} {h : Heap} (e : fillQueue s n = .ok h) :
    h.length = n := by
  simpa using (fillQueue_spec e).2.1.length_eq

/-- The queue can be filled when the leaves hold values. -/
theorem fillQueue_exists (s : State) (n : Nat) (hr : ∀ k, k < n → ∃ nd, Store.read s.nodes k = some nd) :
    ∃ h, fillQueue s n = .ok h := by
  induction n with
  | zero => exact ⟨[], rfl⟩
  | succ n ih =>
    obtain ⟨h, hh⟩ := ih fun k hk => hr k (by omega)
    obtain ⟨nd, hnd⟩ := hr n (by omega)
    exact ⟨_, by rw [fillQueue, hh, readNode_of_read hnd]⟩

/-! ### One merge -/

/-- The internal record of a merge of two keys. -/
def mergedNode (a b : Key) : Node := internalRecord (a.freq + b.freq) a.idx b.idx

/-- The state after a merge of two keys (R60). -/
def merged (s : State) (a b : Key) : State :=
  { s with nodes := Store.write s.nodes s.nNodes (mergedNode a b), nNodes := s.nNodes + 1 }

/-- What a merge step does when it answers (R60). -/
theorem mergeStep_done {s t : State} {h g : Heap} (e : mergeStep s h = .done t g) :
    ∃ a b h2, h.Perm (a :: b :: h2) ∧ s.nNodes < s.cfg.nodesMax ∧ t = merged s a b ∧
      g = heapInsert h2 ⟨a.freq + b.freq, s.nNodes⟩ ∧
      (HeapOrdered h → HeapOrdered g ∧ b.lt a = false) := by
  unfold mergeStep at e
  split at e
  · cases e
  · rename_i a h1 e1
    split at e
    · cases e
    · rename_i b h2 e2
      split at e
      · cases e
      · rename_i t' hw
        obtain ⟨hlt, rfl⟩ := (writeNode_ok _ _ _ _).mp hw
        cases e
        have p1 := heapExtractMin_perm e1
        have p2 := heapExtractMin_perm e2
        refine ⟨a, b, h2, p1.trans (List.Perm.cons a p2), hlt, rfl, rfl, fun ho => ?_⟩
        obtain ⟨o1, m1⟩ := heapExtractMin_ordered ho e1
        obtain ⟨o2, _⟩ := heapExtractMin_ordered o1 e2
        refine ⟨heapInsert_ordered _ _ o2, m1 b ?_⟩
        exact p1.mem_iff.mpr (List.mem_cons_of_mem _ (p2.mem_iff.mpr List.mem_cons_self))

/-- With two members queued neither extraction meets an empty queue (R61). -/
theorem mergeStep_not_outOfNodes {s t : State} {h : Heap} (hl : 2 ≤ h.length) :
    mergeStep s h ≠ .outOfNodes t := by
  unfold mergeStep
  intro e
  split at e
  · rename_i e1
    rw [heapExtractMin_none] at e1
    subst e1
    simp at hl
  · rename_i a h1 e1
    have := heapExtractMin_length e1
    split at e
    · rename_i e2
      rw [heapExtractMin_none] at e2
      subst e2
      simp at this
      omega
    · split at e <;> cases e

/-- With two members queued and a free node entry a merge step answers. -/
theorem mergeStep_exists (s : State) (h : Heap) (hl : 2 ≤ h.length) (hn : s.nNodes < s.cfg.nodesMax) :
    ∃ t g, mergeStep s h = .done t g := by
  cases e : mergeStep s h with
  | done t g => exact ⟨t, g, rfl⟩
  | outOfNodes t => exact absurd e (mergeStep_not_outOfNodes hl)
  | stuck f =>
    unfold mergeStep at e
    split at e
    · cases e
    · split at e
      · cases e
      · split at e
        · rename_i hw
          unfold writeNode at hw
          rw [if_pos hn] at hw
          cases hw
        · cases e

/-- Each merge shortens the queue by one (R61). -/
theorem mergeStep_length {s t : State} {h g : Heap} (e : mergeStep s h = .done t g) :
    h.length = g.length + 1 := by
  obtain ⟨a, b, h2, hp, _, _, rfl, _⟩ := mergeStep_done e
  simpa using hp.length_eq

/-- The loop never runs out of nodes, whatever the state (R61). -/
theorem mergeLoop_not_outOfNodes (fuel : Nat) (s : State) (h : Heap) (t : State) :
    mergeLoop fuel s h ≠ .outOfNodes t := by
  induction fuel generalizing s h with
  | zero => simp [mergeLoop]
  | succ n ih =>
    unfold mergeLoop
    split
    · simp
    · split
      · exact ih _ _
      · rename_i hl t' e
        exact absurd e (mergeStep_not_outOfNodes (by omega))
      · simp

/-- With enough fuel the loop ends with one member queued. -/
theorem mergeLoop_length {fuel : Nat} {s t : State} {h g : Heap} (hf : h.length ≤ fuel)
    (h1 : 1 ≤ h.length) (e : mergeLoop fuel s h = .done t g) : g.length = 1 := by
  induction fuel generalizing s h with
  | zero => omega
  | succ n ih =>
    unfold mergeLoop at e
    split at e
    · cases e
      omega
    · split at e
      · rename_i hs
        have := mergeStep_length hs
        exact ih (by omega) (by omega) e
      · cases e
      · cases e

/-- The loop changes the node memory and its counter, and writes no entry below the counter. -/
theorem mergeLoop_frame {fuel : Nat} {s t : State} {h g : Heap} (e : mergeLoop fuel s h = .done t g) :
    t = { s with nodes := t.nodes, nNodes := t.nNodes } ∧ s.nNodes ≤ t.nNodes ∧
    ∀ k, k < s.nNodes ∨ t.nNodes ≤ k → Store.read t.nodes k = Store.read s.nodes k := by
  induction fuel generalizing s h with
  | zero =>
    cases e
    exact ⟨rfl, le_refl _, fun _ _ => rfl⟩
  | succ n ih =>
    unfold mergeLoop at e
    split at e
    · cases e
      exact ⟨rfl, le_refl _, fun _ _ => rfl⟩
    · split at e
      · rename_i s' h' hs
        obtain ⟨a, b, h2, _, _, rfl, _, _⟩ := mergeStep_done hs
        obtain ⟨h1, h2, h3⟩ := ih e
        refine ⟨?_, ?_, fun k hk => ?_⟩
        · rw [h1]; rfl
        · simp only [merged] at h2; omega
        · simp only [merged] at h2 h3
          rw [h3 k (by omega)]
          exact Store.read_write_other _ _ (by omega)
      · cases e
      · cases e

/-! ### What the loop keeps -/

/-- What holds before every turn of the merge loop of a BUILD that began in `s₀`, with `T` the sum of
the queued frequencies. -/
structure MergeOk (s₀ s : State) (h : Heap) (T : Nat) : Prop where
  only : s = { s₀ with nodes := s.nodes, nNodes := s.nNodes }
  wf : Store.wf s.nodes
  held : ∀ k, (Store.read s.nodes k).isSome = true ↔ k < s.nNodes
  old : ∀ k, k < s₀.nLeaves → Store.read s.nodes k = Store.read s₀.nodes k
  count : s.nNodes + h.length = 2 * s₀.nLeaves
  many : s₀.nLeaves ≤ s.nNodes
  ordered : HeapOrdered h
  keys : ∀ k ∈ h, ∃ nd, Store.read s.nodes k.idx = some nd ∧ nd.freq = k.freq
  internals : ∀ k, s₀.nLeaves ≤ k → k < s.nNodes →
    ∃ nd, Store.read s.nodes k = some nd ∧ IsInternalRecord s.nodes k nd
  in_order : ∀ k nd l r, s₀.nLeaves ≤ k → Store.read s.nodes k = some nd →
    Store.read s.nodes nd.left = some l → Store.read s.nodes nd.right = some r →
    Key.lt ⟨l.freq, nd.left⟩ ⟨r.freq, nd.right⟩ = true
  one_parent : (childFields s.nodes s₀.nLeaves s.nNodes ++ h.map Key.idx).Perm (List.range s.nNodes)
  total : (h.map Key.freq).sum = T
  fits : ∀ k nd, Store.read s.nodes k = some nd → nd.freq ≤ T
  newest : ∃ k ∈ h, k.idx + 1 = s.nNodes
  below : ∃ f : Nat → List (Nat × Bits), ∃ g : Nat → Nat,
    (∀ k ∈ h, Below s.nodes k.idx (f k.idx) (g k.idx)) ∧
    (h.flatMap fun k => (f k.idx).map Prod.fst).Perm (List.range s₀.nLeaves) ∧
    (h.map fun k => g k.idx).sum = s.nNodes

theorem childFields_congr {m n : Store Node} {a b : Nat}
    (h : ∀ k, a ≤ k → k < b → Store.read m k = Store.read n k) :
    childFields m a b = childFields n a b := by
  unfold childFields
  refine List.flatMap_congr fun k hk => ?_
  rw [List.mem_range'_1] at hk
  rw [h k (by omega) (by omega)]

theorem childFields_self (m : Store Node) (a : Nat) : childFields m a a = [] := by
  simp [childFields]

theorem childFields_succ {m : Store Node} {a b : Nat} {nd : Node} (hab : a ≤ b)
    (h : Store.read m b = some nd) :
    childFields m a (b + 1) = childFields m a b ++ [nd.left, nd.right] := by
  unfold childFields
  have : b + 1 - a = (b - a) + 1 := by omega
  rw [this, List.range'_1_concat, List.flatMap_append]
  have hb : a + (b - a) = b := by omega
  simp [hb, h]

/-- The queue before the first merge (R56). -/
theorem mergeOk_start {s : State} {h : Heap} (hn : s.nNodes = s.nLeaves) (h1 : 1 ≤ s.nLeaves)
    (hw : Store.wf s.nodes) (hh : ∀ k, (Store.read s.nodes k).isSome = true ↔ k < s.nNodes)
    (hl : ∀ k nd, Store.read s.nodes k = some nd → nd.kind = .leaf)
    (e : fillQueue s s.nLeaves = .ok h) : MergeOk s s h (h.map Key.freq).sum := by
  obtain ⟨ho, hp, hk⟩ := fillQueue_spec e
  have hlen := fillQueue_length e
  have mem_of_idx : ∀ i, i < s.nLeaves → ∃ k ∈ h, k.idx = i := by
    intro i hi
    have := hp.mem_iff.mpr (List.mem_range.mpr hi)
    simpa using this
  refine
    { only := rfl, wf := hw, held := hh, old := fun _ _ => rfl, count := by omega, many := by omega
      ordered := ho, keys := hk, total := rfl
      internals := fun k h1 h2 => absurd h2 (by omega)
      in_order := fun k nd l r hk hr _ _ => ?_
      one_parent := ?_, fits := fun k nd hr => ?_, newest := ?_, below := ?_ }
  · have : k < s.nNodes := (hh k).mp (by simp [hr])
    omega
  · rw [hn, childFields_self]
    simpa using hp
  · obtain ⟨x, hx, rfl⟩ := mem_of_idx k (by have := (hh k).mp (by simp [hr]); omega)
    obtain ⟨nd', hr', hf⟩ := hk x hx
    rw [hr] at hr'
    cases hr'
    rw [hf]
    exact List.single_le_sum (by simp) _ (List.mem_map.mpr ⟨x, hx, rfl⟩)
  · obtain ⟨x, hx, hi⟩ := mem_of_idx (s.nLeaves - 1) (by omega)
    exact ⟨x, hx, by omega⟩
  · refine ⟨fun k => [(k, [])], fun _ => 1, fun k hk' => ?_, ?_, by simp; omega⟩
    · obtain ⟨nd, hr, _⟩ := hk k hk'
      exact .leaf hr (hl _ _ hr)
    · simpa [← List.map_eq_flatMap] using hp

theorem MergeOk.step {s₀ s t : State} {h g : Heap} {T : Nat} (hi : MergeOk s₀ s h T)
    (e : mergeStep s h = .done t g) : MergeOk s₀ t g T := by
  obtain ⟨a, b, h2, hp, hmax, rfl, rfl, hord⟩ := mergeStep_done e
  obtain ⟨hog, hab⟩ := hord hi.ordered
  have hgp := heapInsert_perm h2 ⟨a.freq + b.freq, s.nNodes⟩
  have ha : a ∈ h := hp.mem_iff.mpr (by simp)
  have hb : b ∈ h := hp.mem_iff.mpr (by simp)
  have hsub : ∀ k ∈ h2, k ∈ h := fun k hk => hp.mem_iff.mpr (by simp [hk])
  obtain ⟨na, hra, hfa⟩ := hi.keys a ha
  obtain ⟨nb, hrb, hfb⟩ := hi.keys b hb
  have lt_of : ∀ k nd, Store.read s.nodes k = some nd → k < s.nNodes := fun k nd hr =>
    (hi.held k).mp (by simp [hr])
  have hal := lt_of _ _ hra
  have hbl := lt_of _ _ hrb
  have new : Store.read (merged s a b).nodes s.nNodes = some (mergedNode a b) :=
    Store.read_write_same _ _ _
  have same : ∀ k, k ≠ s.nNodes → Store.read (merged s a b).nodes k = Store.read s.nodes k :=
    fun k hk => Store.read_write_other _ _ hk
  have mono : ∀ k nd, Store.read s.nodes k = some nd → Store.read (merged s a b).nodes k = some nd :=
    fun k nd hr => by rw [same k (by have := lt_of k nd hr; omega), hr]
  have hnd : (h.map Key.idx).Nodup :=
    (List.nodup_append.mp (hi.one_parent.nodup_iff.mpr List.nodup_range)).2.1
  have hne : a.idx ≠ b.idx := by
    have := (hp.map Key.idx).nodup_iff.mp hnd
    simp only [List.map_cons, List.nodup_cons, List.mem_cons] at this
    tauto
  refine
    { only := by rw [hi.only]; rfl
      wf := Store.wf_write _ _ _ hi.wf, held := fun k => ?_, old := fun k hk => ?_, count := ?_
      many := Nat.le_succ_of_le hi.many, ordered := hog, keys := fun k hk => ?_
      internals := fun k h1 h2 => ?_, in_order := fun k nd l r h1 hr hl hr' => ?_, one_parent := ?_
      total := ?_, fits := fun k nd hr => ?_, newest := ?_, below := ?_ }
  · by_cases hk : k = s.nNodes
    · subst hk
      rw [new]
      simp [merged]
    · rw [same k hk, hi.held k]
      simp only [merged]
      omega
  · have := hi.many
    rw [same k (by omega), hi.old k hk]
  · have := hi.count
    have := hp.length_eq
    simp only [List.length_cons] at this
    simp only [merged, heapInsert_length]
    omega
  · rcases List.mem_cons.mp (hgp.mem_iff.mp hk) with rfl | hk
    · exact ⟨_, new, rfl⟩
    · obtain ⟨nd, hr, hf⟩ := hi.keys k (hsub k hk)
      exact ⟨nd, mono _ _ hr, hf⟩
  · by_cases hk : k = s.nNodes
    · subst hk
      exact ⟨_, new, rfl, rfl, hal, hbl, hne, na, nb, mono _ _ hra, mono _ _ hrb,
        by rw [hfa, hfb]; rfl⟩
    · obtain ⟨nd, hr, h3, h4, h5, h6, h7, l, r, hl, hr', hf⟩ :=
        hi.internals k h1 (by simp only [merged] at h2; omega)
      exact ⟨nd, mono _ _ hr, h3, h4, h5, h6, h7, l, r, mono _ _ hl, mono _ _ hr', hf⟩
  · by_cases hk : k = s.nNodes
    · subst hk
      rw [new] at hr
      cases hr
      rw [show (mergedNode a b).left = a.idx from rfl, same _ (by omega), hra] at hl
      rw [show (mergedNode a b).right = b.idx from rfl, same _ (by omega), hrb] at hr'
      cases hl
      cases hr'
      rw [Key.not_lt_iff] at hab
      rw [Key.lt_iff]
      simp only [mergedNode, internalRecord, hfa, hfb]
      omega
    · rw [same k hk] at hr
      have hk' := lt_of _ _ hr
      obtain ⟨nd', hr2, _, _, h5, h6, _⟩ := hi.internals k h1 hk'
      rw [hr] at hr2
      cases hr2
      rw [same _ (by omega)] at hl hr'
      exact hi.in_order k nd l r h1 hr hl hr'
  · have hc : childFields (merged s a b).nodes s₀.nLeaves (merged s a b).nNodes =
        childFields s.nodes s₀.nLeaves s.nNodes ++ [a.idx, b.idx] := by
      rw [show (merged s a b).nNodes = s.nNodes + 1 from rfl, childFields_succ hi.many new]
      congr 1
      exact childFields_congr fun k _ hk => same k (by omega)
    rw [hc, show (merged s a b).nNodes = s.nNodes + 1 from rfl, List.range_succ, List.append_assoc]
    have p1 : ([a.idx, b.idx] ++ (heapInsert h2 ⟨a.freq + b.freq, s.nNodes⟩).map Key.idx).Perm
        (h.map Key.idx ++ [s.nNodes]) := by
      refine ((hgp.map Key.idx).append_left _).trans ?_
      refine (List.perm_append_comm (l₁ := [a.idx, b.idx])).trans ?_
      simp only [List.map_cons, List.cons_append]
      refine (List.perm_append_singleton s.nNodes _).symm.trans ?_
      refine List.Perm.append_right _ ?_
      refine (List.perm_append_comm (l₂ := [a.idx, b.idx])).trans ?_
      exact (hp.map Key.idx).symm
    refine (p1.append_left _).trans ?_
    rw [← List.append_assoc]
    exact hi.one_parent.append_right _
  · have h1 := (hgp.map Key.freq).sum_eq
    have h2' := (hp.map Key.freq).sum_eq
    simp only [List.map_cons, List.sum_cons] at h1 h2'
    have := hi.total
    omega
  · by_cases hk : k = s.nNodes
    · subst hk
      rw [new] at hr
      cases hr
      have h2' := (hp.map Key.freq).sum_eq
      simp only [List.map_cons, List.sum_cons] at h2'
      have := hi.total
      simp only [mergedNode, internalRecord]
      omega
    · rw [same k hk] at hr
      exact hi.fits k nd hr
  · exact ⟨_, hgp.mem_iff.mpr List.mem_cons_self, rfl⟩
  · obtain ⟨f, c, hb1, hb2, hb3⟩ := hi.below
    have idx_ne : ∀ k ∈ h, k.idx ≠ s.nNodes := fun k hk => by
      obtain ⟨nd, hr, _⟩ := hi.keys k hk
      exact (lt_of _ _ hr).ne
    let f' : Nat → List (Nat × Bits) := fun i =>
      if i = s.nNodes then
        (f a.idx).map (fun x => (x.1, false :: x.2)) ++ (f b.idx).map (fun x => (x.1, true :: x.2))
      else f i
    let c' : Nat → Nat := fun i => if i = s.nNodes then c a.idx + c b.idx + 1 else c i
    have hf' : ∀ k ∈ h, f' k.idx = f k.idx := fun k hk => if_neg (idx_ne k hk)
    have hc' : ∀ k ∈ h, c' k.idx = c k.idx := fun k hk => if_neg (idx_ne k hk)
    have hfn : f' s.nNodes = (f a.idx).map (fun x => (x.1, false :: x.2)) ++
        (f b.idx).map (fun x => (x.1, true :: x.2)) := if_pos rfl
    have hcn : c' s.nNodes = c a.idx + c b.idx + 1 := if_pos rfl
    refine ⟨f', c', fun k hk => ?_, ?_, ?_⟩
    · rcases List.mem_cons.mp (hgp.mem_iff.mp hk) with rfl | hk
      · show Below _ s.nNodes (f' s.nNodes) (c' s.nNodes)
        rw [hfn, hcn]
        exact .node new rfl ((hb1 a ha).mono mono) ((hb1 b hb).mono mono)
      · rw [hf' k (hsub k hk), hc' k (hsub k hk)]
        exact (hb1 k (hsub k hk)).mono mono
    · refine (hgp.flatMap_right _).trans ?_
      refine List.Perm.trans ?_ hb2
      refine List.Perm.trans ?_ (hp.flatMap_right _).symm
      simp only [List.flatMap_cons, hfn, List.map_append, List.map_map]
      rw [List.append_assoc]
      refine List.Perm.append_left _ (List.Perm.append_left _ ?_)
      rw [List.flatMap_congr fun k hk => by rw [hf' k (hsub k hk)]]
    · have h1 := (hgp.map fun k => c' k.idx).sum_eq
      have h2' := (hp.map fun k => c k.idx).sum_eq
      simp only [List.map_cons, List.sum_cons, hcn] at h1 h2'
      rw [List.map_congr_left fun k hk => hc' k (hsub k hk)] at h1
      simp only [merged]
      omega

/-- From a filled queue of at least one leaf the loop ends, with one member queued (R61). -/
theorem mergeLoop_ends {s₀ : State} {T : Nat} (hmax : 2 * s₀.nLeaves - 1 ≤ s₀.cfg.nodesMax) :
    ∀ fuel s h, MergeOk s₀ s h T → h.length ≤ fuel + 1 → 1 ≤ h.length →
      ∃ t g, mergeLoop fuel s h = .done t g ∧ MergeOk s₀ t g T ∧ g.length = 1 := by
  intro fuel
  induction fuel with
  | zero =>
    intro s h hi hf h1
    exact ⟨s, h, rfl, hi, by omega⟩
  | succ n ih =>
    intro s h hi hf h1
    unfold mergeLoop
    split
    · exact ⟨s, h, rfl, hi, by omega⟩
    · have hcfg : s.cfg = s₀.cfg := by rw [hi.only]
      have := hi.count
      obtain ⟨t, g, e⟩ := mergeStep_exists s h (by omega) (by rw [hcfg]; omega)
      rw [e]
      have hl := mergeStep_length e
      exact ih t g (hi.step e) (by omega) (by omega)

end Sys2Proof.Machine
end

