-- ==== Sys2Proof/Laws/Build.lean ====
section
/-! SUPPORT. What BUILD answers on a loaded table, in the terms of its loops: the tree the merge loop
leaves and the dictionary the code assignment writes (`40_tree_builder.md` R56, R60, R61, R64,
`41_encoder.md` R66, R67). -/

namespace Sys2Proof.Machine

/-- `ceilLog2 n` bits count up to `n` (R7). -/
theorem le_two_pow_ceilLog2 (n : Nat) : n ≤ 2 ^ ceilLog2 n := by
  unfold ceilLog2
  split
  · simpa using ‹n ≤ 1›
  · have := Nat.lt_log2_self (n := n - 1)
    omega

/-- No sum of the loaded frequencies needs more than SUM_W bits (R60). -/
theorem sum_fits (c : Config) (n T : Nat) (hn : n ≤ c.nMax)
    (hT : T ≤ n * (2 ^ c.freqW - 1)) : T < 2 ^ c.sumW := by
  have h1 := le_two_pow_ceilLog2 c.nMax
  have h2 : 0 < 2 ^ c.freqW := Nat.pow_pos (by omega)
  have h3 : T ≤ c.nMax * (2 ^ c.freqW - 1) := hT.trans (Nat.mul_le_mul_right _ hn)
  have h4 : c.nMax * (2 ^ c.freqW - 1) ≤ 2 ^ ceilLog2 c.nMax * (2 ^ c.freqW - 1) :=
    Nat.mul_le_mul_right _ h1
  have h5 : 2 ^ ceilLog2 c.nMax * (2 ^ c.freqW - 1) < 2 ^ ceilLog2 c.nMax * 2 ^ c.freqW :=
    Nat.mul_lt_mul_of_pos_left (by omega) (Nat.pow_pos (by omega))
  have h6 : 2 ^ c.sumW = 2 ^ ceilLog2 c.nMax * 2 ^ c.freqW := by
    rw [Config.sumW, Config.lgN, Nat.add_comm, pow_add]
  omega

/-- The dictionary of a finished tree: the lone leaf's one-bit code (R67), or the leaves' paths (R66). -/
def finishedDict (s : State) (root : Nat) (L : List (Nat × Bits)) : Store DictEntry :=
  match Store.read s.nodes root with
  | none => s.dict
  | some nd =>
    match nd.kind with
    | .leaf => Store.write s.dict nd.sym.toNat (dictRecord s.cfg [false])
    | .internal => writeCodes s [] L s.dict

/-- The state BUILD leaves, but for its reply. -/
def builtState (t : State) (root : Nat) (L : List (Nat × Bits)) : State :=
  pointerToRoot { t with root := root, dict := finishedDict t root L, phase := .ready }

theorem writeCodes_congr {s t : State} (hn : s.nodes = t.nodes) (hc : s.cfg = t.cfg) (c : Bits)
    (L : List (Nat × Bits)) (d : Store DictEntry) : writeCodes s c L d = writeCodes t c L d := by
  induction L generalizing d with
  | nil => rfl
  | cons x L ih => simp only [writeCodes, ih, hn, hc]

/-- The end of BUILD on a tree whose walk from the root takes as many turns as there are nodes. -/
theorem finishBuild_answers {t : State} {root m : Nat} {L : List (Nat × Bits)}
    (hb : Below t.nodes root L m) (hm : m = t.nNodes) :
    finishBuild t root =
      .next ((builtState t root L).withReply ⟨Response.word { data := zext32 root }, []⟩) := by
  have ha : assignCodes { t with root := root } = .ok (finishedDict t root L) := by
    have hread : ∃ nd, Store.read t.nodes root = some nd := by
      cases hb with
      | leaf h _ => exact ⟨_, h⟩
      | node h _ _ _ => exact ⟨_, h⟩
    obtain ⟨nd, hnd⟩ := hread
    have hrn : readNode { t with root := root } root = .ok nd := readNode_of_read hnd
    unfold assignCodes finishedDict
    simp only [hrn, hnd]
    cases nd.kind with
    | leaf => rfl
    | internal =>
      have h1 := assignLoop_below (s := { t with root := root }) hb 0 [] [] t.dict
      rw [Nat.add_zero, hm] at h1
      simp only
      rw [h1, assignLoop_empty]
      exact congrArg _ (writeCodes_congr (s := { t with root := root }) (t := t) rfl rfl _ _ _)
  unfold finishBuild
  rw [ha]
  rfl

/-- Outside phase READY the held entries are the leaves. -/
theorem Invariant.leaf_of_read {s : State} (hi : Invariant s) (hn : NoTree s) {k : Nat} {nd : Node}
    (hr : Store.read s.nodes k = some nd) : k < s.nLeaves ∧ IsLeafRecord s.cfg nd := by
  have hk : k < s.nLeaves := by
    have := (hi.held k).mp (by simp [hr])
    rwa [hn.nodes_are_leaves] at this
  obtain ⟨nd', hr', hl⟩ := hi.leaves k hk
  rw [hr] at hr'
  cases hr'
  exact ⟨hk, hl⟩

/-- BUILD on a loaded table: the merge loop ends in a tree with its root last, every leaf below the
root once, and BUILD answers with the dictionary of that tree. -/
theorem buildTree_answers {s : State} (hi : Invariant s) (hn : NoTree s) (h1 : 1 ≤ s.nLeaves) :
    ∃ t k T L, MergeOk s t [k] T ∧ T < 2 ^ s.cfg.sumW ∧ k.idx + 1 = t.nNodes ∧
      t.nNodes = 2 * s.nLeaves - 1 ∧ Below t.nodes k.idx L t.nNodes ∧
      (L.map Prod.fst).Perm (List.range s.nLeaves) ∧
      buildTree s =
        .next ((builtState t k.idx L).withReply ⟨Response.word { data := zext32 k.idx }, []⟩) := by
  obtain ⟨h, hf⟩ := fillQueue_exists s s.nLeaves fun k hk => by
    obtain ⟨nd, hr, _⟩ := hi.leaves k hk
    exact ⟨nd, hr⟩
  have hlen := fillQueue_length hf
  have hstart := mergeOk_start hn.nodes_are_leaves h1 hi.nodes_wf hi.held
    (fun k nd hr => (hi.leaf_of_read hn hr).2.1) hf
  have hmax : 2 * s.nLeaves - 1 ≤ s.cfg.nodesMax := by
    have := hi.leaves_max
    unfold Config.nodesMax
    omega
  obtain ⟨t, g, hloop, hok, hg1⟩ := mergeLoop_ends hmax h.length s h hstart (by omega) (by omega)
  obtain ⟨k, rfl⟩ := List.length_eq_one_iff.mp hg1
  have hT : (h.map Key.freq).sum ≤ s.nLeaves * (2 ^ s.cfg.freqW - 1) := by
    have := List.sum_le_card_nsmul (h.map Key.freq) (2 ^ s.cfg.freqW - 1) (by
      intro x hx
      obtain ⟨y, hy, rfl⟩ := List.mem_map.mp hx
      obtain ⟨nd, hr, hfr⟩ := (fillQueue_spec hf).2.2 y hy
      have := (hi.leaf_of_read hn hr).2.2.1
      omega)
    simpa [hlen] using this
  obtain ⟨x, hx, hxn⟩ := hok.newest
  rw [List.mem_singleton] at hx
  subst hx
  have hcount := hok.count
  rw [List.length_singleton] at hcount
  obtain ⟨f, c, hb1, hb2, hb3⟩ := hok.below
  have hb := hb1 x (by simp)
  have hc : c x.idx = t.nNodes := by simpa using hb3
  rw [hc] at hb
  refine ⟨t, x, _, f x.idx, hok, sum_fits _ _ _ hi.leaves_max hT, hxn, by omega, hb,
    by simpa using hb2, ?_⟩
  unfold buildTree
  rw [hf]
  simp only [hloop]
  have : heapExtractMin [x] = some (x, []) := rfl
  rw [this]
  exact finishBuild_answers hb rfl

/-- The tree of R29 (c) from what the merge loop leaves. -/
theorem MergeOk.one_tree {s t : State} {k : Key} {T : Nat} (hok : MergeOk s t [k] T)
    (hk : k.idx + 1 = t.nNodes) :
    (childFields t.nodes s.nLeaves t.nNodes).Perm (List.range (t.nNodes - 1)) := by
  have h := hok.one_parent
  rw [← hk, List.range_succ] at h
  rw [← hk, Nat.add_sub_cancel]
  simp only [List.map_cons, List.map_nil] at h
  exact (List.perm_append_right_iff _).mp h

end Sys2Proof.Machine
end

