-- ==== Sys2Proof/Laws/Exec.lean ====
section
/-! SUPPORT. Everything a command can do, said once: `Answer i s t` lists every way `exec i s` comes to
a next state `t`, and `exec_answer` says there is no other (`43_control.md` R86). Later proofs take an
`exec` apart with it and unfold no meaning. -/

namespace Sys2Proof.Machine

/-- What BUILD's last stages have of the merge loop that began in `s`: the node memory and its counter
as the loop left them, and the dictionary `d` the code assignment gave. -/
structure Assigned (s : State) (nodes : Store Node) (n root : Nat) (d : Store DictEntry) : Prop where
  grows : s.nNodes ≤ n
  old : ∀ k, k < s.nNodes ∨ n ≤ k → Store.read nodes k = Store.read s.nodes k
  codes : assignCodes { s with nodes := nodes, nNodes := n, root := root } = .ok d

/-- Every way a command answers. -/
inductive Answer : Instr → State → State → Prop where
  | nop (s : State) : Answer .nop s (s.replied 0#64 [])
  | clear (s : State) : Answer .clear s ((clearAll s).replied 0#64 [])
  | rdreg (s : State) (r : StatusReg) :
      Answer (.rdreg r) s (s.replied (rspWord 0 0 0 0 (statusReg s r)) [])
  | refused (i : Instr) (s : State) (w : Word) (h : refusedWith i s = some w) :
      Answer i s (s.replied w [])
  | tableFailed (i : Instr) (s : State) (r : Reason) (h : s.phase = .load)
      (hi : (r = .empty ∧ i = .build ∧ s.nLeaves = 0) ∨
        ((r = .capacity ∨ r = .duplicate) ∧ ∃ x f, i = .loadw x f)) :
      Answer i s (({ s with phase := .failed, tbReason := r } : State).replied
        (rspWord 2 0 (r.code.setWidth 8) 0 0) [])
  | leaf (s : State) (x : Symbol) (f : BitVec 32) (h : s.phase = .load)
      (hn : s.nLeaves ≠ s.cfg.nMax) (hd : symbolLoaded s x s.nLeaves = .ok false)
      (hm : s.nLeaves < s.cfg.nodesMax) :
      Answer (.loadw x f) s (({ s with
          nodes := Store.write s.nodes s.nLeaves (leafRecord x f)
          nLeaves := s.nLeaves + 1, nNodes := s.nLeaves + 1 } : State).replied
        (rspWord 0 0 0 x (BitVec.ofNat 32 s.nLeaves)) [])
  | built (s : State) (nodes : Store Node) (n root : Nat) (d : Store DictEntry) (h : s.phase = .load)
      (hn : s.nLeaves ≠ 0) (ha : Assigned s nodes n root d) :
      Answer .build s (({ s with
          nodes := nodes, nNodes := n, root := root, dict := d, phase := .ready, decPtr := root
          decDepth := 0, decValid := false } : State).replied
        (rspWord 0 0 0 0 (BitVec.ofNat 32 root)) [])
  | encbeg (s : State) (h : s.phase = .ready) : Answer .encbeg s ((openMessage s []).replied 0#64 [])
  | encRepeats (s : State) (x : Symbol) (h : s.phase = .ready) (ho : s.encOpen = true)
      (he : s.encErr ≠ .none) :
      Answer (.enc x) s (s.replied (rspWord s.encErr.code 0 0 s.encErrSym 0) [])
  | encFails (s : State) (x : Symbol) (e : MsgErr) (h : s.phase = .ready) (ho : s.encOpen = true)
      (he : s.encErr = .none)
      (hr : (e = .noSuchKey ∧ readDict s x = none) ∨
        (e = .overflow ∧ ∃ r, readDict s x = some r ∧ s.cfg.encBufBits < s.encBuf.length + r.len)) :
      Answer (.enc x) s ((voidMessage e x s).replied (rspWord e.code 0 0 x 0) [])
  | encAppends (s : State) (x : Symbol) (e : DictEntry) (h : s.phase = .ready)
      (ho : s.encOpen = true) (he : s.encErr = .none) (hr : readDict s x = some e)
      (hl : s.encBuf.length + e.len ≤ s.cfg.encBufBits) :
      Answer (.enc x) s (({ s with encBuf := s.encBuf ++ e.bits } : State).replied
        (rspWord 0 0 0 x (BitVec.ofNat 32 e.len)) [])
  | encend (s : State) (h : s.phase = .ready) (ho : s.encOpen = true) (he : s.encErr = .none) :
      Answer .encend s
        ((closeMessage s).replied (rspWord 0 0 0 0 (BitVec.ofNat 32 s.encBuf.length)) s.encBuf)
  | encendFails (s : State) (h : s.phase = .ready) (ho : s.encOpen = true) (he : s.encErr ≠ .none) :
      Answer .encend s ((closeMessage s).replied (rspWord s.encErr.code 0 0 s.encErrSym 0) [])
  | decbeg (s : State) (h : s.phase = .ready) : Answer .decbeg s ((pointerToRoot s).replied 0#64 [])
  | decEmits (s : State) (bit : Bool) (q : Nat) (m : Node) (h : s.phase = .ready)
      (hq : moveTarget s bit = .ok q) (hm : Store.read s.nodes q = some m) (hk : m.kind = .leaf) :
      Answer (.decbit bit) s (({ s with decSym := m.sym, decLeaf := q, decValid := true
                                        decPtr := s.root, decDepth := 0 } : State).replied
        (rspWord 0 1 0 m.sym (BitVec.ofNat 32 q)) [])
  | decMoves (s : State) (bit : Bool) (q : Nat) (m : Node) (h : s.phase = .ready)
      (hq : moveTarget s bit = .ok q) (hm : Store.read s.nodes q = some m) (hk : m.kind = .internal) :
      Answer (.decbit bit) s (({ s with decPtr := q, decDepth := s.decDepth + 1, decValid := false
          } : State).replied (rspWord 0 0 0 0 (BitVec.ofNat 32 q)) [])
  | decend (s : State) (h : s.phase = .ready) :
      Answer .decend s ((pointerToRoot s).replied
        (rspWord 0 (if s.decDepth = 0 then 0 else 2) 0 0 (BitVec.ofNat 32 s.decDepth)) [])

theorem next_inj {s t : State} (h : (Host.Outcome.next s : Result) = .next t) : s = t := by
  injection h

/-- The end of BUILD, when it answers. -/
theorem finishBuild_cases {u t : State} {root : Nat} (e : finishBuild u root = .next t) :
    ∃ d, assignCodes { u with root := root } = .ok d ∧
      t = (pointerToRoot { u with root := root, dict := d, phase := .ready }).replied
        (rspWord 0 0 0 0 (BitVec.ofNat 32 root)) [] := by
  unfold finishBuild at e
  split at e
  · cases e
  · rename_i d hd
    rw [respond_plain] at e
    exact ⟨d, hd, (next_inj e).symm⟩

/-- BUILD's construction, when it answers: the merge loop ended with one member queued (R61). -/
theorem buildTree_cases {s t : State} (hn : s.nLeaves ≠ 0) (e : buildTree s = .next t) :
    ∃ nodes n root d, Assigned s nodes n root d ∧
      t = ({ s with
          nodes := nodes, nNodes := n, root := root, dict := d, phase := .ready, decPtr := root
          decDepth := 0, decValid := false } : State).replied
        (rspWord 0 0 0 0 (BitVec.ofNat 32 root)) [] := by
  unfold buildTree at e
  split at e
  · cases e
  · rename_i h hf
    have hlen := fillQueue_length hf
    split at e
    · cases e
    · rename_i hl
      exact absurd hl (mergeLoop_not_outOfNodes _ _ _ _)
    · rename_i u g hl
      have hg := mergeLoop_length (le_refl _) (by omega) hl
      split at e
      · rename_i he
        rw [heapExtractMin_none] at he
        subst he
        cases hg
      · rename_i k _ _
        obtain ⟨d, hd, ht⟩ := finishBuild_cases e
        obtain ⟨h1, h2, h3⟩ := mergeLoop_frame hl
        refine ⟨u.nodes, u.nNodes, k.idx, d, ⟨h2, h3, ?_⟩, ?_⟩
        · rw [h1] at hd
          exact hd
        · rw [h1] at ht
          exact ht

theorem appendLeaf_cases {s t : State} {x : Symbol} {f : BitVec 32}
    (e : appendLeaf x f s = .next t) :
    s.nLeaves < s.cfg.nodesMax ∧
      t = ({ s with nodes := Store.write s.nodes s.nLeaves (leafRecord x f)
                    nLeaves := s.nLeaves + 1, nNodes := s.nLeaves + 1 } : State).replied
        (rspWord 0 0 0 x (BitVec.ofNat 32 s.nLeaves)) [] := by
  by_cases hm : s.nLeaves < s.cfg.nodesMax
  · rw [appendLeaf_answers hm] at e
    exact ⟨hm, (next_inj e).symm⟩
  · simp [appendLeaf, writeNode, hm] at e

theorem appendCode_answer {s t : State} {x : Symbol} (h : s.phase = .ready) (ho : s.encOpen = true)
    (he : s.encErr = .none) (e : appendCode x s = .next t) : Answer (.enc x) s t := by
  unfold appendCode at e
  split at e
  · rename_i hr
    rw [raise_noSuchKey] at e
    cases next_inj e
    exact .encFails s x .noSuchKey h ho he (.inl ⟨rfl, hr⟩)
  · rename_i r hr
    split at e
    · rename_i hl
      rw [raise_overflow] at e
      cases next_inj e
      exact .encFails s x .overflow h ho he (.inr ⟨rfl, r, hr, hl⟩)
    · rename_i hl
      rw [respond_plain] at e
      cases next_inj e
      exact .encAppends s x r h ho he hr (by omega)

theorem arriveAt_answer {s t : State} {bit : Bool} {q : Nat} (h : s.phase = .ready)
    (hq : moveTarget s bit = .ok q) (e : arriveAt q s = .next t) : Answer (.decbit bit) s t := by
  cases hm : Store.read s.nodes q with
  | none => simp [arriveAt, readNode, hm] at e
  | some m =>
    cases hk : m.kind with
    | leaf =>
      rw [arriveAt_leaf hm hk] at e
      cases next_inj e
      exact .decEmits s bit q m h hq hm hk
    | internal =>
      rw [arriveAt_internal hm hk] at e
      cases next_inj e
      exact .decMoves s bit q m h hq hm hk

theorem refused_outside_ready {s : State} (h : s.phase ≠ .ready) {i : Instr}
    (hi : i = .encbeg ∨ (∃ x, i = .enc x) ∨ i = .encend ∨ i = .decbeg ∨ (∃ b, i = .decbit b) ∨
      i = .decend) : refusedWith i s = some seqWord := by
  rcases hi with rfl | ⟨x, rfl⟩ | rfl | rfl | ⟨b, rfl⟩ | rfl <;> simp [refusedWith, h]

/-- Every command that answers answers in one of these ways. -/
theorem exec_answer {i : Instr} {s t : State} (e : exec i s = .next t) : Answer i s t := by
  have seq : (i = .encbeg ∨ (∃ x, i = .enc x) ∨ i = .encend ∨ i = .decbeg ∨ (∃ b, i = .decbit b) ∨
      i = .decend) → s.phase ≠ .ready → Answer i s t := fun hi hp => by
    rw [exec_seq_outside_ready hp hi, raise_seq] at e
    cases next_inj e
    exact .refused i s seqWord (refused_outside_ready hp hi)
  cases i with
  | nop =>
    rw [exec, execNop, respond_zero] at e
    cases next_inj e
    exact .nop s
  | clear =>
    rw [exec, execClear, respond_zero] at e
    cases next_inj e
    exact .clear s
  | rdreg r =>
    rw [exec, execRdreg, respond_plain] at e
    cases next_inj e
    exact .rdreg s r
  | loadw x f =>
    rw [exec] at e
    cases hp : s.phase with
    | ready =>
      rw [execLoadw_ready hp, raise_seq] at e
      cases next_inj e
      exact .refused _ s seqWord (by simp [refusedWith, hp])
    | failed =>
      rw [execLoadw_failed hp, raise_weights] at e
      cases next_inj e
      exact .refused _ s (weightsWord s.tbReason) (by simp [refusedWith, hp])
    | load =>
      by_cases hn : s.nLeaves = s.cfg.nMax
      · rw [execLoadw_full hp hn, failTable_answers] at e
        cases next_inj e
        exact .tableFailed _ s .capacity hp (.inr ⟨.inl rfl, x, f, rfl⟩)
      · cases hb : symbolLoaded s x s.nLeaves with
        | error _ => simp [execLoadw, hp, hn, hb] at e
        | ok b =>
          rw [execLoadw_scanned hp hn hb] at e
          cases b with
          | true =>
            rw [if_pos rfl, failTable_answers] at e
            cases next_inj e
            exact .tableFailed _ s .duplicate hp (.inr ⟨.inr rfl, x, f, rfl⟩)
          | false =>
            obtain ⟨hm, rfl⟩ := appendLeaf_cases e
            exact .leaf s x f hp hn hb hm
  | build =>
    rw [exec] at e
    cases hp : s.phase with
    | ready =>
      rw [execBuild_ready hp, raise_seq] at e
      cases next_inj e
      exact .refused _ s seqWord (by simp [refusedWith, hp])
    | failed =>
      rw [execBuild_failed hp, raise_weights] at e
      cases next_inj e
      exact .refused _ s (weightsWord s.tbReason) (by simp [refusedWith, hp])
    | load =>
      rw [execBuild_load hp] at e
      split at e
      · rw [failTable_answers] at e
        cases next_inj e
        exact .tableFailed _ s .empty hp (.inl ⟨rfl, rfl, ‹_›⟩)
      · rename_i hn
        obtain ⟨nodes, n, root, d, ha, rfl⟩ := buildTree_cases hn e
        exact .built s nodes n root d hp hn ha
  | encbeg =>
    by_cases hp : s.phase = .ready
    · rw [exec, execEncbeg_ready hp] at e
      cases next_inj e
      exact .encbeg s hp
    · exact seq (by simp) hp
  | enc x =>
    by_cases hp : s.phase = .ready
    · rw [exec] at e
      cases ho : s.encOpen with
      | false =>
        rw [execEnc_closed hp ho, raise_seq] at e
        cases next_inj e
        exact .refused _ s seqWord (by simp [refusedWith, ho])
      | true =>
        by_cases he : s.encErr = .none
        · rw [execEnc_open hp ho he] at e
          exact appendCode_answer hp ho he e
        · rw [execEnc_error hp ho he] at e
          cases next_inj e
          exact .encRepeats s x hp ho he
    · exact seq (by simp) hp
  | encend =>
    by_cases hp : s.phase = .ready
    · rw [exec] at e
      cases ho : s.encOpen with
      | false =>
        rw [execEncend_closed hp ho, raise_seq] at e
        cases next_inj e
        exact .refused _ s seqWord (by simp [refusedWith, ho])
      | true =>
        by_cases he : s.encErr = .none
        · rw [execEncend_open hp ho he] at e
          cases next_inj e
          exact .encend s hp ho he
        · rw [execEncend_error hp ho he] at e
          cases next_inj e
          exact .encendFails s hp ho he
    · exact seq (by simp) hp
  | decbeg =>
    by_cases hp : s.phase = .ready
    · rw [exec, execDecbeg_ready hp] at e
      cases next_inj e
      exact .decbeg s hp
    · exact seq (by simp) hp
  | decbit bit =>
    by_cases hp : s.phase = .ready
    · rw [exec] at e
      cases hq : moveTarget s bit with
      | error _ => simp [execDecbit, hp, hq] at e
      | ok q =>
        rw [execDecbit_ready hp hq] at e
        exact arriveAt_answer hp hq e
    · exact seq (by simp) hp
  | decend =>
    by_cases hp : s.phase = .ready
    · rw [exec, execDecend_ready hp] at e
      cases next_inj e
      exact .decend s hp
    · exact seq (by simp) hp

/-- A command refused by R86's table returns that response and changes nothing else. -/
theorem refused_answers {i : Instr} {s : State} {w : Word} (h : refusedWith i s = some w) :
    exec i s = .next (s.replied w []) := by
  have seq : (i = .encbeg ∨ (∃ x, i = .enc x) ∨ i = .encend ∨ i = .decbeg ∨ (∃ b, i = .decbit b) ∨
      i = .decend) → s.phase ≠ .ready → w = seqWord → exec i s = .next (s.replied w []) :=
    fun hi hp hw => by rw [exec_seq_outside_ready hp hi, raise_seq, hw]; rfl
  cases i with
  | nop => simp [refusedWith] at h
  | clear => simp [refusedWith] at h
  | rdreg => simp [refusedWith] at h
  | loadw x f =>
    simp only [refusedWith] at h
    split at h <;> simp at h <;> subst h
    · rw [exec, execLoadw_ready ‹_›, raise_seq]; rfl
    · rw [exec, execLoadw_failed ‹_›, raise_weights]; rfl
  | build =>
    simp only [refusedWith] at h
    split at h <;> simp at h <;> subst h
    · rw [exec, execBuild_ready ‹_›, raise_seq]; rfl
    · rw [exec, execBuild_failed ‹_›, raise_weights]; rfl
  | encbeg =>
    simp only [refusedWith] at h
    split at h <;> simp at h
    exact seq (by simp) ‹_› h.symm
  | decbeg =>
    simp only [refusedWith] at h
    split at h <;> simp at h
    exact seq (by simp) ‹_› h.symm
  | decbit b =>
    simp only [refusedWith] at h
    split at h <;> simp at h
    exact seq (by simp) ‹_› h.symm
  | decend =>
    simp only [refusedWith] at h
    split at h <;> simp at h
    exact seq (by simp) ‹_› h.symm
  | enc x =>
    simp only [refusedWith] at h
    split at h <;> simp at h
    by_cases hp : s.phase = .ready
    · rw [exec, execEnc_closed hp (by simp_all), raise_seq, ← h]; rfl
    · exact seq (by simp) hp h.symm
  | encend =>
    simp only [refusedWith] at h
    split at h <;> simp at h
    by_cases hp : s.phase = .ready
    · rw [exec, execEncend_closed hp (by simp_all), raise_seq, ← h]; rfl
    · exact seq (by simp) hp h.symm

end Sys2Proof.Machine
end

