-- ==== Sys2Proof/Laws/Invariant.lean ====
section
/-! SUPPORT. What the invariant of `10_state.md` R29 gives at once, and that each change a command
makes to the state keeps it. -/

namespace Sys2Proof.Machine

/-- Outside phase READY there is no tree, no dictionary and no encoder or decoder state (R29 (b),
    (f)). -/
theorem Invariant.noTree {s : State} (hi : Invariant s) (h : s.phase ≠ .ready) : NoTree s := by
  have := hi.phase
  rcases not_ready h with h | h <;> simp only [PhaseOk, h] at this <;> exact this.1

/-- What holds in phase READY (R29 (c) to (e)). -/
theorem Invariant.ready {s : State} (hi : Invariant s) (h : s.phase = .ready) :
    s.tbReason = .none ∧ TreeOk s ∧ DictionaryOk s ∧ EncoderOk s ∧ DecoderOk s := by
  have := hi.phase
  simpa only [PhaseOk, h] using this

/-- The invariant reads neither side of the port. -/
theorem Invariant.port {s t : State} (h : t = { s with cmds := t.cmds, replies := t.replies })
    (hi : Invariant s) : Invariant t := by
  rw [h]
  obtain ⟨h1,h2,h3,h4,h5,h6,h7,h8,h9,h10⟩ := hi
  refine ⟨h1,h2,h3,h4,h5,h6,h7,h8,h9,?_⟩
  unfold PhaseOk at *
  cases hp : s.phase
  · simp only [hp] at h10 ⊢
    obtain ⟨⟨a1,a2,a3,a4,a5,a6,a7,a8,a9,a10,a11,a12⟩, b⟩ := h10
    exact ⟨⟨a1,a2,a3,a4,a5,a6,a7,a8,a9,a10,a11,a12⟩, b⟩
  · simp only [hp] at h10 ⊢
    obtain ⟨a, ⟨b1,b2,b3,b4,b5⟩, ⟨c1,c2⟩, ⟨d1,d2,d3,d4,d5⟩, ⟨e1,e2,e3,e4,e5,e6,e7⟩⟩ := h10
    exact ⟨a, ⟨b1,b2,b3,b4,b5⟩, ⟨c1,c2⟩, ⟨d1,d2,d3,d4,d5⟩, ⟨e1,e2,e3,e4,e5,e6,e7⟩⟩
  · simp only [hp] at h10 ⊢
    obtain ⟨⟨a1,a2,a3,a4,a5,a6,a7,a8,a9,a10,a11,a12⟩, b⟩ := h10
    exact ⟨⟨a1,a2,a3,a4,a5,a6,a7,a8,a9,a10,a11,a12⟩, b⟩

/-- A reply changes nothing the invariant reads. -/
theorem Invariant.replied {s : State} {w b} (hi : Invariant s) :
    Invariant (s.replied w b) := Invariant.port rfl hi

/-- Only the encoder part changes, and keeps its form. -/
theorem Invariant.encoder {s t : State} (hi : Invariant s) (hp : s.phase = .ready)
    (h : SameButEncoder s t) (he : EncoderOk t) : Invariant t := by
  obtain ⟨h1,h2,h3,h4,h5,h6,h7,h8,h9,h10⟩ := hi
  simp only [PhaseOk, hp] at h10
  obtain ⟨a, ⟨b1,b2,b3,b4,b5⟩, ⟨c1,c2⟩, _, ⟨e1,e2,e3,e4,e5,e6,e7⟩⟩ := h10
  have ht : PhaseOk t := by
    have : t.phase = .ready := by rw [h]; exact hp
    simp only [PhaseOk, this]
    refine ⟨by rw [h]; exact a, by rw [h]; exact ⟨b1,b2,b3,b4,b5⟩, by rw [h]; exact ⟨c1,c2⟩, he,
        by rw [h]; exact ⟨e1,e2,e3,e4,e5,e6,e7⟩⟩
  refine ⟨?_, ?_, ?_, ?_, ?_, ?_, ?_, ?_, ?_, ht⟩ <;> rw [h] <;> assumption

/-- Only the decoder part changes, and keeps its form. -/
theorem Invariant.decoder {s t : State} (hi : Invariant s) (hp : s.phase = .ready)
    (h : SameButDecoder s t) (he : DecoderOk t) : Invariant t := by
  obtain ⟨h1,h2,h3,h4,h5,h6,h7,h8,h9,h10⟩ := hi
  simp only [PhaseOk, hp] at h10
  obtain ⟨a, ⟨b1,b2,b3,b4,b5⟩, ⟨c1,c2⟩, ⟨e1,e2,e3,e4,e5⟩, _⟩ := h10
  have ht : PhaseOk t := by
    have : t.phase = .ready := by rw [h]; exact hp
    simp only [PhaseOk, this]
    refine ⟨by rw [h]; exact a, by rw [h]; exact ⟨b1,b2,b3,b4,b5⟩, by rw [h]; exact ⟨c1,c2⟩,
        by rw [h]; exact ⟨e1,e2,e3,e4,e5⟩, he⟩
  refine ⟨?_, ?_, ?_, ?_, ?_, ?_, ?_, ?_, ?_, ht⟩ <;> rw [h] <;> assumption

/-- The root is one of the nodes. -/
theorem TreeOk.root_lt {s : State} (t : TreeOk s) : s.root < s.nNodes := by
  have := t.root; have := t.count; have := t.some_leaf; omega

/-- In phase READY a leaf record is at a leaf index. -/
theorem Invariant.leaf_lt {s : State} (hi : Invariant s) {k : Nat} {nd : Node}
    (hr : Store.read s.nodes k = some nd) :
    (nd.kind = .leaf → s.phase = .ready → k < s.nLeaves) := by
  intro hk hp
  by_contra hc
  obtain ⟨_, ht, _⟩ := Invariant.ready hi hp
  have hk' : k < s.nNodes := (hi.held k).mp (by simp [hr])
  obtain ⟨nd', hr', h1, _⟩ := ht.internals k (by omega) hk'
  rw [hr] at hr'; cases hr'; rw [hk] at h1; cases h1

/-- Below `n_leaves` every record is a leaf record. -/
theorem Invariant.leaf_record {s : State} (hi : Invariant s) {k : Nat} {nd : Node}
    (hr : Store.read s.nodes k = some nd) (hk : k < s.nLeaves) : IsLeafRecord s.cfg nd := by
  obtain ⟨nd', h1, h2⟩ := hi.leaves k hk
  rw [hr] at h1; cases h1; exact h2

/-- An internal record is at `n_leaves` or above. -/
theorem Invariant.internal_ge {s : State} (hi : Invariant s) {k : Nat} {nd : Node}
    (hr : Store.read s.nodes k = some nd) (hk : nd.kind = .internal) : s.nLeaves ≤ k := by
  by_contra hc
  have := (Invariant.leaf_record hi hr (by omega)).1
  rw [hk] at this; cases this

/-- Children are older than their parents (R29 (c)). -/
theorem Invariant.descends {s : State} (hi : Invariant s) (hp : s.phase = .ready) :
    ∀ k nd, Store.read s.nodes k = some nd → nd.kind = .internal → nd.left < k ∧ nd.right < k := by
  intro k nd hr hk
  obtain ⟨_, ht, _⟩ := Invariant.ready hi hp
  obtain ⟨nd', hr', h1, _, h2, h3, _⟩ := ht.internals k (Invariant.internal_ge hi hr hk) ((hi.held k).mp
      (by simp [hr]))
  rw [hr] at hr'; cases hr'; exact ⟨h2, h3⟩

/-- The decoder after an emit (R75). -/
theorem Invariant.emitted {s : State} (hi : Invariant s) (hp : s.phase = .ready) {q m}
    (hm : Store.read s.nodes q = some m) (hk : m.kind = .leaf) :
    DecoderOk ({ s with
      decSym := m.sym, decLeaf := q, decValid := true, decPtr := s.root, decDepth := 0 } : State) := by
  have hl := Invariant.leaf_lt hi hm hk hp
  refine ⟨.inl rfl, ⟨[], rfl, rfl⟩, by simp, Nat.zero_le _, hl, (Invariant.leaf_record hi hm hl).2.2.1,
      fun _ => ⟨m, hm, rfl⟩⟩

/-- A move from an internal node is one decision further from the root (R75). -/
theorem moveTarget_walk {s : State} {bit q} {nd : Node} (hr : Store.read s.nodes s.decPtr = some nd)
    (hk : nd.kind = .internal)
    (hd : ∃ path : Bits, path.length = s.decDepth ∧ walk s.nodes s.root path = some s.decPtr)
    (hq : moveTarget s bit = .ok q) :
    ∃ path : Bits, path.length = s.decDepth + 1 ∧ walk s.nodes s.root path = some q := by
  obtain ⟨path, h1, h2⟩ := hd
  rw [moveTarget_internal hr hk] at hq
  cases hq
  refine ⟨path ++ [bit], by simp [h1], ?_⟩
  rw [walk_append, h2]; simp [walk_internal hr hk]

/-- A walk from the root to an internal node is shorter than CODE_MAX (R29 (d)). -/
theorem Invariant.walk_bound {s : State} (hi : Invariant s) (hp : s.phase = .ready) {path q}
    (h : walk s.nodes s.root path = some q) (hq : s.nLeaves ≤ q) :
    path.length ≤ s.cfg.codeMax - 1 := by
  have h1 := walk_descends (Invariant.descends hi hp) h
  obtain ⟨_, ht, _⟩ := Invariant.ready hi hp
  have := ht.root; have := ht.count; have := ht.some_leaf; have := hi.leaves_max
  unfold Config.codeMax
  omega

/-- In phase READY no walk is longer than CODE_MAX. -/
theorem Invariant.walk_length {s : State} (hi : Invariant s) (hp : s.phase = .ready) {path k}
    (hw : walk s.nodes s.root path = some k) : path.length ≤ s.cfg.codeMax := by
  rcases List.eq_nil_or_concat path with rfl | ⟨as, b, rfl⟩
  · simp
  · rw [List.concat_eq_append, walk_append] at hw
    cases hq : walk s.nodes s.root as with
    | none => rw [hq] at hw; cases hw
    | some q =>
      rw [hq] at hw
      obtain ⟨n, hn, hki, _⟩ := walk_cons_some (show walk s.nodes q (b :: []) = some k from hw)
      have := hi.walk_bound hp hq (hi.internal_ge hn hki)
      have : 1 ≤ s.cfg.codeMax := by unfold Config.codeMax; omega
      simp only [List.concat_eq_append, List.length_append, List.length_singleton]; omega

/-- A stack whose paths get shorter from the top down, the last not empty, is no longer than its longest
path. -/
theorem stack_length_le (st : List (Nat × Bits)) (k : Nat)
    (hp : st.Pairwise (fun a b => b.2.length < a.2.length))
    (hk : ∀ e ∈ st, 1 ≤ e.2.length ∧ e.2.length ≤ k) : st.length ≤ k := by
  induction st generalizing k with
  | nil => exact Nat.zero_le _
  | cons e st ih =>
    rw [List.pairwise_cons] at hp
    have h1 := hk e (by simp)
    have := ih (e.2.length - 1) hp.2 fun x hx =>
      ⟨(hk x (by simp [hx])).1, by have := hp.1 x hx; omega⟩
    simp only [List.length_cons]; omega

/-- The decoder after a move without an emit (R75). -/
theorem Invariant.moved {s : State} (hi : Invariant s) (hp : s.phase = .ready) {bit q m}
    (hq : moveTarget s bit = .ok q) (hm : Store.read s.nodes q = some m)
    (hk : m.kind = .internal) :
    DecoderOk ({ s with decPtr := q, decDepth := s.decDepth + 1, decValid := false } : State) := by
  obtain ⟨_, ht, _, _, hd⟩ := Invariant.ready hi hp
  have hql := Invariant.internal_ge hi hm hk
  have hqn : q < s.nNodes := (hi.held q).mp (by simp [hm])
  have hmt := hq
  unfold moveTarget at hmt
  split at hmt
  · cases hmt
  · rename_i nd hr
    rw [readNode_ok] at hr
    cases hk2 : nd.kind with
    | leaf =>
      rw [moveTarget_leaf hr hk2] at hq
      cases hq
      rw [hr] at hm; cases hm; rw [hk2] at hk; cases hk
    | internal =>
      obtain ⟨path, h1, h2⟩ := moveTarget_walk hr hk2 hd.depth hq
      have hb := Invariant.walk_bound hi hp h2 hql
      have hw := walk_descends (Invariant.descends hi hp) h2
      refine ⟨.inr ⟨hql, hqn⟩, ⟨path, h1, h2⟩, ?_, ?_, hd.leaf, hd.symbol, by simp⟩
      · simp; omega
      · show s.decDepth + 1 ≤ _; rw [← h1]; exact hb

/-- The decoder after DECBEG and DECEND (R74, R76). -/
theorem Invariant.at_root {s : State} (hi : Invariant s) (hp : s.phase = .ready) : DecoderOk
    (pointerToRoot s) := by
  obtain ⟨_, ht, _, _, hd⟩ := Invariant.ready hi hp
  refine ⟨.inl rfl, ⟨[], rfl, rfl⟩, by simp [pointerToRoot], Nat.zero_le _, hd.leaf, hd.symbol,
      by simp [pointerToRoot]⟩

/-- LOADW of a new symbol into a table that is not full keeps the invariant (R55). -/
theorem Invariant.leaf_appended {s : State} (hi : Invariant s) (hp : s.phase = .load)
    (hn : s.nLeaves ≠ s.cfg.nMax) {x f}
    (hd : symbolLoaded s x s.nLeaves = .ok false) (hx : x.toNat < 2 ^ s.cfg.symW)
    (hf : f.toNat < 2 ^ s.cfg.freqW) :
    Invariant ({ s with
      nodes := Store.write s.nodes s.nLeaves (leafRecord x f)
      nLeaves := s.nLeaves + 1, nNodes := s.nLeaves + 1 } : State) := by
  have hnt := Invariant.noTree hi (by simp [hp])
  have hcnt := hnt.nodes_are_leaves
  have hrd : ∀ k, Store.read (Store.write s.nodes s.nLeaves
      (leafRecord x f)) k = if k = s.nLeaves then some (leafRecord x f) else Store.read s.nodes k :=
    fun k => Store.read_write _ _ _ _
  obtain ⟨b, hb, hiff⟩ := symbolLoaded_answers (s := s) (n := s.nLeaves) (fun k hk =>
      (hi.leaves k hk).imp fun _ h => h.1) x
  rw [hd] at hb; cases hb
  have hnot : ∀ k nd, k < s.nLeaves → Store.read s.nodes k = some nd → nd.sym ≠ x := by
    intro k nd h1 h2 h3
    have := hiff.mpr ⟨k, nd, h1, h2, h3⟩; cases this
  clear hiff
  have hm := hi.leaves_max
  have hfw : f.toNat < 2 ^ s.cfg.sumW := hf.trans_le (Nat.pow_le_pow_right (n := 2) (by omega)
      (by unfold Config.sumW; omega))
  refine ⟨hi.cfg, Store.wf_write _ _ _ hi.nodes_wf, hi.dict_wf, ?_, ?_, ?_, ?_, ?_, ?_, ?_⟩
  · show s.nLeaves + 1 ≤ s.cfg.nMax; omega
  · show s.nLeaves + 1 ≤ s.cfg.nodesMax; unfold Config.nodesMax; omega
  · intro k
    have := hi.held k
    simp only [hrd]
    split
    · simp; omega
    · rw [this]; omega
  · intro k hk
    simp only [hrd]
    simp only at hk
    split
    · exact ⟨_, rfl, rfl, hf, hx, rfl, rfl⟩
    · exact hi.leaves k (by omega)
  · intro i j a b hi1 hj1 ha hb hab
    simp only [hrd] at ha hb
    simp only at hi1 hj1
    split at ha <;> split at hb
    · omega
    · cases ha; exact absurd hab.symm (hnot j b (by omega) hb)
    · cases hb; exact absurd hab (hnot i a (by omega) ha)
    · exact hi.symbols_differ i j a b (by omega) (by omega) ha hb hab
  · intro k nd hr
    simp only [hrd] at hr
    split at hr
    · cases hr; exact hfw
    · exact hi.freq_fits k nd hr
  · have := hi.phase
    simp only [PhaseOk, hp] at this ⊢
    obtain ⟨⟨a1,a2,a3,a4,a5,a6,a7,a8,a9,a10,a11,a12⟩, b⟩ := this
    exact ⟨⟨rfl,a2,a3,a4,a5,a6,a7,a8,a9,a10,a11,a12⟩, b⟩

/-- A failed construction keeps the invariant (R97). -/
theorem Invariant.table_failed {s : State} (hi : Invariant s) (hp : s.phase = .load) {r}
    (hr : r = .empty ∨ r = .duplicate ∨ r = .capacity) :
    Invariant ({ s with phase := .failed, tbReason := r } : State) := by
  have := hi.phase
  obtain ⟨h1,h2,h3,h4,h5,h6,h7,h8,h9,h10⟩ := hi
  refine ⟨h1,h2,h3,h4,h5,h6,h7,h8,h9,?_⟩
  simp only [PhaseOk, hp] at this ⊢
  obtain ⟨⟨a1,a2,a3,a4,a5,a6,a7,a8,a9,a10,a11,a12⟩, b⟩ := this
  exact ⟨⟨a1,a2,a3,a4,a5,a6,a7,a8,a9,a10,a11,a12⟩, hr⟩

/-- The dictionary a finished tree gives (R66, R67). -/
theorem Invariant.dictionary {s t : State} (hi : Invariant s) (hnt : NoTree s) {k : Key} {T : Nat} {L :
    List (Nat × Bits)}
    (hok : MergeOk s t [k] T) (hk : k.idx + 1 = t.nNodes) (hc : t.nNodes = 2 * s.nLeaves - 1)
    (h1 : 1 ≤ s.nLeaves)
    (hb : Below t.nodes k.idx L t.nNodes) (hL : (L.map Prod.fst).Perm (List.range s.nLeaves)) :
    Store.wf (finishedDict t k.idx L) ∧ DictionaryOk (builtState t k.idx L) := by
  have htcfg : t.cfg = s.cfg := by rw [hok.only]
  have htl : t.nLeaves = s.nLeaves := by rw [hok.only]
  have htd : t.dict = [] := by rw [hok.only]; exact hnt.dict
  have hread : ∀ q, q < s.nLeaves → ∃ nd, Store.read t.nodes q = some nd ∧
      IsLeafRecord s.cfg nd := fun q hq => by
    rw [hok.old q hq]; exact hi.leaves q hq
  have hleaf : ∀ q nd, q < s.nLeaves → Store.read t.nodes q = some nd →
      IsLeafRecord s.cfg nd := fun q nd hq hr => by
    obtain ⟨nd', h, h'⟩ := hread q hq; rw [hr] at h; cases h; exact h'
  have hmax := hi.leaves_max
  by_cases hone : s.nLeaves = 1
  · -- lone leaf
    have hk0 : k.idx = 0 := by omega
    obtain ⟨nd, hr, hl⟩ := hread 0 (by omega)
    have hfd : finishedDict t k.idx L = [(nd.sym.toNat, dictRecord s.cfg [false])] := by
      simp only [finishedDict, hk0, hr, hl.1, htd, htcfg]; rfl
    rw [hfd]
    refine ⟨by simp [Store.wf], ?_, ?_⟩
    · intro x
      simp only [builtState, pointerToRoot, hfd, Store.read]
      constructor
      · intro h
        split at h
        · rename_i hx
          exact ⟨nd.sym, ⟨0, nd, by simp [htl, hone], hr, rfl⟩, hx.symm⟩
        · simp at h
      · rintro ⟨y, ⟨j, nd', hj, hr', rfl⟩, rfl⟩
        simp only [htl, hone] at hj
        have : j = 0 := by omega
        subst this
        simp only at hr'
        rw [hr] at hr'; cases hr'; simp
    · intro j nd' hj hr'
      simp only [builtState, pointerToRoot, htl, hone] at hj hr' ⊢
      have : j = 0 := by omega
      subst this
      rw [hr] at hr'; cases hr'
      refine ⟨[false], ?_, by simp, ?_, by simp, by omega⟩
      · rw [hfd, htcfg]; simp [Store.read]
      · rw [htcfg]; simp [Config.codeMax]
  · -- internal root
    have hkge : s.nLeaves ≤ k.idx := by omega
    obtain ⟨nd, hr, hint⟩ := hok.internals k.idx hkge (by omega)
    have hfd : finishedDict t k.idx L = writeCodes t [] L [] := by
      simp only [finishedDict, hr, hint.1, htd]
    have hnd : (L.map Prod.fst).Nodup := hL.nodup_iff.mpr List.nodup_range
    have hlen : L.length = s.nLeaves := by simpa using hL.length_eq
    have hlt : ∀ q e, (q, e) ∈ L → q < s.nLeaves := fun q e h =>
      List.mem_range.mp (hL.mem_iff.mp (List.mem_map.mpr ⟨_, h, rfl⟩))
    have hmem : ∀ q nd e, (q, e) ∈ L → Store.read t.nodes q = some nd →
        Store.read (finishedDict t k.idx L) nd.sym.toNat = some (dictRecord s.cfg e) := by
      intro q nd e hm hr
      rw [hfd, writeCodes_mem t [] L [] ?_ hnd hm hr, htcfg]; rfl
      intro q q' e e' a b h1 h2 h3 h4 h5
      refine hi.symbols_differ q q' a b (hlt _ _ h1) (hlt _ _ h2) ?_ ?_ h5
      · rw [← hok.old q (hlt _ _ h1)]; exact h3
      · rw [← hok.old q' (hlt _ _ h2)]; exact h4
    have hex : ∀ q, q < s.nLeaves → ∃ e, (q, e) ∈ L := fun q hq => by
      have := hL.mem_iff.mpr (List.mem_range.mpr hq)
      obtain ⟨⟨q', e⟩, h, rfl⟩ := List.mem_map.mp this
      exact ⟨e, h⟩
    refine ⟨by rw [hfd]; exact wf_writeCodes _ _ _ _ Store.wf_nil, ?_, ?_⟩
    · intro x
      constructor
      · intro h
        by_contra hno
        have hx : Store.read (finishedDict t k.idx L) x = none := by
          rw [hfd, writeCodes_other]
          · rfl
          · intro q e nd hm hr hs
            exact hno ⟨nd.sym, ⟨q, nd, by simp only [builtState, pointerToRoot, htl]; exact hlt _ _ hm,
                hr, rfl⟩, hs⟩
        simp only [builtState, pointerToRoot] at h
        rw [hx] at h; simp at h
      · rintro ⟨y, ⟨j, nd', hj, hr', rfl⟩, rfl⟩
        simp only [builtState, pointerToRoot, htl] at hj hr' ⊢
        obtain ⟨e, he⟩ := hex j hj
        rw [hmem j nd' e he hr']; rfl
    · intro j nd' hj hr'
      simp only [builtState, pointerToRoot, htl] at hj hr' ⊢
      obtain ⟨e, he⟩ := hex j hj
      obtain ⟨hw, hel, _⟩ := hb.spec.2 j e he
      have hl := hb.long hr hint.1 j e he
      refine ⟨e, by rw [htcfg]; exact hmem j nd' e he hr', hl, ?_, by omega, fun _ => hw⟩
      rw [htcfg]; unfold Config.codeMax; omega

/-- A finished BUILD keeps the invariant (R56). -/
theorem Invariant.built {s t : State} (hi : Invariant s) (hp : s.phase = .load) {k : Key} {T :
    Nat} {L : List (Nat × Bits)}
    (hok : MergeOk s t [k] T) (hT : T < 2 ^ s.cfg.sumW) (hk : k.idx + 1 = t.nNodes)
    (hc : t.nNodes = 2 * s.nLeaves - 1) (h1 : 1 ≤ s.nLeaves)
    (hb : Below t.nodes k.idx L t.nNodes) (hL : (L.map Prod.fst).Perm (List.range s.nLeaves)) : Invariant
       (builtState t k.idx L) := by
  have hnt := Invariant.noTree hi (by simp [hp])
  have htcfg : t.cfg = s.cfg := by rw [hok.only]
  have htl : t.nLeaves = s.nLeaves := by rw [hok.only]
  obtain ⟨hdw, hdict⟩ := Invariant.dictionary hi hnt hok hk hc h1 hb hL
  have hmax := hi.leaves_max
  refine ⟨by simp [builtState, pointerToRoot, htcfg]; exact hi.cfg, hok.wf, hdw, ?_, ?_, ?_, ?_, ?_,
      ?_, ?_⟩
  · simp [builtState, htcfg, htl, hmax]
  · simp only [builtState, pointerToRoot, htcfg, Config.nodesMax]; omega
  · exact hok.held
  · intro q hq
    simp only [builtState, pointerToRoot, htl, htcfg] at hq ⊢
    rw [hok.old q hq]; exact hi.leaves q hq
  · intro i j a b h1 h2 h3 h4
    simp only [builtState, pointerToRoot, htl] at h1 h2 h3 h4
    rw [hok.old _ h1] at h3; rw [hok.old _ h2] at h4
    exact hi.symbols_differ i j a b h1 h2 h3 h4
  · intro q nd hr
    have := hok.fits q nd hr
    simp only [builtState, pointerToRoot, htcfg]; omega
  · have hph : PhaseOk s := hi.phase
    have hr0 : s.tbReason = .none := by simp only [PhaseOk, hp] at hph; exact hph.2
    simp only [PhaseOk, builtState, pointerToRoot]
    refine ⟨by rw [hok.only]; exact hr0, ⟨by show 1 ≤ t.nLeaves; omega,
        by show t.nNodes = 2 * t.nLeaves - 1; omega, by show k.idx = t.nNodes - 1; omega, ?_, ?_⟩,
        hdict, ?_, ?_⟩
    · intro q h1 h2
      simp only [htl] at h1
      exact hok.internals q h1 h2
    · simp only [htl]; exact hok.one_tree hk
    · have e1 : t.encOpen = false := by rw [hok.only]; exact hnt.encOpen
      have e2 : t.encErr = .none := by rw [hok.only]; exact hnt.encErr
      have e3 : t.encErrSym = 0 := by rw [hok.only]; exact hnt.encErrSym
      have e4 : t.encBuf = [] := by rw [hok.only]; exact hnt.encBuf
      refine ⟨by simp [e4], by simp [e2], by simp [e2, e4], by simp [e3], by simp [e3]⟩
    · have e1 : t.decSym = 0 := by rw [hok.only]; exact hnt.decSym
      have e2 : t.decLeaf = 0 := by rw [hok.only]; exact hnt.decLeaf
      refine ⟨.inl rfl, ⟨[], rfl, rfl⟩, by simp, Nat.zero_le _, by simp only [e2, htl]; omega,
          by simp [e1], by simp⟩

end Sys2Proof.Machine
end

