-- ==== Sys2Proof/Laws/PerInstr.lean ====
section
/-! SUPPORT. What holds of the word of every command, one lemma per constructor: its four fields
(`30_encoding.md` R43, R48, R52), and that a well-formed command's word has none of the bits set that
R49 requires to be zero. -/

open Sys2Proof Sys2Proof.Machine

/-- The fields of a command's word are its opcode, zeros, its symbol and its immediate. -/
def Sys2Proof.Laws.EncodeFields.Statement (i : Instr) : Prop :=
  cmdOp (encode i) = i.opcode ∧ cmdRsvd0 (encode i) = 0 ∧
  cmdSym (encode i) = i.symField ∧ cmdImm (encode i) = i.immField ∧
  ∀ (c : Config) (b : Nat), i.wellFormed c = true → mustBeZero c i.opcode.toNat b →
    (encode i).getLsbD b = false

namespace Sys2Proof.Laws

theorem cmdSym_bit (w : Word) (i : Nat) (h : i < 16) :
    (cmdSym w).getLsbD i = w.getLsbD (32 + i) := by
  simp [cmdSym, h]

theorem cmdImm_bit (w : Word) (i : Nat) (h : i < 32) : (cmdImm w).getLsbD i = w.getLsbD i := by
  simp [cmdImm, h]

/-- The fields are those of any command; the bits are those of a symbol and an immediate that fit. -/
theorem encodeFields_of_fits (i : Instr)
    (h : ∀ (c : Config) (b : Nat), i.wellFormed c = true → mustBeZero c i.opcode.toNat b →
      (32 ≤ b ∧ b < 48 ∧ i.symField.getLsbD (b - 32) = false) ∨
      (b < 32 ∧ i.immField.getLsbD b = false)) : EncodeFields.Statement i := by
  refine ⟨cmdOp_mkCmd .., cmdRsvd0_mkCmd .., cmdSym_mkCmd .., cmdImm_mkCmd .., fun c b hw hb => ?_⟩
  rcases h c b hw hb with ⟨h1, h2, h3⟩ | ⟨h1, h2⟩
  · have := cmdSym_bit (encode i) (b - 32) (by omega)
    rw [encode, cmdSym_mkCmd, h3, Nat.add_sub_cancel' h1] at this
    exact this.symm
  · have := cmdImm_bit (encode i) b h1
    rw [encode, cmdImm_mkCmd, h2] at this
    exact this.symm

/-- A command without operands: both fields are zero. -/
theorem encodeFields_plain (i : Instr) (hs : i.symField = 0) (hi : i.immField = 0)
    (hm : ∀ (c : Config) (b : Nat), mustBeZero c i.opcode.toNat b → b < 48) :
    EncodeFields.Statement i := by
  refine encodeFields_of_fits i fun c b _ hb => ?_
  have := hm c b hb
  rw [hs, hi]
  by_cases h : b < 32
  · exact .inr ⟨h, by simp⟩
  · exact .inl ⟨by omega, this, by simp⟩

theorem EncodeFields.nop : EncodeFields.Statement .nop := encodeFields_plain _ rfl rfl fun _ _ h => h

theorem EncodeFields.clear : EncodeFields.Statement .clear :=
  encodeFields_plain _ rfl rfl fun _ _ h => h

theorem EncodeFields.loadw (sym : Symbol) (freq : BitVec 32) :
    EncodeFields.Statement (.loadw sym freq) := by
  refine encodeFields_of_fits _ fun c b hw hb => ?_
  simp only [Instr.wellFormed, Bool.and_eq_true] at hw
  change (32 + c.symW ≤ b ∧ b < 48) ∨ (c.freqW ≤ b ∧ b < 32) at hb
  rcases hb with h | h
  · exact .inl ⟨by omega, h.2, (fitsIn_iff _ _).mp hw.1 _ (by omega)⟩
  · exact .inr ⟨h.2, (fitsIn_iff _ _).mp hw.2 _ h.1⟩

theorem EncodeFields.build : EncodeFields.Statement .build :=
  encodeFields_plain _ rfl rfl fun _ _ h => h

theorem EncodeFields.encbeg : EncodeFields.Statement .encbeg :=
  encodeFields_plain _ rfl rfl fun _ _ h => h

theorem EncodeFields.enc (sym : Symbol) : EncodeFields.Statement (.enc sym) := by
  refine encodeFields_of_fits _ fun c b hw hb => ?_
  change (32 + c.symW ≤ b ∧ b < 48) ∨ b < 32 at hb
  rcases hb with h | h
  · exact .inl ⟨by omega, h.2, (fitsIn_iff _ _).mp hw _ (by omega)⟩
  · exact .inr ⟨h, by simp [Instr.immField]⟩

theorem EncodeFields.encend : EncodeFields.Statement .encend :=
  encodeFields_plain _ rfl rfl fun _ _ h => h

theorem EncodeFields.decbeg : EncodeFields.Statement .decbeg :=
  encodeFields_plain _ rfl rfl fun _ _ h => h

theorem EncodeFields.decbit (bit : Bool) : EncodeFields.Statement (.decbit bit) := by
  refine encodeFields_of_fits _ fun c b hw hb => ?_
  change (32 ≤ b ∧ b < 48) ∨ (1 ≤ b ∧ b < 32) at hb
  rcases hb with h | h
  · exact .inl ⟨h.1, h.2, by simp [Instr.symField]⟩
  · refine .inr ⟨h.2, (fitsIn_iff 1 (Instr.decbit bit).immField).mp ?_ b h.1⟩
    cases bit <;> decide

theorem EncodeFields.decend : EncodeFields.Statement .decend :=
  encodeFields_plain _ rfl rfl fun _ _ h => h

theorem EncodeFields.rdreg (reg : StatusReg) : EncodeFields.Statement (.rdreg reg) := by
  refine encodeFields_of_fits _ fun c b hw hb => ?_
  change (32 ≤ b ∧ b < 48) ∨ (4 ≤ b ∧ b < 32) at hb
  rcases hb with h | h
  · exact .inl ⟨h.1, h.2, by simp [Instr.symField]⟩
  · refine .inr ⟨h.2, (fitsIn_iff 4 (Instr.rdreg reg).immField).mp ?_ b h.1⟩
    cases reg <;> decide

end Sys2Proof.Laws
end

