-- ==== Sys2Proof/Laws/Port.lean ====
section
/-! SUPPORT. No command looks at the host's two sides of the port: with other commands waiting and other
replies given, it does the same and gives the same reply (`20_memory.md` R40, log entries 2 and 3). -/

namespace Sys2Proof.Machine

/-- The state with these commands waiting and these replies given. -/
def onPort (s : State) (c : List Word) (r : List Reply) : State := { s with cmds := c, replies := r }

@[simp] theorem onPort_self (s : State) : onPort s s.cmds s.replies = s := rfl
@[simp] theorem onPort_onPort (s : State) (c d : List Word) (r q : List Reply) :
    onPort (onPort s c r) d q = onPort s d q := rfl
@[simp] theorem onPort_cfg (s : State) (c : List Word) (r : List Reply) : (onPort s c r).cfg = s.cfg := rfl
@[simp] theorem onPort_phase (s : State) (c : List Word) (r : List Reply) :
    (onPort s c r).phase = s.phase := rfl
@[simp] theorem onPort_nodes (s : State) (c : List Word) (r : List Reply) :
    (onPort s c r).nodes = s.nodes := rfl
@[simp] theorem onPort_dict (s : State) (c : List Word) (r : List Reply) :
    (onPort s c r).dict = s.dict := rfl
@[simp] theorem onPort_nLeaves (s : State) (c : List Word) (r : List Reply) :
    (onPort s c r).nLeaves = s.nLeaves := rfl
@[simp] theorem onPort_nNodes (s : State) (c : List Word) (r : List Reply) :
    (onPort s c r).nNodes = s.nNodes := rfl
@[simp] theorem onPort_cmds (s : State) (c : List Word) (r : List Reply) : (onPort s c r).cmds = c := rfl
@[simp] theorem onPort_replies (s : State) (c : List Word) (r : List Reply) :
    (onPort s c r).replies = r := rfl

theorem readNode_congr {s t : State} (h : s.nodes = t.nodes) (i : Nat) :
    readNode s i = readNode t i := by
  simp only [readNode, h]

theorem symbolLoaded_congr {s t : State} (h : s.nodes = t.nodes) (x : Symbol) (n : Nat) :
    symbolLoaded s x n = symbolLoaded t x n := by
  induction n with
  | zero => rfl
  | succ n ih => simp only [symbolLoaded, readNode_congr h, ih]

theorem fillQueue_congr {s t : State} (h : s.nodes = t.nodes) (n : Nat) :
    fillQueue s n = fillQueue t n := by
  induction n with
  | zero => rfl
  | succ n ih => simp only [fillQueue, readNode_congr h, ih]

theorem assignLoop_congr {s t : State} (h : s.nodes = t.nodes) (hc : s.cfg = t.cfg) (fuel : Nat)
    (stack : List (Nat × Bits)) (d : Store DictEntry) :
    assignLoop s fuel stack d = assignLoop t fuel stack d := by
  induction fuel generalizing stack d with
  | zero => cases stack <;> rfl
  | succ n ih =>
    cases stack with
    | nil => rfl
    | cons e stack => simp only [assignLoop, assignTurn, readNode_congr h, hc, ih]

/-- The code assignment depends on the tree, the configuration and the dictionary before it alone. -/
theorem assignCodes_congr {s t : State} (h : s.nodes = t.nodes) (hc : s.cfg = t.cfg)
    (hr : s.root = t.root) (hn : s.nNodes = t.nNodes) (hd : s.dict = t.dict) :
    assignCodes s = assignCodes t := by
  simp only [assignCodes, readNode_congr h, assignLoop_congr h hc, hc, hr, hn, hd]

theorem mergeStep_port {s t : State} {h g : Heap} (e : mergeStep s h = .done t g) (c : List Word)
    (r : List Reply) : mergeStep (onPort s c r) h = .done (onPort t c r) g := by
  unfold mergeStep at e ⊢
  split at e
  · cases e
  · split at e
    · cases e
    · split at e
      · cases e
      · rename_i t' hw
        obtain ⟨hlt, rfl⟩ := (writeNode_ok _ _ _ _).mp hw
        cases e
        simp only [writeNode, onPort_nNodes, onPort_cfg, hlt, if_true]
        rfl

theorem mergeLoop_port {fuel : Nat} {s t : State} {h g : Heap} (e : mergeLoop fuel s h = .done t g)
    (c : List Word) (r : List Reply) :
    mergeLoop fuel (onPort s c r) h = .done (onPort t c r) g := by
  induction fuel generalizing s h with
  | zero =>
    cases e
    rfl
  | succ n ih =>
    unfold mergeLoop at e ⊢
    split at e
    · cases e
      rw [if_pos ‹_›]
    · rw [if_neg ‹_›]
      split at e
      · rename_i hs
        rw [mergeStep_port hs c r]
        exact ih e
      · cases e
      · cases e

theorem buildTree_port {s t : State} (hn : s.nLeaves ≠ 0) (e : buildTree s = .next t) :
    ∃ reply, t.replies = s.replies ++ [reply] ∧
      ∀ c r, buildTree (onPort s c r) = .next (onPort t c (r ++ [reply])) := by
  unfold buildTree at e
  split at e
  · cases e
  · rename_i h hf
    have hlen := fillQueue_length hf
    split at e
    · cases e
    · rename_i hl
      exact absurd hl (mergeLoop_not_outOfNodes _ _ _ _)
    · rename_i u g hl
      have hg := mergeLoop_length (le_refl _) (by omega) hl
      split at e
      · rename_i he
        rw [heapExtractMin_none] at he
        subst he
        cases hg
      · rename_i k _ he
        obtain ⟨d, hd, rfl⟩ := finishBuild_cases e
        have hu := (mergeLoop_frame hl).1
        have hur : u.replies = s.replies := by rw [hu]
        refine ⟨⟨rspWord 0 0 0 0 (BitVec.ofNat 32 k.idx), []⟩, by rw [← hur]; rfl, fun c r => ?_⟩
        have hd' : assignCodes { onPort u c r with root := k.idx } = .ok d := by
          rw [← hd]
          exact assignCodes_congr rfl rfl rfl rfl rfl
        unfold buildTree
        rw [onPort_nLeaves, fillQueue_congr (onPort_nodes s c r), hf]
        simp only [mergeLoop_port hl c r, he, finishBuild, hd', respond_plain]
        rfl

/-- A command that answers gives the same reply and leaves the same state whatever the port holds. -/
theorem exec_port {i : Instr} {s t : State} (e : exec i s = .next t) :
    ∃ reply, t.replies = s.replies ++ [reply] ∧
      ∀ c r, exec i (onPort s c r) = .next (onPort t c (r ++ [reply])) := by
  have he := e
  cases exec_answer e with
  | nop =>
    refine ⟨_, rfl, fun c r => ?_⟩
    rw [exec, execNop, respond_zero]
    rfl
  | rdreg s x =>
    refine ⟨_, rfl, fun c r => ?_⟩
    rw [exec, execRdreg, respond_plain]
    cases x <;> rfl
  | clear =>
    refine ⟨_, rfl, fun c r => ?_⟩
    rw [exec, execClear, respond_zero]
    rfl
  | refused i s w h => exact ⟨_, rfl, fun c r => refused_answers (s := onPort s c r) h⟩
  | tableFailed i s x h hi =>
    refine ⟨_, rfl, fun c r => ?_⟩
    rcases hi with ⟨rfl, rfl, hn⟩ | ⟨hx, y, f, rfl⟩
    · rw [exec, execBuild_load (s := onPort s c r) h, onPort_nLeaves, if_pos hn, failTable_answers]
      rfl
    · rw [exec] at he ⊢
      by_cases hn : s.nLeaves = s.cfg.nMax
      · rw [execLoadw_full h hn, failTable_answers] at he
        have hx' := congrArg State.tbReason (next_inj he)
        rw [execLoadw_full (s := onPort s c r) h hn, failTable_answers]
        simp only [State.replied] at hx'
        subst hx'
        rfl
      · cases hb : symbolLoaded s y s.nLeaves with
        | error _ => simp [execLoadw, h, hn, hb] at he
        | ok b =>
          have hb' := (symbolLoaded_congr (onPort_nodes s c r) y s.nLeaves).trans hb
          rw [execLoadw_scanned h hn hb] at he
          rw [execLoadw_scanned (s := onPort s c r) h hn hb']
          cases b with
          | true =>
            rw [if_pos rfl, failTable_answers] at he ⊢
            have hx' := congrArg State.tbReason (next_inj he)
            simp only [State.replied] at hx'
            subst hx'
            rfl
          | false =>
            obtain ⟨_, ht⟩ := appendLeaf_cases he
            have := congrArg State.phase ht
            simp [State.replied, h] at this
  | leaf s x f h hn hd hm =>
    refine ⟨_, rfl, fun c r => ?_⟩
    rw [exec, execLoadw_scanned (s := onPort s c r) h hn
      ((symbolLoaded_congr (onPort_nodes s c r) x s.nLeaves).trans hd), if_neg (by simp),
      appendLeaf_answers (s := onPort s c r) hm]
    rfl
  | built s nodes n root d h hn ha =>
    rw [exec, execBuild_load h, if_neg hn] at he
    obtain ⟨reply, h1, h2⟩ := buildTree_port hn he
    refine ⟨reply, h1, fun c r => ?_⟩
    rw [exec, execBuild_load (s := onPort s c r) h, onPort_nLeaves, if_neg hn, h2]
  | encbeg s h => exact ⟨_, rfl, fun c r => execEncbeg_ready (s := onPort s c r) h⟩
  | encRepeats s x h ho hne => exact ⟨_, rfl, fun c r => execEnc_error (s := onPort s c r) h ho hne x⟩
  | encFails s x m h ho hne hr =>
    refine ⟨_, rfl, fun c r => ?_⟩
    rw [exec, execEnc_open (s := onPort s c r) h ho hne, appendCode]
    rcases hr with ⟨rfl, hr⟩ | ⟨rfl, y, hr, hl⟩
    · rw [show readDict (onPort s c r) x = none from hr]
      exact raise_noSuchKey _ _
    · rw [show readDict (onPort s c r) x = some y from hr]
      simp only
      rw [if_pos (by exact hl)]
      exact raise_overflow _ _
  | encAppends s x m h ho hne hr hl =>
    refine ⟨_, rfl, fun c r => ?_⟩
    rw [exec, execEnc_open (s := onPort s c r) h ho hne, appendCode,
      show readDict (onPort s c r) x = some m from hr]
    simp only
    rw [if_neg (show ¬ (onPort s c r).cfg.encBufBits < (onPort s c r).encBuf.length + m.len from
      not_lt.mpr hl)]
    exact respond_plain _ _ _ _
  | encend s h ho hne => exact ⟨_, rfl, fun c r => execEncend_open (s := onPort s c r) h ho hne⟩
  | encendFails s h ho hne => exact ⟨_, rfl, fun c r => execEncend_error (s := onPort s c r) h ho hne⟩
  | decbeg s h => exact ⟨_, rfl, fun c r => execDecbeg_ready (s := onPort s c r) h⟩
  | decEmits s bit q m h hq hm hk =>
    refine ⟨_, rfl, fun c r => ?_⟩
    have hq' : moveTarget (onPort s c r) bit = .ok q := hq
    rw [exec, execDecbit_ready (s := onPort s c r) h hq', arriveAt_leaf (s := onPort s c r) hm hk]
    rfl
  | decMoves s bit q m h hq hm hk =>
    refine ⟨_, rfl, fun c r => ?_⟩
    have hq' : moveTarget (onPort s c r) bit = .ok q := hq
    rw [exec, execDecbit_ready (s := onPort s c r) h hq', arriveAt_internal (s := onPort s c r) hm hk]
    rfl
  | decend s h => exact ⟨_, rfl, fun c r => execDecend_ready (s := onPort s c r) h⟩

end Sys2Proof.Machine
end

