-- ==== Sys2Proof/Tests/Slice0.lean ====
section
/-! SUPPORT. Tests on fixed values, their expected results from `95_test_vectors.md` and the examples of
the command rules; and a witness for the hypotheses of every obligation that has some. -/

open Sys2Proof Sys2Proof.Machine

namespace Sys2Proof.Tests

/-! ### Small states -/

/-- A leaf record as the spec writes it, `{L, freq, sym, 0, 0}`. -/
def leaf (freq : Nat) (sym : Symbol) : Node := { kind := .leaf, freq, sym, left := 0, right := 0 }

/-- An internal record, `{I, freq, 0, left, right}`. -/
def inner (freq left right : Nat) : Node := { kind := .internal, freq, sym := 0, left, right }

/-- The defaults but for `N_MAX = 8`, which keeps the dictionary's records short (CODE_MAX = 7); no
response of the vectors but CFG0 depends on it. -/
def small : Config := { Config.defaults with nMax := 8 }

/-- A dictionary entry of `small`. -/
def entry (bits : Bits) : DictEntry :=
  { len := bits.length, code := bits ++ List.replicate (7 - bits.length) false }

/-- Section 1.1 after its three LOADWs. -/
def table : State :=
  { State.resetWith small with
    nLeaves := 3, nNodes := 3
    nodes := [(0, leaf 10 0x41), (1, leaf 1 0x42), (2, leaf 5 0x43)] }

/-- Section 1.1 after BUILD. -/
def abc : State :=
  { table with
    phase := .ready, nNodes := 5, root := 4, decPtr := 4
    nodes := [(0, leaf 10 0x41), (1, leaf 1 0x42), (2, leaf 5 0x43), (3, inner 6 1 2), (4, inner 16 3 0)]
    dict := [(0x41, entry [true]), (0x42, entry [false, false]), (0x43, entry [false, true])] }

/-- Section 2.4's table of one pair, loaded. -/
def single : State :=
  { State.resetWith small with nLeaves := 1, nNodes := 1, nodes := [(0, leaf 7 0x5A)] }

/-- And built. -/
def lone : State := { single with phase := .ready, dict := [(0x5A, entry [false])] }

/-- A message with these bits so far. -/
def inMessage (buf : Bits) (s : State) : State := { s with encOpen := true, encBuf := buf }

/-- A message that has failed. -/
def failedMessage (e : MsgErr) (x : Symbol) (s : State) : State :=
  { s with encOpen := true, encErr := e, encErrSym := x }

/-- A failed construction. -/
def failed (r : Reason) (s : State) : State := { s with phase := .failed, tbReason := r }

/-- HTB with other parameters. -/
def withCfg (c : Config) (s : State) : State := { s with cfg := c }

/-- The last reply of a command that answers. -/
def reply (r : Result) : Option Reply :=
  match r with
  | .next s => s.replies.getLast?
  | .fault _ => none
  | .refused _ => none

/-- The next state, if there is one. -/
def answer (r : Result) : Option State :=
  match r with
  | .next s => some s
  | .fault _ => none
  | .refused _ => none

/-- What a command that answers leaves, seen through `f`. -/
def after {α : Type} (f : State → α) (r : Result) : Option α :=
  match r with
  | .next s => some (f s)
  | .fault _ => none
  | .refused _ => none


/-! ### Well-formedness: an ill-formed term for each check (R49), and the greatest that passes -/

theorem test_wf_loadw_sym : Instr.wellFormed Config.defaults (.loadw 0x100 1) = false := by decide

theorem test_wf_loadw_freq :
    Instr.wellFormed { Config.defaults with freqW := 8 } (.loadw 0xF 0x100) = false := by decide

theorem test_wf_enc_sym : Instr.wellFormed Config.defaults (.enc 0x100) = false := by decide

theorem test_wf_greatest :
    Instr.wellFormed { Config.defaults with freqW := 8 } (.loadw 0xFF 0xFF) = true ∧
    Instr.wellFormed Config.defaults (.enc 0xFF) = true := by decide

/-! ### Decoding: each constructor by a word of the spec (R52, `95_test_vectors.md` P1, P2) -/

theorem test_decode_nop : decode Config.defaults 0x0000000000000000#64 = .ok .nop := by decide

theorem test_decode_clear : decode Config.defaults 0x1000000000000000#64 = .ok .clear := by decide

/-- `loadw 0x41, 10`: op 0010, twelve zeros, sym 0000 0000 0100 0001, imm with bits 3 and 1. -/
theorem test_decode_loadw : decode Config.defaults
    (0b0010#4 ++ 0b000000000000#12 ++ 0b0000000001000001#16 ++
      0b00000000000000000000000000001010#32) = .ok (.loadw 0x41 10) := by decide

theorem test_decode_build : decode Config.defaults 0x3000000000000000#64 = .ok .build := by decide

theorem test_decode_encbeg : decode Config.defaults 0x4000000000000000#64 = .ok .encbeg := by decide

/-- `enc 0x42`: op 0101, sym 0000 0000 0100 0010. -/
theorem test_decode_enc : decode Config.defaults
    (0b0101#4 ++ 0b000000000000#12 ++ 0b0000000001000010#16 ++ 0#32) = .ok (.enc 0x42) := by decide

theorem test_decode_encend : decode Config.defaults 0x6000000000000000#64 = .ok .encend := by decide

theorem test_decode_decbeg : decode Config.defaults 0x7000000000000000#64 = .ok .decbeg := by decide

/-- `decbit 1`: op 1000, imm[0] set. -/
theorem test_decode_decbit : decode Config.defaults
    (0b1000#4 ++ 0#12 ++ 0#16 ++ 1#32) = .ok (.decbit true) := by decide

theorem test_decode_decend : decode Config.defaults 0x9000000000000000#64 = .ok .decend := by decide

/-- `rdreg root`: op 1010, register number 3. -/
theorem test_decode_rdreg : decode Config.defaults
    (0b1010#4 ++ 0#12 ++ 0#16 ++ 0b0011#32) = .ok (.rdreg .root) := by decide

/-- Section 2.5's illegal words, and the last reserved opcode before them. -/
theorem test_decode_illegal :
    ([0xB000000000000000#64, 0xF000000000000000#64, 0x0000000000000001#64, 0x1000000100000000#64,
      0x2100004100000001#64, 0x2000014100000001#64, 0x3000000000000001#64, 0x5000000100000001#64,
      0x5000010000000000#64, 0x6001000000000000#64, 0x8000000000000002#64, 0x8000000100000000#64,
      0xA00000000000000C#64, 0xA00000000000001B#64, 0xA000000100000000#64].all
      fun w => (decode Config.defaults w).toOption.isNone) = true := by decide

/-- Section 2.6: with `SYM_W = 4`, `FREQ_W = 8` the operands end sooner. -/
theorem test_decode_other_widths :
    decode ⟨4, 8, 16, 65536⟩ 0x2000000F000000FF#64 = .ok (.loadw 0xF 0xFF) ∧
    decode ⟨4, 8, 16, 65536⟩ 0x2000000F00000100#64 = .error .operandBitSet ∧
    decode ⟨4, 8, 16, 65536⟩ 0x2000001000000001#64 = .error .operandBitSet := by decide

theorem test_decode_table_word : decodeTableWord 64 0x2000004100000005 = some (.loadw 0x41 5) := by
  decide

/-- R52's examples, and a line an assembler must reject. -/
theorem test_assemble :
    assembleLine Config.defaults "loadw 0x41, 10".toList = some [0x200000410000000A#64] ∧
    assembleLine Config.defaults "rdreg root ; a comment".toList = some [0xA000000000000003#64] ∧
    assembleLine Config.defaults "enc 256".toList = none := by decide

/-- P1's first line. -/
theorem test_assemble_macro :
    assembleLine Config.defaults "construct (0x41,10), (0x42,1), (0x43,5)".toList =
      some [0x1000000000000000#64, 0x200000410000000A#64, 0x2000004200000001#64,
        0x2000004300000005#64, 0x3000000000000000#64] := by decide

/-! ### One step -/

/-- A command presented at reset is the first to run: `build` on an empty table (section 2.2). -/
theorem test_step_first : reply (step (State.reset.withFetchWord 64 0x3000000000000000)) =
    some ⟨0x2001000000000000#64, []⟩ := by decide

/-- An illegal word in phase FAILED returns ILLEGAL, not the stored reason (section 2.5). -/
theorem test_step_illegal :
    answer (step ((failed .empty State.reset).withFetchWord 64 0x2100004100000001)) =
      some ((failed .empty State.reset).replied 0x4000000000000000#64 []) := by decide

/-- R83. -/
theorem test_nop : answer (exec .nop abc) = some (abc.replied 0#64 []) := by decide

/-- CLEAR in mid-flight (section 2.5). -/
theorem test_clear :
    answer (exec .clear (inMessage [false, false] { abc with decPtr := 3, decDepth := 1 })) =
      some ((State.resetWith small).replied 0#64 []) := by decide

/-- R55's example: a repeated symbol fails the table and loads nothing. -/
theorem test_loadw_duplicate : answer (exec (.loadw 0x42 3) table) =
    some ((failed .duplicate table).replied 0x2003000000000000#64 []) := by decide

/-- Section 2.2: with `N_MAX = 3` the fourth pair is refused for CAPACITY, though it repeats a symbol. -/
theorem test_loadw_capacity :
    reply (exec (.loadw 0x41 1) (withCfg { small with nMax := 3 } table)) =
      some ⟨0x2004000000000000#64, []⟩ := by decide

/-- Section 1.1: the tree, the dictionary and the root of three pairs. -/
theorem test_build_tree : exec .build table = .next (abc.replied 0x0000000000000004#64 []) := by rfl

/-- Section 2.1: a leaf before a merged node of equal frequency, and sums that do not wrap. -/
theorem test_build_ties :
    after (fun t => Store.read t.nodes 4) (exec .build { table with
      nodes := [(0, leaf 1 0), (1, leaf 1 1), (2, leaf 2 2)] }) = some (some (inner 4 2 3)) ∧
    after (fun t => Store.read t.nodes 4) (exec .build { table with
      nodes := [(0, leaf 0xFFFFFFFF 0), (1, leaf 0xFFFFFFFF 1), (2, leaf 0xFFFFFFFF 2)] }) =
      some (some (inner 0x2FFFFFFFD 2 3)) := by decide

/-- An ENCBEG abandons the open message (section 2.3). -/
theorem test_encbeg : answer (exec .encbeg (failedMessage .noSuchKey 9 abc)) =
    some ((inMessage [] abc).replied 0#64 []) := by decide

/-- R70's example: `enc 0x42` appends `00`. -/
theorem test_enc : answer (exec (.enc 0x42) (inMessage [true] abc)) =
    some ((inMessage [true, false, false] abc).replied 0x0000004200000002#64 []) := by decide

/-- Section 2.3: on a full buffer a known symbol overflows, an unknown one reports NO_SUCH_KEY. -/
theorem test_enc_errors :
    answer (exec (.enc 0x41) (withCfg { small with encBufBits := 1 } (inMessage [true] abc))) =
      some ((withCfg { small with encBufBits := 1 }
        (failedMessage .overflow 0x41 abc)).replied 0x5000004100000000#64 []) ∧
    answer (exec (.enc 0x44) (withCfg { small with encBufBits := 1 } (inMessage [true] abc))) =
      some ((withCfg { small with encBufBits := 1 }
        (failedMessage .noSuchKey 0x44 abc)).replied 0x1000004400000000#64 []) := by decide

/-- R71's example: burst `100`. -/
theorem test_encend : answer (exec .encend (inMessage [true, false, false] abc)) =
    some (abc.replied 0x0000000000000003#64 [true, false, false]) := by decide

/-- Section 2.3: the stored error, no bit, and a closed message. -/
theorem test_encend_error : answer (exec .encend (failedMessage .noSuchKey 9 abc)) =
    some (abc.replied 0x1000000900000000#64 []) := by decide

/-- DECBEG inside a code (section 2.4). -/
theorem test_decbeg : answer (exec .decbeg { abc with decPtr := 3, decDepth := 1 }) =
    some (abc.replied 0#64 []) := by decide

/-- R75's example: from the root, 1 emits 0x41, 0 goes to node 3. -/
theorem test_decbit_root :
    answer (exec (.decbit true) abc) = some (({ abc with decSym := 0x41, decLeaf := 0, decValid := true
      } : State).replied 0x0100004100000000#64 []) ∧
    answer (exec (.decbit false) abc) = some (({ abc with decPtr := 3, decDepth := 1
      } : State).replied 0x0000000000000003#64 []) := by decide

/-- From node 3, 1 emits 0x43 of leaf 2; on a tree of one leaf any bit emits (section 2.4). -/
theorem test_decbit_leaf :
    answer (exec (.decbit true) { abc with decPtr := 3, decDepth := 1 }) =
      some (({ abc with decSym := 0x43, decLeaf := 2, decValid := true } : State).replied
        0x0100004300000002#64 []) ∧
    reply (exec (.decbit true) lone) = some ⟨0x0100005A00000000#64, []⟩ := by decide

/-- R76's example: one bit dropped. -/
theorem test_decend : answer (exec .decend { abc with decPtr := 3, decDepth := 1, decSym := 0x41 }) =
    some (({ abc with decSym := 0x41 } : State).replied 0x0200000000000001#64 []) := by decide

/-- Sections 2.2 to 2.5: PHASE with both halves in it, ENCERR, DECSYM, CFG0. -/
theorem test_rdreg :
    reply (exec (.rdreg .phase) (inMessage [] { abc with decValid := true })) =
      some ⟨0x000000000000000D#64, []⟩ ∧
    reply (exec (.rdreg .phase) (failed .duplicate table)) = some ⟨0x0000000000000032#64, []⟩ ∧
    reply (exec (.rdreg .encerr) (failedMessage .overflow 3 abc)) =
      some ⟨0x0000000000030005#64, []⟩ ∧
    reply (exec (.rdreg .decsym) { abc with decValid := true, decSym := 0x42 }) =
      some ⟨0x0000000000010042#64, []⟩ := by decide

/-- Section 2.6 and the defaults. -/
theorem test_rdreg_cfg :
    reply (exec (.rdreg .cfg0) (State.resetWith ⟨4, 8, 16, 65536⟩)) =
      some ⟨0x00000000000F0804#64, []⟩ ∧
    reply (exec (.rdreg .cfg0) State.reset) = some ⟨0x0000000000FF2008#64, []⟩ := by decide

/-- Section 2.1: the first row's heap after the inserts, and after the first extraction of section
1.1's. -/
theorem test_heap :
    (heapInsert (heapInsert (heapInsert [] ⟨10, 0⟩) ⟨1, 1⟩) ⟨5, 2⟩).map Key.idx = [1, 0, 2] ∧
    (heapExtractMin [⟨1, 1⟩, ⟨10, 0⟩, ⟨5, 2⟩]).map (fun r => (r.1.idx, r.2.map Key.idx)) =
      some (1, [2, 0]) := by decide

/-! ### States that meet the invariant -/

theorem inv_reset : Invariant (State.resetWith small) where
  cfg := by decide
  nodes_wf := List.Pairwise.nil
  dict_wf := List.Pairwise.nil
  leaves_max := by decide
  nodes_max := by decide
  held := by simp [State.resetWith]
  leaves := by simp [State.resetWith]
  symbols_differ := by simp [State.resetWith]
  freq_fits := by simp [State.resetWith]
  phase := ⟨⟨rfl, rfl, rfl, rfl, rfl, rfl, rfl, rfl, rfl, rfl, rfl, rfl⟩, rfl⟩

theorem inv_table : Invariant table := by
  have h1 := inv_reset.leaf_appended rfl (by decide) (x := 0x41) (f := 10) rfl (by decide) (by decide)
  have h2 := h1.leaf_appended rfl (by decide) (x := 0x42) (f := 1) rfl (by decide) (by decide)
  exact h2.leaf_appended rfl (by decide) (x := 0x43) (f := 5) rfl (by decide) (by decide)

theorem inv_single : Invariant single :=
  inv_reset.leaf_appended rfl (by decide) (x := 0x5A) (f := 7) rfl (by decide) (by decide)

/-- The state a BUILD leaves, on a table that meets the invariant. -/
theorem inv_of_build {s t : State} (hi : Invariant s) (hp : s.phase = .load) (h1 : 1 ≤ s.nLeaves)
    (e : exec .build s = .next t) : Invariant t := by
  obtain ⟨u, k, T, L, a, b, c, d, f, g, h⟩ := buildTree_answers hi (hi.noTree (by simp [hp])) h1
  rw [exec, execBuild_load hp, if_neg (by omega), h] at e
  cases e
  exact Invariant.replied (hi.built hp a b c d h1 f g)

theorem inv_abc : Invariant abc :=
  Invariant.port rfl (inv_of_build inv_table rfl (by decide) test_build_tree)

theorem inv_lone : Invariant lone :=
  Invariant.port rfl (inv_of_build (t := lone.replied 0#64 []) inv_single rfl (by decide) (by rfl))

theorem inv_failed : Invariant (failed .duplicate table) :=
  inv_table.table_failed rfl (.inr (.inl rfl))

theorem inv_message : Invariant (inMessage [true] abc) :=
  inv_abc.encoder rfl rfl
    ⟨by decide, fun h => absurd rfl h, fun h => absurd h (by decide), fun _ => rfl, by decide⟩

theorem inv_moved : Invariant { abc with decPtr := 3, decDepth := 1 } :=
  inv_abc.decoder rfl rfl (inv_abc.moved rfl (bit := false) (q := 3) (m := inner 6 1 2) rfl rfl rfl)

/-! ### Witnesses: states and operands that meet the hypotheses of each obligation, clause by clause -/

theorem witness_DecodeOfEncodeIsTheCommand :
    Instr.wellFormed small (.loadw 0xFF 0xFFFFFFFF) = true ∧
    Instr.wellFormed small (.enc 0xFF) = true ∧ Instr.wellFormed small (.rdreg .cfg1) = true := by
  decide

theorem witness_LegalWordsAreTheWordsOfTheirCommands :
    decode small 0xA00000000000000B#64 = .ok (.rdreg .cfg1) := by decide

/-- A word for each of R50's clauses: the first reserved opcode, the two ends of `rsvd0`, the first bit
above a symbol, the first register that does not exist. -/
theorem witness_IllegalWordsAreThoseOfTheFourClauses :
    IllegalCommand small 0xB000000000000000#64 ∧ IllegalCommand small 0x0001000000000000#64 ∧
    IllegalCommand small 0x0800000000000000#64 ∧ IllegalCommand small 0x5000010000000000#64 ∧
    IllegalCommand small 0xA00000000000000C#64 ∧
    (table.withFetchWord 64 0xB000000000000000).cmds = [0xB000000000000000#64] := by
  refine ⟨.inl (by decide), .inr (.inl ⟨48, by decide, by decide, by decide⟩),
    .inr (.inl ⟨59, by decide, by decide, by decide⟩),
    .inr (.inr (.inl ⟨40, .inl (by decide), by decide⟩)), .inr (.inr (.inr (by decide))), by decide⟩

theorem witness_StepRunsTheDecodedCommand :
    ({ table with cmds := [0x3000000000000000#64] } : State).cmds = [0x3000000000000000#64] ∧
    decode table.cfg 0x3000000000000000#64 = .ok .build ∧ table.cmds = [] := by decide

/-- Two loads on the port of an empty table, and a word after them. -/
theorem witness_RunTakesCommandsInPortOrder :
    (∀ i ∈ [Instr.loadw 1 1, .loadw 2 7], i.wellFormed small = true) ∧
    ({ State.resetWith small with cmds :=
      [0x2000000100000001#64, 0x2000000200000007#64, 0#64] } : State).cmds =
      [Instr.loadw 1 1, .loadw 2 7].map encode ++ [0#64] ∧
    ∃ t, execAll [.loadw 1 1, .loadw 2 7] { State.resetWith small with cmds := [0#64] } = .next t :=
  ⟨by decide, by decide, _, rfl⟩

/-- The last operand in range and the first out of it, one that would wrap to 1 in 16 bits, and both
texts of a number. -/
theorem witness_AssembledLinesAreLegalCommands :
    small.wf ∧ numeralTexts 255 = ["255".toList, "0xff".toList] ∧
    assembleLine small "enc 255".toList = some [0x500000FF00000000#64] ∧
    assembleLine small "enc 0xff".toList = some [0x500000FF00000000#64] ∧
    assembleLine small "enc 256".toList = none ∧ assembleLine small "enc 65537".toList = none ∧
    assembleLine small "loadw 1, 4294967296".toList = none ∧
    assembleLine small "decbit 2".toList = none ∧ assembleLine small "rdreg 12".toList = none :=
  ⟨by decide, by decide, by decide, by decide, by decide, by decide, by decide, by decide, by decide⟩

/-- One operand, several, none, and one out of range. -/
theorem witness_MacrosAssembleToTheirSequences :
    small.wf ∧ joinWith ", ".toList ([(1, 2), (3, 4)].map pairText) = "(1,2), (3,4)".toList ∧
    assembleLine small "encode 1, 2".toList =
      some [0x4000000000000000#64, 0x5000000100000000#64, 0x5000000200000000#64,
        0x6000000000000000#64] ∧
    assembleLine small "decode ".toList = some [0x7000000000000000#64, 0x9000000000000000#64] ∧
    assembleLine small "decode 0 2".toList = none :=
  ⟨by decide, by decide, by decide, by decide, by decide⟩

/-- The two sides of `n ≤ 2^k`, and `N_MAX = 1`. -/
theorem witness_DerivedConstantsFollowTheirFormulas :
    256 ≤ 2 ^ 8 ∧ ceilLog2 256 = 8 ∧ 257 ≤ 2 ^ 9 ∧ ceilLog2 257 = 9 ∧ ceilLog2 1 = 0 ∧
    ({ small with nMax := 1 } : Config).nMax = 1 := by decide

/-- Configurations at both ends of R6's ranges. -/
theorem witness_ResetMeetsTheInvariant :
    Config.wf ⟨1, 1, 1, 1⟩ ∧ Config.wf ⟨16, 32, 65536, 4294967295⟩ ∧ Config.defaults.wf := by decide

theorem witness_EveryStepKeepsTheInvariant :
    Invariant { table with cmds := [0x3000000000000000#64] } ∧
    ∃ t, step { table with cmds := [0x3000000000000000#64] } = .next t :=
  ⟨Invariant.port rfl inv_table, _, rfl⟩

theorem witness_EveryRunFromResetMeetsTheInvariant : Config.defaults.wf := by decide

theorem witness_NoStepStops : Invariant abc ∧ Invariant table ∧ Invariant (failed .duplicate table) :=
  ⟨inv_abc, inv_table, inv_failed⟩

theorem witness_RegistersFitTheirWidths :
    Invariant abc ∧ Store.read abc.nodes 4 = some (inner 16 3 0) ∧
    Store.read abc.dict 0x43 = some (entry [false, true]) := ⟨inv_abc, rfl, rfl⟩

/-- At the root, below it, and on a leaf root. -/
theorem witness_PointerIsTheRootOrInternal :
    Invariant abc ∧ abc.phase = .ready ∧ 2 ≤ abc.nLeaves ∧
    Invariant { abc with decPtr := 3, decDepth := 1 } ∧ Invariant lone ∧ lone.nLeaves = 1 :=
  ⟨inv_abc, rfl, by decide, inv_moved, inv_lone, rfl⟩

/-- A state for each clause, registers 3 and 9 for the range, 0xC for the illegal numbers. -/
theorem witness_RdregReadsTheStatusRegisters :
    Invariant abc ∧ Invariant (failed .duplicate table) ∧
    (failed .duplicate table).phase ≠ .ready ∧ StatusReg.number .root = 3 ∧
    StatusReg.number .decleaf = 9 ∧ State.reset.cfg = Config.defaults ∧ 12 ≤ (0xC#4).toNat :=
  ⟨inv_abc, inv_failed, by decide, rfl, rfl, rfl, by decide⟩

/-- A state for each of the six clauses: READY, FAILED, a full table (`N_MAX = 3`), a loaded symbol,
a new one, and commands after a failure. -/
theorem witness_LoadwAppendsALeafOrFails :
    abc.phase = .ready ∧ (failed .duplicate table).phase = .failed ∧
    (withCfg { small with nMax := 3 } table).nLeaves = 3 ∧ table.phase = .load ∧
    (Invariant table ∧ table.nLeaves ≠ table.cfg.nMax ∧ Loaded table 0x43 ∧ ¬ Loaded table 0x44) ∧
    (exec (.loadw 0x43 1) table = .next ((failed .duplicate table).replied 0x2003000000000000#64 []) ∧
      .clear ∉ [Instr.build, .loadw 0x44 1] ∧
      ∃ u, execAll [.build, .loadw 0x44 1]
        ((failed .duplicate table).replied 0x2003000000000000#64 []) = .next u) := by
  refine ⟨rfl, rfl, rfl, rfl, ⟨inv_table, by decide, ⟨2, leaf 5 0x43, by decide, rfl, rfl⟩, ?_⟩,
    rfl, by decide, _, rfl⟩
  rintro ⟨k, nd, hk, hr, hs⟩
  have : k < 3 := hk
  interval_cases k <;> cases hr <;> exact absurd hs (by decide)

theorem witness_LoadwFrame : ∃ t, exec (.loadw 0x44 1) table = .next t := ⟨_, rfl⟩

theorem witness_BuildRefusals :
    abc.phase = .ready ∧ (failed .empty State.reset).phase = .failed ∧
    State.reset.phase = .load ∧ State.reset.nLeaves = 0 := by decide

theorem witness_BuildCompletesWithTheRootLast :
    (Invariant table ∧ table.phase = .load ∧ 1 ≤ table.nLeaves) ∧
    Invariant single ∧ single.phase = .load ∧ single.nLeaves = 1 :=
  ⟨⟨inv_table, rfl, by decide⟩, inv_single, rfl, rfl⟩

/-- A symbol in no leaf, a loaded one, and nodes below and above those stored to. -/
theorem witness_BuildFrame :
    exec .build table = .next (abc.replied 0x0000000000000004#64 []) ∧
    (∀ k nd, Store.read (abc.replied 4 []).nodes k = some nd → nd.kind = .leaf → nd.sym.toNat ≠ 0x44) ∧
    table.nNodes = 3 ∧ (abc.replied 4 []).nNodes = 5 := by
  refine ⟨test_build_tree, fun k nd hr _ => ?_, rfl, rfl⟩
  have : k < 5 := (inv_abc.held k).mp (by rw [show Store.read abc.nodes k = some nd from hr]; rfl)
  interval_cases k <;> cases hr <;> decide

theorem witness_BuildIsSelectionOfTheSmallest :
    HeapOrdered [⟨1, 1⟩, ⟨10, 0⟩, ⟨5, 2⟩] ∧
    heapExtractMin [⟨1, 1⟩, ⟨10, 0⟩, ⟨5, 2⟩] = some (⟨1, 1⟩, [⟨5, 2⟩, ⟨10, 0⟩]) ∧
    table.phase = .load ∧ table.nLeaves ≠ 0 := by
  refine ⟨?_, by decide, rfl, by decide⟩
  intro p c kp kc hc hp hcc
  have hlt : c < 3 := (List.getElem?_eq_some_iff.mp hcc).1
  have : p = 0 := by omega
  subst this
  rcases hc with rfl | rfl <;> cases hp <;> cases hcc <;> decide

theorem witness_KeysAreStrictlyTotallyOrdered :
    Key.lt ⟨1, 5⟩ ⟨2, 0⟩ = true ∧ Key.lt ⟨2, 0⟩ ⟨2, 1⟩ = true ∧ (⟨2, 0⟩ : Key) ≠ ⟨2, 1⟩ := by decide

theorem witness_SmallerKeyIsTheLeftChild : Invariant table ∧ table.phase = .load ∧ 1 ≤ table.nLeaves :=
  ⟨inv_table, rfl, by decide⟩

theorem witness_LonePairBuildsALeafRoot : Invariant single ∧ single.phase = .load ∧ single.nLeaves = 1 :=
  ⟨inv_single, rfl, rfl⟩

/-- No run reaches a state with this reason; the hypotheses are met in one that holds it. -/
theorem witness_InternalReasonIsNeverRaised :
    exec .nop (failed .internal table) = .next ((failed .internal table).replied 0#64 []) ∧
    ((failed .internal table).replied 0#64 []).tbReason = .internal := ⟨rfl, rfl⟩

theorem witness_CodesArePathsFromTheRoot :
    Invariant table ∧ table.phase = .load ∧ 2 ≤ table.nLeaves ∧ ¬ Loaded table 0x44 :=
  ⟨inv_table, rfl, by decide, witness_LoadwAppendsALeafOrFails.2.2.2.2.1.2.2.2⟩

theorem witness_CodeLengthsAreBounded :
    Invariant abc ∧ abc.phase = .ready ∧ readDict abc 0x42 = some (entry [false, false]) ∧
    2 ≤ abc.nLeaves := ⟨inv_abc, rfl, rfl, by decide⟩

theorem witness_DictionaryIsPrefixFree :
    Invariant abc ∧ abc.phase = .ready ∧ (0x42 : Symbol) ≠ 0x43 ∧
    readDict abc 0x42 = some (entry [false, false]) ∧ readDict abc 0x43 = some (entry [false, true]) :=
  ⟨inv_abc, rfl, by decide, rfl, rfl⟩

/-- The loop on `abc`'s tree needs a stack of three entries: it answers with three and not with two. -/
theorem witness_AssignmentStackIsBounded :
    (Invariant abc ∧ abc.phase = .ready) ∧ (Invariant table ∧ table.phase = .load ∧ 2 ≤ table.nLeaves) ∧
    boundedAssignLoop 3 abc 5 [(4, [])] [] = some (.ok abc.dict) ∧
    boundedAssignLoop 2 abc 5 [(4, [])] [] = none :=
  ⟨⟨inv_abc, rfl⟩, ⟨inv_table, rfl, by decide⟩, by decide, by decide⟩

theorem witness_EncbegOpensAMessage : table.phase ≠ .ready ∧ abc.phase = .ready := by decide

/-- A state for each clause: outside READY; no message; a failed one; an unknown symbol; a code one bit
too long for the buffer; and one that exactly fits. -/
theorem witness_EncAppendsACodeOrFails :
    table.phase ≠ .ready ∧ abc.encOpen = false ∧
    (failedMessage .noSuchKey 9 abc).encErr ≠ .none ∧ (failedMessage .noSuchKey 9 abc).encOpen = true ∧
    ((inMessage [true] abc).phase = .ready ∧ (inMessage [true] abc).encOpen = true ∧
      (inMessage [true] abc).encErr = .none) ∧
    readDict (inMessage [true] abc) 0x44 = none ∧
    (readDict (inMessage [true] abc) 0x42 = some (entry [false, false]) ∧
      (inMessage [true] abc).encBuf.length + (entry [false, false]).len > 2 ∧
      (inMessage [true] abc).encBuf.length + (entry [false, false]).len ≤ 3) := by decide

theorem witness_EncendDeliversTheMessageOrItsError :
    table.phase ≠ .ready ∧ abc.encOpen = false ∧
    ((failedMessage .noSuchKey 9 abc).phase = .ready ∧ (failedMessage .noSuchKey 9 abc).encOpen = true ∧
      (failedMessage .noSuchKey 9 abc).encErr ≠ .none) ∧
    (inMessage [true] abc).phase = .ready ∧ (inMessage [true] abc).encOpen = true ∧
    (inMessage [true] abc).encErr = .none := by decide

/-- Also a message whose result is no bits (section 2.3's unknown symbol). -/
theorem witness_EncodeIsAllOrNothing :
    abc.phase = .ready ∧ messageResult abc [0x41, 0x44] [] = .noSuchKey 0x44 ∧
    ∀ out, messageResult abc [0x41, 0x44] [] ≠ .ok out := ⟨rfl, by decide, fun _ h => nomatch h⟩

theorem witness_MessageErrorIsSticky :
    (failedMessage .overflow 3 abc).phase = .ready ∧ (failedMessage .overflow 3 abc).encOpen = true ∧
    (failedMessage .overflow 3 abc).encErr ≠ .none := by decide

/-- Two states with one dictionary that differ in the message, the decoder and the replies. -/
theorem witness_MessageDependsOnDictionaryAndSymbolsAlone :
    abc.phase = .ready ∧ (failedMessage .noSuchKey 9 { abc with decPtr := 3, decDepth := 1 }).phase = .ready ∧
    abc.dict = (failedMessage .noSuchKey 9 { abc with decPtr := 3, decDepth := 1 }).dict ∧
    (∃ t, execAll (encodeSeq [0x41, 0x42]) abc = .next t) ∧
    ∃ t, execAll (encodeSeq [0x41, 0x42])
      (failedMessage .noSuchKey 9 { abc with decPtr := 3, decDepth := 1 }) = .next t :=
  ⟨rfl, rfl, rfl, ⟨_, rfl⟩, _, rfl⟩

theorem witness_DecbegStartsAtTheRoot :
    table.phase ≠ .ready ∧ abc.phase = .ready ∧ table.phase = .load ∧
    ∃ t, exec .build table = .next t ∧ t.phase = .ready := ⟨by decide, rfl, rfl, _, rfl, rfl⟩

/-- At the root, 1 goes to a leaf and 0 to an internal node; on a leaf root the pointer stays. -/
theorem witness_DecbitMovesAndEmits :
    table.phase ≠ .ready ∧ Invariant abc ∧ abc.phase = .ready ∧
    Store.read abc.nodes abc.decPtr = some (inner 16 3 0) ∧
    (0 = (if (inner 16 3 0).kind = .internal then (if true = true then (inner 16 3 0).right
      else (inner 16 3 0).left) else abc.decPtr) ∧ Store.read abc.nodes 0 = some (leaf 10 0x41)) ∧
    (3 = (if (inner 16 3 0).kind = .internal then (if false = true then (inner 16 3 0).right
      else (inner 16 3 0).left) else abc.decPtr) ∧ Store.read abc.nodes 3 = some (inner 6 1 2)) ∧
    lone.phase = .ready ∧ Store.read lone.nodes lone.decPtr = some (leaf 7 0x5A) :=
  ⟨by decide, inv_abc, rfl, rfl, ⟨by decide, rfl⟩, ⟨by decide, rfl⟩, rfl, rfl⟩

theorem witness_DecendReportsDroppedBits :
    table.phase ≠ .ready ∧ (abc.phase = .ready ∧ abc.decDepth = 0) ∧
    ({ abc with decPtr := 3, decDepth := 1 } : State).phase = .ready ∧
    ({ abc with decPtr := 3, decDepth := 1 } : State).decDepth ≠ 0 := by decide

theorem witness_EveryBitSequenceDecodes : Invariant abc ∧ abc.phase = .ready := ⟨inv_abc, rfl⟩

theorem witness_LoneLeafEmitsOncePerBit : Invariant lone ∧ lone.phase = .ready ∧ lone.nLeaves = 1 :=
  ⟨inv_lone, rfl, rfl⟩

/-- Two states with one tree, one of them with a message open and inside a code. -/
theorem witness_StreamDependsOnTreeAndBitsAlone :
    abc.phase = .ready ∧ (inMessage [true] { abc with decPtr := 3, decDepth := 1 }).phase = .ready ∧
    abc.nodes = (inMessage [true] { abc with decPtr := 3, decDepth := 1 }).nodes ∧
    abc.root = (inMessage [true] { abc with decPtr := 3, decDepth := 1 }).root ∧
    ∃ t, execAll (decodeSeq [false, true, true]) abc = .next t := ⟨rfl, rfl, rfl, rfl, _, rfl⟩

/-- A stream that emits twice and drops a bit. -/
theorem witness_DecodedReferencesNameTheirSymbols :
    Invariant abc ∧ abc.phase = .ready ∧
    ∃ t, execAll (decodeSeq [true, false, true, false]) abc = .next t ∧
      decodeResult (t.replies.drop abc.replies.length) = [0, 2] ∧
      decodeOwnedResult (t.replies.drop abc.replies.length) = [0x41, 0x43] :=
  ⟨inv_abc, rfl, _, rfl, by decide, by decide⟩

/-- Three symbols whose codes fill the buffer to its last bit (`ENC_BUF_BITS = 5`). -/
theorem witness_RoundTrip :
    Invariant (withCfg { small with encBufBits := 5 } abc) ∧ abc.phase = .ready ∧
    (∀ x ∈ [(0x42 : Symbol), 0x43, 0x41], Loaded (withCfg { small with encBufBits := 5 } abc) x) ∧
    ([(0x42 : Symbol), 0x43, 0x41].flatMap (codeOf (withCfg { small with encBufBits := 5 } abc))).length ≤
      (withCfg { small with encBufBits := 5 } abc).cfg.encBufBits := by
  refine ⟨?_, rfl, ?_, by decide⟩
  · have hr : Invariant (State.resetWith { small with encBufBits := 5 }) :=
      { cfg := by decide, nodes_wf := List.Pairwise.nil, dict_wf := List.Pairwise.nil
        leaves_max := by decide, nodes_max := by decide, held := by simp [State.resetWith]
        leaves := by simp [State.resetWith], symbols_differ := by simp [State.resetWith]
        freq_fits := by simp [State.resetWith]
        phase := ⟨⟨rfl, rfl, rfl, rfl, rfl, rfl, rfl, rfl, rfl, rfl, rfl, rfl⟩, rfl⟩ }
    have h1 := hr.leaf_appended rfl (by decide) (x := 0x41) (f := 10) rfl (by decide) (by decide)
    have h2 := h1.leaf_appended rfl (by decide) (x := 0x42) (f := 1) rfl (by decide) (by decide)
    have h3 := h2.leaf_appended rfl (by decide) (x := 0x43) (f := 5) rfl (by decide) (by decide)
    exact Invariant.port rfl (inv_of_build (s := withCfg { small with encBufBits := 5 } table)
      (t := (withCfg { small with encBufBits := 5 } abc).replied 4 []) h3 rfl (by decide) (by rfl))
  · intro x hx
    simp only [List.mem_cons, List.not_mem_nil, or_false] at hx
    rcases hx with rfl | rfl | rfl
    · exact ⟨1, leaf 1 0x42, by decide, rfl, rfl⟩
    · exact ⟨2, leaf 5 0x43, by decide, rfl, rfl⟩
    · exact ⟨0, leaf 10 0x41, by decide, rfl, rfl⟩

theorem witness_LegalityByPhase :
    refusedWith (.enc 0x41) abc = some (rspWord 3 0 0 0 0) ∧
    refusedWith .build (failed .duplicate table) = some (rspWord 2 0 3 0 0) ∧
    refusedWith .decbeg abc = none ∧ exec .decbeg abc = .next (abc.replied 0#64 []) :=
  ⟨by decide, by decide, by decide, rfl⟩

theorem witness_PhaseTransitions :
    exec .clear abc = .next ((State.resetWith small).replied 0#64 []) ∧
    exec .build table = .next (abc.replied 0x0000000000000004#64 []) ∧ table.phase = .load :=
  ⟨rfl, test_build_tree, rfl⟩

theorem witness_ReadyTreeAndDictionaryAreImmutable :
    abc.phase = .ready ∧ Instr.decbit true ≠ .clear ∧ ∃ t, exec (.decbit true) abc = .next t :=
  ⟨rfl, by decide, _, rfl⟩

theorem witness_EncoderAndDecoderCommute :
    Invariant (inMessage [true] abc) ∧ (inMessage [true] abc).phase = .ready ∧
    Instr.isEncoder (.enc 0x42) = true ∧ Instr.isDecoder (.decbit false) = true ∧
    (∃ t, exec (.enc 0x42) (inMessage [true] abc) = .next t) ∧
    ∃ t, exec (.decbit false) (inMessage [true] abc) = .next t :=
  ⟨inv_message, rfl, rfl, rfl, ⟨_, rfl⟩, _, rfl⟩

theorem witness_RepliesKeepTheirForm :
    (∃ t, exec (.decbit true) abc = .next t ∧ t.decValid = true) ∧
    (∃ t, exec .decend { abc with decPtr := 3, decDepth := 1 } = .next t) ∧
    ∃ t, exec .encend (inMessage [true] abc) = .next t := ⟨⟨_, rfl, rfl⟩, ⟨_, rfl⟩, _, rfl⟩

/-- One error of each of the four kinds. -/
theorem witness_ErrorsArePrecise :
    exec .build abc = .next (abc.replied 0x3000000000000000#64 []) ∧
    exec (.loadw 0x43 1) table =
      .next ((failed .duplicate table).replied 0x2003000000000000#64 []) ∧
    exec (.enc 0x44) (inMessage [true] abc) =
      .next ((failedMessage .noSuchKey 0x44 abc).replied 0x1000004400000000#64 []) ∧
    exec .encend (failedMessage .overflow 3 abc) = .next (abc.replied 0x5000000300000000#64 []) ∧
    rspStatus 0x3000000000000000#64 ≠ 0 ∧ rspStatus 0x2003000000000000#64 ≠ 0 ∧
    rspStatus 0x1000004400000000#64 ≠ 0 ∧ rspStatus 0x5000000300000000#64 ≠ 0 :=
  ⟨rfl, rfl, rfl, rfl, by decide, by decide, by decide, by decide⟩

theorem witness_FailedPhaseIsSticky :
    (failed .duplicate table).phase = .failed ∧ .clear ∉ [Instr.build, .loadw 0x44 1, .encbeg] := by
  decide

/-- A state for each of the checks; the full table is also one that repeats a symbol. -/
theorem witness_ChecksAreMadeInOrder :
    ((abc.withFetchWord 64 0x2000014100000001).cmds = [0x2000014100000001#64] ∧
      IllegalCommand small 0x2000014100000001#64) ∧
    refusedWith (.enc 0x41) table = some (rspWord 3 0 0 0 0) ∧
    (failedMessage .noSuchKey 9 abc).encErr ≠ .none ∧
    ((withCfg { small with nMax := 3 } table).phase = .load ∧
      (withCfg { small with nMax := 3 } table).nLeaves = 3) ∧
    (State.reset.phase = .load ∧ State.reset.nLeaves = 0) ∧
    ((inMessage [true] abc).encErr = .none ∧ readDict (inMessage [true] abc) 0x44 = none) :=
  ⟨⟨by decide, .inr (.inr (.inl ⟨40, .inl (by decide), by decide⟩))⟩, by decide, by decide, by decide,
    by decide, by decide⟩

/-- A table for each outcome: built, empty, a repeated symbol, one pair too many (`N_MAX = 1`). -/
theorem witness_ConstructBuildsOrGivesTheFirstReason :
    small.wf ∧ (∀ p ∈ [((0x41 : Symbol), 10#32), (0x42, 1), (0x43, 5)],
      p.1.toNat < 2 ^ small.symW ∧ p.2.toNat < 2 ^ small.freqW) ∧
    tableFault small [] [((0x41 : Symbol), 10#32), (0x42, 1), (0x43, 5)] = .none ∧
    tableFault small [] [] = .empty ∧ tableFault small [] [((1 : Symbol), 1#32), (1, 5)] = .duplicate ∧
    tableFault { small with nMax := 1 } [] [((1 : Symbol), 1#32), (1, 5)] = .capacity :=
  ⟨by decide, by simp [small, Config.defaults], by decide, by decide, by decide, by decide⟩

/-- Two pasts: a fresh HTB and one that holds another tree. -/
theorem witness_ConstructForgetsThePast :
    (State.resetWith small).cfg = abc.cfg ∧
    ∃ t, execAll (constructSeq [((1 : Symbol), 1#32), (2, 1)]) (State.resetWith small) = .next t :=
  ⟨rfl, _, rfl⟩

end Sys2Proof.Tests
end

section
/-! Proofs of `00_scope.md`: the derived constants (R7). -/

namespace Sys2Proof.Machine

/-- `ceilLog2` is the lower adjoint of `2 ^ ·`: this is what makes it R7's `ceil(log2(n))`. -/
theorem ceilLog2_le_iff (n k : Nat) : ceilLog2 n ≤ k ↔ n ≤ 2 ^ k := by
  unfold ceilLog2
  split
  · next h => exact iff_of_true k.zero_le (h.trans Nat.one_le_two_pow)
  · next h =>
    have hlog : Nat.log2 (n - 1) < k ↔ n - 1 < 2 ^ k := Nat.log2_lt (by omega)
    omega

/-- LG_N is 0 in a core for one pair (R7). -/
theorem lgN_eq_zero_of_nMax_eq_one (c : Config) (h : c.nMax = 1) : c.lgN = 0 := by
  have hle : ceilLog2 c.nMax ≤ 0 := (ceilLog2_le_iff _ _).mpr (by omega)
  exact Nat.le_zero.mp hle

/-- Settles O9: `ceilLog2` is the least exponent by `ceilLog2_le_iff`, the formulas are the
definitions, and the default values are computed. -/
theorem derivedConstantsFollowTheirFormulas :
    Obligations.DerivedConstantsFollowTheirFormulas := by
  unfold Obligations.DerivedConstantsFollowTheirFormulas
  refine ⟨fun n => ⟨le_two_pow_ceilLog2 n, fun k => (ceilLog2_le_iff n k).mpr⟩, ?formulas,
    lgN_eq_zero_of_nMax_eq_one, ?defaults⟩
  case formulas => exact fun _ => ⟨rfl, rfl, rfl, rfl, rfl, rfl, rfl⟩
  case defaults => decide

end Sys2Proof.Machine
end

section
/-! Proofs of `10_state.md`: the values after reset (R31). -/

namespace Sys2Proof.Machine

/-- Settles O10: each field of the reset state is the value R31 gives it, and both memories are
empty. -/
theorem resetLeavesTheStatedValues : Obligations.ResetLeavesTheStatedValues := by
  unfold Obligations.ResetLeavesTheStatedValues
  intro c
  exact ⟨rfl, rfl, rfl, rfl, rfl, rfl, rfl, rfl, rfl, rfl, rfl, rfl, rfl, rfl,
    fun _ => Store.read_nil _, fun k => Store.read_nil k⟩

end Sys2Proof.Machine
end

section
/-! Proofs of `10_state.md`: from any state that meets the invariant every command, hence every step
and every run, has a next state, and that state meets the invariant again (R29). -/

namespace Sys2Proof.Machine

/-! ### The operands of a decoded command -/

theorem decodePlain_eq_ok {i j : Instr} {w : Word} :
    decodePlain i w = .ok j ↔ (cmdSym w = 0 ∧ cmdImm w = 0) ∧ i = j := by
  unfold decodePlain
  split <;> simp_all

theorem decodeLoadw_eq_ok {c : Config} {w : Word} {i : Instr} :
    decodeLoadw c w = .ok i ↔
      (fitsIn c.symW (cmdSym w) = true ∧ fitsIn c.freqW (cmdImm w) = true) ∧
        .loadw (cmdSym w) (cmdImm w) = i := by
  unfold decodeLoadw
  split <;> simp_all

theorem decodeEnc_eq_ok {c : Config} {w : Word} {i : Instr} :
    decodeEnc c w = .ok i ↔
      (fitsIn c.symW (cmdSym w) = true ∧ cmdImm w = 0) ∧ .enc (cmdSym w) = i := by
  unfold decodeEnc
  split <;> simp_all

theorem decodeDecbit_eq_ok {w : Word} {i : Instr} :
    decodeDecbit w = .ok i ↔
      (cmdSym w = 0 ∧ fitsIn 1 (cmdImm w) = true) ∧ .decbit ((cmdImm w).getLsbD 0) = i := by
  unfold decodeDecbit
  split <;> simp_all

theorem decodeRdreg_eq_ok {w : Word} {i : Instr} :
    decodeRdreg w = .ok i ↔
      (cmdSym w = 0 ∧ fitsIn 4 (cmdImm w) = true) ∧
        ∃ r, StatusReg.ofNumber (cmdImm w).toNat = some r ∧ .rdreg r = i := by
  unfold decodeRdreg
  split
  · split <;> simp_all
  · simp_all

/-- The operands the decoder lets through are in their ranges (R49). -/
theorem wellFormed_of_decode {c : Config} {w : Word} {i : Instr} (h : decode c w = .ok i) :
    i.wellFormed c = true := by
  unfold decode at h
  split at h
  · cases h
  split at h
  case h_3 => -- LOADW
    obtain ⟨⟨hs, hf⟩, rfl⟩ := decodeLoadw_eq_ok.mp h
    simp [Instr.wellFormed, hs, hf]
  case h_6 => -- ENC
    obtain ⟨⟨hs, -⟩, rfl⟩ := decodeEnc_eq_ok.mp h
    exact hs
  case h_9 => -- DECBIT
    obtain ⟨-, rfl⟩ := decodeDecbit_eq_ok.mp h
    rfl
  case h_11 => -- RDREG
    obtain ⟨-, r, -, rfl⟩ := decodeRdreg_eq_ok.mp h
    rfl
  case h_12 => cases h -- a reserved opcode
  all_goals -- the commands without operands
    obtain ⟨-, rfl⟩ := decodePlain_eq_ok.mp h
    rfl

/-! ### Reset and CLEAR -/

/-- The reset state of every configuration in R6's ranges meets the invariant: it holds no table. -/
theorem Invariant.resetWith {c : Config} (hc : c.wf) : Invariant (State.resetWith c) where
  cfg := hc
  nodes_wf := Store.wf_nil
  dict_wf := Store.wf_nil
  leaves_max := Nat.zero_le _
  nodes_max := Nat.zero_le _
  held := by simp [State.resetWith]
  leaves := fun k hk => absurd hk k.not_lt_zero
  symbols_differ := fun i _ _ _ hi => absurd hi i.not_lt_zero
  freq_fits := by simp [State.resetWith]
  phase := ⟨⟨rfl, rfl, rfl, rfl, rfl, rfl, rfl, rfl, rfl, rfl, rfl, rfl⟩, rfl⟩

theorem Invariant.clearAll {s : State} (hi : Invariant s) : Invariant (clearAll s) :=
  Invariant.port rfl (Invariant.resetWith hi.cfg)

/-! ### The encoder's changes -/

/-- A message is open and has no error (R69, R70). -/
theorem EncoderOk.openMessage {s : State} {out : Bits} (h : out.length ≤ s.cfg.encBufBits) :
    EncoderOk (openMessage s out) where
  fits := h
  failed := fun he => absurd rfl he
  closed := nofun
  no_symbol := fun _ => rfl
  symbol := Nat.two_pow_pos _

/-- No message is open (R71). -/
theorem EncoderOk.closeMessage (s : State) : EncoderOk (closeMessage s) where
  fits := Nat.zero_le _
  failed := fun he => absurd rfl he
  closed := fun _ => ⟨rfl, rfl⟩
  no_symbol := fun _ => rfl
  symbol := Nat.two_pow_pos _

/-- An open message has its first error (R96, R100). -/
theorem EncoderOk.voidMessage {s : State} {e : MsgErr} {x : Symbol} (ho : s.encOpen = true)
    (he : e ≠ .none) (hx : x.toNat < 2 ^ s.cfg.symW) : EncoderOk (voidMessage e x s) where
  fits := Nat.zero_le _
  failed := fun _ => ⟨ho, rfl⟩
  closed := fun h => absurd (h.symm.trans ho) Bool.false_ne_true
  no_symbol := fun h => absurd h he
  symbol := hx

/-- An open message without an error has other bits (R70). -/
theorem EncoderOk.withBits {s : State} (ok : EncoderOk s) (ho : s.encOpen = true)
    (he : s.encErr = .none) {out : Bits} (h : out.length ≤ s.cfg.encBufBits) :
    EncoderOk { s with encBuf := out } where
  fits := h
  failed := fun hne => absurd he hne
  closed := fun hc => absurd (hc.symm.trans ho) Bool.false_ne_true
  no_symbol := ok.no_symbol
  symbol := ok.symbol

/-! ### Every command answers and keeps the invariant -/

/-- An outcome is a next state that meets the invariant. -/
def Continues (r : Result) : Prop := ∃ t, r = .next t ∧ Invariant t

/-- An answer continues when the state but for the reply meets the invariant. -/
theorem Continues.of_replied {r : Result} {s : State} {w : Word} {b : Bits}
    (h : r = .next (s.replied w b)) (hi : Invariant s) : Continues r := ⟨_, h, hi.replied⟩

theorem Invariant.loadw_continues {s : State} (hi : Invariant s) (hp : s.phase = .load) {x : Symbol}
    {f : BitVec 32} (hx : x.toNat < 2 ^ s.cfg.symW) (hf : f.toNat < 2 ^ s.cfg.freqW) :
    Continues (execLoadw x f s) := by
  by_cases hn : s.nLeaves = s.cfg.nMax
  · rw [execLoadw_full hp hn]
    exact .of_replied (failTable_answers _ _) (hi.table_failed hp (by simp))
  · obtain ⟨b, hb, -⟩ := symbolLoaded_answers (fun k hk => (hi.leaves k hk).imp fun _ h => h.1) x
    rw [execLoadw_scanned hp hn hb]
    cases b with
    | true => exact .of_replied (failTable_answers _ _) (hi.table_failed hp (by simp))
    | false =>
      have hlt : s.nLeaves < s.cfg.nodesMax := by
        have := hi.leaves_max
        unfold Config.nodesMax
        omega
      exact .of_replied (appendLeaf_answers hlt x f) (hi.leaf_appended hp hn hb hx hf)

theorem Invariant.build_continues {s : State} (hi : Invariant s) (hp : s.phase = .load) :
    Continues (execBuild s) := by
  rw [execBuild_load hp]
  split
  · exact .of_replied (failTable_answers _ _) (hi.table_failed hp (by simp))
  · have h1 : 1 ≤ s.nLeaves := by omega
    obtain ⟨t, k, T, L, hok, hT, hk, hc, hb, hL, ht⟩ :=
      buildTree_answers hi (hi.noTree (by simp [hp])) h1
    exact .of_replied (ht.trans (congrArg _ (withReply_eq _ _)))
      (hi.built hp hok hT hk hc h1 hb hL)

theorem Invariant.encbeg_continues {s : State} (hi : Invariant s) (hp : s.phase = .ready) :
    Continues (execEncbeg s) :=
  .of_replied (execEncbeg_ready hp) (hi.encoder hp rfl (.openMessage (Nat.zero_le _)))

theorem Invariant.enc_continues {s : State} (hi : Invariant s) (hp : s.phase = .ready)
    (ho : s.encOpen = true) {x : Symbol} (hx : x.toNat < 2 ^ s.cfg.symW) :
    Continues (execEnc x s) := by
  by_cases he : s.encErr = .none
  · rw [execEnc_open hp ho he, appendCode]
    split
    · exact .of_replied (raise_noSuchKey _ _) (hi.encoder hp rfl (.voidMessage ho (by simp) hx))
    · split
      · exact .of_replied (raise_overflow _ _) (hi.encoder hp rfl (.voidMessage ho (by simp) hx))
      · next e _ hfit =>
        obtain ⟨-, -, -, hok, -⟩ := hi.ready hp
        have hlen : (s.encBuf ++ e.bits).length ≤ s.cfg.encBufBits := by
          have : e.bits.length ≤ e.len := List.length_take_le ..
          rw [List.length_append]
          omega
        exact .of_replied (respond_plain ..) (hi.encoder hp rfl (hok.withBits ho he hlen))
  · exact .of_replied (execEnc_error hp ho he x) hi

theorem Invariant.encend_continues {s : State} (hi : Invariant s) (hp : s.phase = .ready)
    (ho : s.encOpen = true) : Continues (execEncend s) := by
  have hclosed : Invariant (closeMessage s) := hi.encoder hp rfl (.closeMessage s)
  by_cases he : s.encErr = .none
  · exact .of_replied (execEncend_open hp ho he) hclosed
  · exact .of_replied (execEncend_error hp ho he) hclosed

/-- The decoder at the root (R74, R76). -/
theorem Invariant.pointerToRoot {s : State} (hi : Invariant s) (hp : s.phase = .ready) :
    Invariant (pointerToRoot s) := hi.decoder hp rfl (hi.at_root hp)

theorem Invariant.read_of_lt {s : State} (hi : Invariant s) {k : Nat} (hk : k < s.nNodes) :
    ∃ nd, Store.read s.nodes k = some nd := Option.isSome_iff_exists.mp ((hi.held k).mpr hk)

theorem Invariant.decPtr_lt {s : State} (hi : Invariant s) (hp : s.phase = .ready) :
    s.decPtr < s.nNodes := by
  obtain ⟨-, ht, -, -, hd⟩ := hi.ready hp
  have := ht.root_lt
  rcases hd.place with h | h <;> omega

/-- Both of DECBIT's reads find a record (R75): the pointer's own, and the one at the node the bit
leads to, which is older than an internal node and the same as a leaf. -/
theorem Invariant.moveTarget_answers {s : State} (hi : Invariant s) (hp : s.phase = .ready)
    (bit : Bool) : ∃ q m, moveTarget s bit = .ok q ∧ Store.read s.nodes q = some m := by
  have hlt := hi.decPtr_lt hp
  obtain ⟨nd, hnd⟩ := hi.read_of_lt hlt
  cases hk : nd.kind with
  | leaf => exact ⟨s.decPtr, nd, moveTarget_leaf hnd hk bit, hnd⟩
  | internal =>
    have hchild : nd.child bit < s.decPtr := by
      obtain ⟨hl, hr⟩ := hi.descends hp _ nd hnd hk
      cases bit
      · exact hl
      · exact hr
    obtain ⟨m, hm⟩ := hi.read_of_lt (hchild.trans hlt)
    exact ⟨nd.child bit, m, moveTarget_internal hnd hk bit, hm⟩

theorem Invariant.decbit_continues {s : State} (hi : Invariant s) (hp : s.phase = .ready)
    (bit : Bool) : Continues (execDecbit bit s) := by
  obtain ⟨q, m, hq, hm⟩ := hi.moveTarget_answers hp bit
  rw [execDecbit_ready hp hq]
  cases hk : m.kind with
  | leaf => exact .of_replied (arriveAt_leaf hm hk) (hi.decoder hp rfl (hi.emitted hp hm hk))
  | internal => exact .of_replied (arriveAt_internal hm hk) (hi.decoder hp rfl (hi.moved hp hq hm hk))

/-- Every well-formed command continues: it is refused with no change (R86), or it is run. -/
theorem Invariant.exec_continues {s : State} (hi : Invariant s) {i : Instr}
    (hw : i.wellFormed s.cfg = true) : Continues (exec i s) := by
  cases hr : refusedWith i s with
  | some w => exact .of_replied (refused_answers hr) hi
  | none =>
    cases i with
    | nop => exact .of_replied (respond_zero s) hi
    | clear => exact .of_replied (respond_zero _) hi.clearAll
    | rdreg r => exact .of_replied (respond_plain ..) hi
    | loadw x f =>
      have hp : s.phase = .load := by cases hp : s.phase <;> simp [refusedWith, hp] at hr ⊢
      obtain ⟨hx, hf⟩ : x.toNat < 2 ^ s.cfg.symW ∧ f.toNat < 2 ^ s.cfg.freqW := by
        simpa [Instr.wellFormed, fitsIn] using hw
      exact hi.loadw_continues hp hx hf
    | build =>
      have hp : s.phase = .load := by cases hp : s.phase <;> simp [refusedWith, hp] at hr ⊢
      exact hi.build_continues hp
    | encbeg => exact hi.encbeg_continues (by simpa [refusedWith] using hr)
    | enc x =>
      obtain ⟨hp, ho⟩ : s.phase = .ready ∧ s.encOpen = true := by simpa [refusedWith] using hr
      exact hi.enc_continues hp ho (by simpa [Instr.wellFormed, fitsIn] using hw)
    | encend =>
      obtain ⟨hp, ho⟩ : s.phase = .ready ∧ s.encOpen = true := by simpa [refusedWith] using hr
      exact hi.encend_continues hp ho
    | decbeg =>
      have hp : s.phase = .ready := by simpa [refusedWith] using hr
      exact .of_replied (execDecbeg_ready hp) (hi.pointerToRoot hp)
    | decbit bit => exact hi.decbit_continues (by simpa [refusedWith] using hr) bit
    | decend =>
      have hp : s.phase = .ready := by simpa [refusedWith] using hr
      exact .of_replied (execDecend_ready hp) (hi.pointerToRoot hp)

/-! ### Steps and runs -/

/-- Every step continues, on any word: it waits, or rejects the word, or executes a command whose
operands are in range. -/
theorem Invariant.step_continues {s : State} (hi : Invariant s) : Continues (step s) := by
  cases hc : s.cmds with
  | nil =>
    rw [step, acceptCommand_nil s hc]
    exact ⟨s, rfl, hi⟩
  | cons w rest =>
    have hport : Invariant { s with cmds := rest } := Invariant.port rfl hi
    rw [step, acceptCommand_cons s w rest hc]
    simp only
    split
    · next hd => exact hport.exec_continues (wellFormed_of_decode hd)
    · exact .of_replied (raise_illegal _) hport

theorem Invariant.run_continues {s : State} (hi : Invariant s) (n : Nat) :
    Continues (Host.Core.run Sys2Proof.core n s) := by
  induction n generalizing s with
  | zero => exact ⟨s, rfl, hi⟩
  | succ n ih =>
    obtain ⟨t, hstep, ht⟩ := hi.step_continues
    have hrun : Host.Core.run Sys2Proof.core (n + 1) s = Host.Core.run Sys2Proof.core n t := by
      simp only [Host.Core.run, show Sys2Proof.core.step s = .next t from hstep]
    rw [hrun]
    exact ih ht

/-- Settles O13: reset meets the invariant whatever commands wait, and every step keeps it. -/
theorem everyRunFromResetMeetsTheInvariant :
    Obligations.EveryRunFromResetMeetsTheInvariant := by
  unfold Obligations.EveryRunFromResetMeetsTheInvariant
  intro c cmds n hc
  have hreset : Invariant { State.resetWith c with cmds := cmds } :=
    Invariant.port rfl (Invariant.resetWith hc)
  exact hreset.run_continues n

end Sys2Proof.Machine
end

section
/-! Proofs of `10_state.md`: the status registers (R30) as RDREG returns them (R85). -/

namespace Sys2Proof.Machine

/-! ### Fields as numbers -/

/-- Two fields side by side are the high one times its weight and the low one. -/
theorem toNat_append_eq_add {m n : Nat} (x : BitVec m) (y : BitVec n) :
    (x ++ y).toNat = x.toNat * 2 ^ n + y.toNat := by
  rw [BitVec.toNat_append, ← Nat.shiftLeft_add_eq_or_of_lt y.isLt, Nat.shiftLeft_eq]

theorem toNat_bit1 (b : Bool) : (bit1 b).toNat = bitNumber b := by cases b <;> rfl

theorem toNat_zext32 {n : Nat} (h : n < 2 ^ 32) : (zext32 n).toNat = n := Nat.mod_eq_of_lt h

/-! ### Every register fits its 32 bits -/

theorem nMax_le_of_wf {c : Config} (hc : c.wf) : c.nMax ≤ 2 ^ 16 := by
  obtain ⟨⟨-, hsym⟩, -, ⟨-, hn⟩, -⟩ := hc
  exact hn.trans (Nat.pow_le_pow_right (by decide) hsym)

theorem Invariant.nNodes_le {s : State} (hi : Invariant s) : s.nNodes ≤ 2 * 2 ^ 16 := by
  have hnodes := hi.nodes_max
  have := nMax_le_of_wf hi.cfg
  unfold Config.nodesMax at hnodes
  omega

/-- Bounds, in every phase, of the registers that hold node indices, a depth and a count of bits. -/
structure TreeRegistersBounded (s : State) : Prop where
  root : s.root ≤ s.nNodes
  decPtr : s.decPtr ≤ s.nNodes
  decLeaf : s.decLeaf ≤ s.nLeaves
  decDepth : s.decDepth ≤ s.cfg.nMax
  encBuf : s.encBuf.length ≤ s.cfg.encBufBits

theorem Invariant.treeRegistersBounded {s : State} (hi : Invariant s) : TreeRegistersBounded s := by
  by_cases hp : s.phase = .ready
  · obtain ⟨-, ht, -, he, hd⟩ := hi.ready hp
    have hdepth : s.decDepth ≤ s.cfg.nMax := by
      have := hd.bound
      unfold Config.codeMax at this
      omega
    exact ⟨ht.root_lt.le, (hi.decPtr_lt hp).le, hd.leaf.le, hdepth, he.fits⟩
  · have hn := hi.noTree hp
    constructor <;> simp [hn.root, hn.decPtr, hn.decLeaf, hn.decDepth, hn.encBuf]

/-- The value of a status register is the number its fields make at their bit positions (R30): no
field is cut off, because each fits its bits. -/
theorem Invariant.toNat_statusReg {s : State} (hi : Invariant s) (r : StatusReg) :
    (statusReg s r).toNat = statusNumber s r := by
  have hb := hi.treeRegistersBounded
  have hnodes := hi.nNodes_le
  have hmax := nMax_le_of_wf hi.cfg
  have hleaves := hi.leaves_max
  obtain ⟨⟨-, hsym⟩, ⟨-, hfreq⟩, -, -, hbuf⟩ := hi.cfg
  cases r with
  | phase | encerr | decsym | cfg0 =>
    simp only [statusReg, statusNumber, toNat_append_eq_add, toNat_bit1, BitVec.toNat_ofNat]
    omega
  | nleaves | nnodes | cfg1 => exact toNat_zext32 (by omega)
  | root => exact toNat_zext32 (by have := hb.root; omega)
  | enccnt => exact toNat_zext32 (by have := hb.encBuf; omega)
  | decptr => exact toNat_zext32 (by have := hb.decPtr; omega)
  | decdepth => exact toNat_zext32 (by have := hb.decDepth; omega)
  | decleaf => exact toNat_zext32 (by have := hb.decLeaf; omega)

/-- The registers 0x3 to 0x9 outside READY (R30). -/
theorem NoTree.statusReg_eq_zero {s : State} (hn : NoTree s) {r : StatusReg} (h3 : 3 ≤ r.number)
    (h9 : r.number ≤ 9) : statusReg s r = 0 := by
  cases r with
  | phase | nleaves | nnodes | cfg0 | cfg1 => simp [StatusReg.number] at h3 h9
  | root => simp [statusReg, hn.root, zext32]
  | encerr => simp only [statusReg, hn.encErr, hn.encErrSym]; rfl
  | enccnt => simp [statusReg, hn.encBuf, zext32]
  | decptr => simp [statusReg, hn.decPtr, zext32]
  | decdepth => simp [statusReg, hn.decDepth, zext32]
  | decsym => simp only [statusReg, hn.decValid, hn.decSym]; rfl
  | decleaf => simp [statusReg, hn.decLeaf, zext32]

/-- The numbers 0xC to 0xF name no register, and the word is illegal (R50). -/
theorem decode_reservedRegister (c : Config) (n : BitVec 4) (h : 12 ≤ n.toNat) :
    decode c (mkCmd 0xA 0 (n.setWidth 32)) = .error .reservedRegister := by
  have hnum : (n.setWidth 32).toNat = n.toNat := BitVec.toNat_setWidth_of_le (by decide)
  have hfits : fitsIn 4 (n.setWidth 32) = true := by simp [fitsIn, hnum, n.isLt]
  have hnone : StatusReg.ofNumber (n.setWidth 32).toNat = none :=
    StatusReg.ofNumber_none.mpr (hnum ▸ h)
  simp only [decode, decodeRdreg, cmdRsvd0_mkCmd, cmdOp_mkCmd, cmdSym_mkCmd, cmdImm_mkCmd, hfits, hnone]
  rfl

theorem exec_rdreg (r : StatusReg) (s : State) :
    exec (.rdreg r) s = .next (s.replied (rspWord 0 0 0 0 (statusReg s r)) []) := respond_plain ..

/-- Settles O19: RDREG answers with `statusReg` and changes nothing (`exec_rdreg`), and that is the
number of the register's fields. -/
theorem rdregReadsTheStatusRegisters : Obligations.RdregReadsTheStatusRegisters := by
  unfold Obligations.RdregReadsTheStatusRegisters
  refine ⟨fun s r hi => ⟨statusReg s r, exec_rdreg r s, hi.toNat_statusReg r⟩,
    fun s r hi hp h3 h9 => ?outsideReady, fun s hc => ⟨?cfg0, ?cfg1⟩, decode_reservedRegister⟩
  case outsideReady => rw [exec_rdreg, (hi.noTree hp).statusReg_eq_zero h3 h9]
  case cfg0 => rw [exec_rdreg, statusReg, hc]; rfl
  case cfg1 => rw [exec_rdreg, statusReg, hc]; rfl

end Sys2Proof.Machine
end

section
/-! Proofs of `30_encoding.md`: the illegal words (R50). A field of a word is within a width exactly
when none of its bits above that width is set; with that, a word is legal exactly when none of R50's
four clauses holds. -/

namespace Sys2Proof.Machine

/-! ### Fields of a word, by their bits -/

/-- The field of `n` bits from bit `lo` up is within its low `k` bits exactly when no bit of the word
that lies in the field above them is set. -/
theorem fitsIn_extractLsb' (w : Word) (lo n k : Nat) :
    fitsIn k (w.extractLsb' lo n) = true ↔
      ∀ b, lo + k ≤ b → b < lo + n → w.getLsbD b = false := by
  simp only [fitsIn_iff, BitVec.getLsbD_extractLsb', Bool.and_eq_false_imp, decide_eq_true_eq]
  constructor
  · intro h b hk hn
    have hb := h (b - lo) (by omega) (by omega)
    rwa [Nat.add_sub_cancel' (by omega)] at hb
  · exact fun h i hk hn => h (lo + i) (by omega) (by omega)

theorem fitsIn_zero {n : Nat} (v : BitVec n) : fitsIn 0 v = true ↔ v = 0 := by
  simp [fitsIn, BitVec.toNat_eq]

theorem cmdRsvd0_eq_zero_iff (w : Word) :
    cmdRsvd0 w = 0 ↔ ∀ b, 48 ≤ b → b < 60 → w.getLsbD b = false := by
  rw [← fitsIn_zero, cmdRsvd0, fitsIn_extractLsb']

theorem fitsIn_cmdSym_iff (k : Nat) (w : Word) :
    fitsIn k (cmdSym w) = true ↔ ∀ b, 32 + k ≤ b → b < 48 → w.getLsbD b = false :=
  fitsIn_extractLsb' w 32 16 k

theorem fitsIn_cmdImm_iff (k : Nat) (w : Word) :
    fitsIn k (cmdImm w) = true ↔ ∀ b, k ≤ b → b < 32 → w.getLsbD b = false := by
  rw [cmdImm, fitsIn_extractLsb', Nat.zero_add, Nat.zero_add]

/-- RDREG's register number `imm[3:0]` is the whole of an `imm` whose other bits are zero. -/
theorem toNat_registerNumber {w : Word} (h : fitsIn 4 (cmdImm w) = true) :
    (w.extractLsb' 0 4).toNat = (cmdImm w).toNat := by
  have hlt : (cmdImm w).toNat < 2 ^ 4 := of_decide_eq_true h
  simp only [cmdImm, BitVec.extractLsb'_toNat] at hlt ⊢
  omega

/-! ### The operands an opcode takes -/

/-- How many low bits of `sym` and of `imm` an opcode uses (R49). -/
def operandWidths (c : Config) (op : Nat) : Nat × Nat :=
  match op with
  | 2 => (c.symW, c.freqW)
  | 5 => (c.symW, 0)
  | 8 => (0, 1)
  | 10 => (0, 4)
  | _ => (0, 0)

/-- Both operand fields are within the widths the word's opcode uses. -/
def OperandsFit (c : Config) (w : Word) : Prop :=
  fitsIn (operandWidths c (cmdOp w).toNat).1 (cmdSym w) = true ∧
  fitsIn (operandWidths c (cmdOp w).toNat).2 (cmdImm w) = true

/-- The bits that must be zero are those of `sym` and `imm` above the widths the opcode uses (R49). -/
theorem mustBeZero_iff (c : Config) (op b : Nat) :
    mustBeZero c op b ↔
      (32 + (operandWidths c op).1 ≤ b ∧ b < 48) ∨ ((operandWidths c op).2 ≤ b ∧ b < 32) := by
  unfold mustBeZero operandWidths
  split <;> simp only <;> omega

theorem operandsFit_iff (c : Config) (w : Word) :
    OperandsFit c w ↔ ∀ b, mustBeZero c (cmdOp w).toNat b → w.getLsbD b = false := by
  simp only [OperandsFit, fitsIn_cmdSym_iff, fitsIn_cmdImm_iff, mustBeZero_iff]
  grind

/-! ### Legal and illegal words -/

/-- Of the words with RDREG's opcode, those that name one of its registers are accepted (R49). -/
theorem decodeRdreg_accepts_iff (w : Word) :
    (∃ i, decodeRdreg w = .ok i) ↔
      (cmdSym w = 0 ∧ fitsIn 4 (cmdImm w) = true) ∧ (w.extractLsb' 0 4).toNat < 12 := by
  have hnamed : (∃ i r, StatusReg.ofNumber (cmdImm w).toNat = some r ∧ Instr.rdreg r = i) ↔
      (cmdImm w).toNat < 12 := by
    simp [← Option.ne_none_iff_exists', StatusReg.ofNumber_none]
  simp only [decodeRdreg_eq_ok, exists_and_left, hnamed]
  exact and_congr_right fun ⟨_, hfits⟩ => by rw [toNat_registerNumber hfits]

/-- The words the decoder accepts: the opposite of each clause of R50. -/
theorem decode_accepts_iff (c : Config) (w : Word) :
    (∃ i, decode c w = .ok i) ↔
      cmdRsvd0 w = 0 ∧ (cmdOp w).toNat < 11 ∧ OperandsFit c w ∧
        ((cmdOp w).toNat = 10 → (w.extractLsb' 0 4).toNat < 12) := by
  unfold decode
  split
  · next hr => exact iff_of_false (by simp) fun ⟨h, _⟩ => hr h
  next hr =>
  have hrsvd : cmdRsvd0 w = 0 := not_not.mp hr
  split
  case h_3 hop => -- LOADW
    simp [hop, hrsvd, decodeLoadw_eq_ok, OperandsFit, operandWidths]
  case h_6 hop => -- ENC
    simp [hop, hrsvd, decodeEnc_eq_ok, OperandsFit, operandWidths, fitsIn_zero]
  case h_9 hop => -- DECBIT
    simp [hop, hrsvd, decodeDecbit_eq_ok, OperandsFit, operandWidths, fitsIn_zero]
  case h_11 hop => -- RDREG
    rw [decodeRdreg_accepts_iff]
    simp [hop, hrsvd, OperandsFit, operandWidths, fitsIn_zero]
  case h_12 => -- a reserved opcode
    exact iff_of_false (by simp) fun ⟨_, hlt, _⟩ => by grind only
  all_goals -- the commands without operands
    next hop => simp [hop, hrsvd, decodePlain_eq_ok, OperandsFit, operandWidths, fitsIn_zero]

theorem decode_rejects_iff_not_accepts (c : Config) (w : Word) :
    (∃ e, decode c w = .error e) ↔ ¬ ∃ i, decode c w = .ok i := by
  cases decode c w <;> simp

/-- A word is rejected exactly when one of R50's clauses holds. -/
theorem decode_rejects_iff (c : Config) (w : Word) :
    (∃ e, decode c w = .error e) ↔ IllegalCommand c w := by
  rw [decode_rejects_iff_not_accepts, decode_accepts_iff, cmdRsvd0_eq_zero_iff, operandsFit_iff,
    IllegalCommand]
  grind

/-- A step on a word the decoder rejects takes it off the port and answers ILLEGAL (R99). -/
theorem step_of_decode_error {s : State} {w : Word} {rest : List Word} {e : IllegalWord}
    (hc : s.cmds = w :: rest) (he : decode s.cfg w = .error e) :
    step s = .next (({ s with cmds := rest } : State).replied (rspWord 4 0 0 0 0) []) := by
  rw [step, acceptCommand_cons s w rest hc]
  simp only [he]
  exact raise_illegal _

/-- Settles O3: the rejected words by `decode_rejects_iff`, the step on one by
`step_of_decode_error`. -/
theorem illegalWordsAreThoseOfTheFourClauses :
    Obligations.IllegalWordsAreThoseOfTheFourClauses := by
  unfold Obligations.IllegalWordsAreThoseOfTheFourClauses
  refine ⟨decode_rejects_iff, fun s w rest hc hw => ?step⟩
  case step =>
    obtain ⟨e, he⟩ := (decode_rejects_iff s.cfg w).mpr hw
    exact step_of_decode_error hc he

end Sys2Proof.Machine
end

section
/-! Proofs of `40_tree_builder.md`: LOADW in every case (R55), and that a failed construction is left by
CLEAR alone (R97, R104). -/

namespace Sys2Proof.Machine

/-! ### The failed phase -/

/-- In phase FAILED every command but CLEAR answers, and its reply is all that it changes: R86's table
refuses it, or it is NOP or RDREG. -/
theorem exec_replies_in_failed {s : State} (hp : s.phase = .failed) {i : Instr} (hi : i ≠ .clear) :
    ∃ w, exec i s = .next (s.replied w []) := by
  cases hr : refusedWith i s with
  | some w => exact ⟨w, refused_answers hr⟩
  | none =>
    cases i with
    | nop => exact ⟨_, respond_zero s⟩
    | rdreg r => exact ⟨_, respond_plain ..⟩
    | clear => exact absurd rfl hi
    | _ => simp [refusedWith, hp] at hr

/-- A sequence without CLEAR answers in phase FAILED and adds nothing but replies. -/
theorem execAll_replies_in_failed {is : List Instr} {s : State} (hp : s.phase = .failed)
    (hc : .clear ∉ is) : ∃ t, execAll is s = .next t ∧ t = { s with replies := t.replies } := by
  induction is generalizing s with
  | nil => exact ⟨s, rfl, rfl⟩
  | cons i is ih =>
    obtain ⟨w, hw⟩ := exec_replies_in_failed hp (List.ne_of_not_mem_cons hc).symm
    obtain ⟨t, ht, hsame⟩ := ih (s := s.replied w []) hp (List.not_mem_of_not_mem_cons hc)
    exact ⟨t, by rw [execAll, hw]; exact ht, hsame⟩

/-! ### LOADW on a table with room -/

/-- LOADW's scan finds exactly the symbols of the loaded leaves. -/
theorem Invariant.symbolLoaded_answers {s : State} (hi : Invariant s) (x : Symbol) :
    ∃ b, symbolLoaded s x s.nLeaves = .ok b ∧ (b = true ↔ Loaded s x) :=
  Machine.symbolLoaded_answers (fun k hk => (hi.leaves k hk).imp fun _ h => h.1) x

/-- While the table has room, the entry LOADW stores to is one of those that exist (R33). -/
theorem Invariant.nLeaves_lt_nodesMax {s : State} (hi : Invariant s) (hn : s.nLeaves ≠ s.cfg.nMax) :
    s.nLeaves < s.cfg.nodesMax := by
  have := hi.leaves_max
  unfold Config.nodesMax
  omega

theorem Invariant.execLoadw_loaded {s : State} (hi : Invariant s) (hp : s.phase = .load)
    (hn : s.nLeaves ≠ s.cfg.nMax) {x : Symbol} (hx : Loaded s x) (f : BitVec 32) :
    execLoadw x f s = failTable .duplicate s := by
  obtain ⟨b, hb, hiff⟩ := hi.symbolLoaded_answers x
  rw [execLoadw_scanned hp hn hb, if_pos (hiff.mpr hx)]

theorem Invariant.execLoadw_new {s : State} (hi : Invariant s) (hp : s.phase = .load)
    (hn : s.nLeaves ≠ s.cfg.nMax) {x : Symbol} (hx : ¬ Loaded s x) (f : BitVec 32) :
    execLoadw x f s = appendLeaf x f s := by
  obtain ⟨b, hb, hiff⟩ := hi.symbolLoaded_answers x
  rw [execLoadw_scanned hp hn hb, if_neg (hiff.not.mpr hx)]

/-- Settles O20: one equation per case of R55, and `execAll_replies_in_failed` for what follows a
failure. -/
theorem loadwAppendsALeafOrFails : Obligations.LoadwAppendsALeafOrFails := by
  unfold Obligations.LoadwAppendsALeafOrFails
  intro s sym freq
  refine ⟨fun hp => ?ready, fun hp => ?failed, fun hp hn => ?full, fun hi hp hn hl => ?duplicate,
    fun hi hp hn hl => ?new, fun is t u _ ht hc hu => ?sticky⟩
  case ready => exact (execLoadw_ready hp sym freq).trans (raise_seq s)
  case failed => exact (execLoadw_failed hp sym freq).trans (raise_weights _ s)
  case full => exact (execLoadw_full hp hn sym freq).trans (failTable_answers .capacity s)
  case duplicate => exact (hi.execLoadw_loaded hp hn hl freq).trans (failTable_answers .duplicate s)
  case new =>
    exact (hi.execLoadw_new hp hn hl freq).trans
      (appendLeaf_answers (hi.nLeaves_lt_nodesMax hn) sym freq)
  case sticky =>
    obtain ⟨v, hv, hsame⟩ := execAll_replies_in_failed ht hc
    obtain rfl : v = u := next_inj (hv.symm.trans hu)
    rw [hsame]
    exact ⟨ht, rfl⟩

end Sys2Proof.Machine
end

section
/-! Proofs of `40_tree_builder.md`: the order on keys (R57), the left child of a merge (R62), and BUILD
on one pair (R64). -/

namespace Sys2Proof.Machine

/-! ### The order on keys -/

theorem Key.lt_trans {a b c : Key} (hab : a.lt b = true) (hbc : b.lt c = true) : a.lt c = true := by
  rw [Key.lt_iff] at *
  omega

theorem Key.lt_or_lt_of_ne {a b : Key} (h : a ≠ b) : a.lt b = true ∨ b.lt a = true := by
  by_contra hnot
  obtain ⟨hab, hba⟩ := not_or.mp hnot
  exact h (Key.eq_of_not_lt (Bool.eq_false_of_not_eq_true hab) (Bool.eq_false_of_not_eq_true hba))

/-- Settles O26: the order by frequency and then index is `Key.lt_iff`, and the rest follows from it. -/
theorem keysAreStrictlyTotallyOrdered : Obligations.KeysAreStrictlyTotallyOrdered := by
  unfold Obligations.KeysAreStrictlyTotallyOrdered
  exact ⟨Key.lt_iff, Key.lt_self, fun _ _ _ => Key.lt_trans, fun _ _ => Key.lt_or_lt_of_ne⟩

/-! ### The children of a merged node -/

/-- Every record from the first internal index on joins a smaller left and a larger right key, under
their sum, at any turn of the merge loop. -/
theorem MergeOk.children {s t : State} {h : Heap} {T : Nat} (hok : MergeOk s t h T) {k : Nat}
    {nd : Node} (hk : s.nLeaves ≤ k) (hr : Store.read t.nodes k = some nd) :
    ∃ l r, Store.read t.nodes nd.left = some l ∧ Store.read t.nodes nd.right = some r ∧
      Key.lt ⟨l.freq, nd.left⟩ ⟨r.freq, nd.right⟩ = true ∧ nd.freq = l.freq + r.freq := by
  have hlt : k < t.nNodes := (hok.held k).mp (by simp [hr])
  obtain ⟨nd', hr', -, -, -, -, -, l, r, hl, hrr, hsum⟩ := hok.internals k hk hlt
  obtain rfl : nd = nd' := Option.some.inj (hr.symm.trans hr')
  exact ⟨l, r, hl, hrr, hok.in_order k nd l r hk hr hl hrr, hsum⟩

theorem execBuild_some {s : State} (hp : s.phase = .load) (h1 : 1 ≤ s.nLeaves) :
    execBuild s = buildTree s := by
  rw [execBuild_load hp, if_neg (by omega)]

/-- Settles O27: BUILD's tree is the one the merge loop leaves, whose internal nodes are as
`MergeOk.children` says, with no frequency above the total of the leaves'. -/
theorem smallerKeyIsTheLeftChild : Obligations.SmallerKeyIsTheLeftChild := by
  unfold Obligations.SmallerKeyIsTheLeftChild
  intro s hi hp h1
  obtain ⟨t, root, T, L, hok, hT, -, -, -, -, hbuild⟩ :=
    buildTree_answers hi (hi.noTree (by simp [hp])) h1
  refine ⟨_, (execBuild_some hp h1).trans hbuild, fun k nd hk hr => ?_⟩
  obtain ⟨l, r, hl, hrr, hlt, hsum⟩ := hok.children hk hr
  exact ⟨l, r, hl, hrr, hlt, hsum, (hok.fits k nd hr).trans_lt hT⟩

/-! ### One pair -/

/-- One leaf is the whole queue: no merge takes place, and the leaf is the root (R64). -/
theorem buildTree_one_leaf {s : State} (h1 : s.nLeaves = 1) {nd : Node}
    (hr : Store.read s.nodes 0 = some nd) : buildTree s = finishBuild s 0 := by
  have hq : fillQueue s 1 = .ok [⟨nd.freq, 0⟩] := by
    simp only [fillQueue, readNode_of_read hr]
    rfl
  simp only [buildTree, h1, hq]
  rfl

/-- A leaf root's dictionary is the one entry of its symbol, when no entry was valid before (R67). -/
theorem finishedDict_leaf {s : State} {root : Nat} {nd : Node} (hd : s.dict = [])
    (hr : Store.read s.nodes root = some nd) (hk : nd.kind = .leaf) (L : List (Nat × Bits)) :
    finishedDict s root L = [(nd.sym.toNat, dictRecord s.cfg [false])] := by
  simp only [finishedDict, hr, hk, hd, Store.write]

/-- Settles O28: BUILD on the lone leaf is its last stage alone, on a leaf root. -/
theorem lonePairBuildsALeafRoot : Obligations.LonePairBuildsALeafRoot := by
  unfold Obligations.LonePairBuildsALeafRoot
  intro s hi hp h1
  have hn : NoTree s := hi.noTree (by simp [hp])
  obtain ⟨nd, hr, hleaf, -⟩ := hi.leaves 0 (by omega)
  refine ⟨nd, hr, ?_⟩
  have hcount : 1 = s.nNodes := by rw [hn.nodes_are_leaves, h1]
  calc execBuild s
    _ = buildTree s := execBuild_some hp (by omega)
    _ = finishBuild s 0 := buildTree_one_leaf h1 hr
    _ = .next ((builtState s 0 [(0, [])]).withReply ⟨Response.word { data := zext32 0 }, []⟩) :=
        finishBuild_answers (.leaf hr hleaf) hcount
    _ = _ := by
        rw [builtState, finishedDict_leaf hn.dict hr hleaf]
        rfl

end Sys2Proof.Machine
end

section
/-! Proofs of `41_encoder.md`: the codes of the dictionary are paths of the tree (R66), none of them the
beginning of another (R68), and the encoder's commands in every case (R69, R70, R71). -/

namespace Sys2Proof.Machine

/-! ### The dictionary -/

/-- The symbols with an entry are the loaded ones (R66). -/
theorem DictionaryOk.readDict_isSome_iff {s : State} (hd : DictionaryOk s) (x : Symbol) :
    (readDict s x).isSome = true ↔ Loaded s x := by
  refine (hd.domain x.toNat).trans ⟨?_, fun hx => ⟨x, hx, rfl⟩⟩
  rintro ⟨y, hy, hyx⟩
  exact BitVec.eq_of_toNat_eq hyx ▸ hy

/-- The bits of a symbol's entry lead from the root to its leaf, with two leaves or more (R66). -/
theorem DictionaryOk.walk_bits {s : State} (hd : DictionaryOk s) (h2 : 2 ≤ s.nLeaves) {x : Symbol}
    {e : DictEntry} (hx : readDict s x = some e) :
    ∃ k nd, k < s.nLeaves ∧ Store.read s.nodes k = some nd ∧ nd.sym = x ∧
      walk s.nodes s.root e.bits = some k := by
  obtain ⟨k, nd, hk, hr, rfl⟩ := (hd.readDict_isSome_iff x).mp (by simp [hx])
  obtain ⟨path, hentry, -, -, -, hwalk⟩ := hd.codes k nd hk hr
  obtain rfl : dictRecord s.cfg path = e := Option.some.inj (hentry.symm.trans hx)
  exact ⟨k, nd, hk, hr, rfl, by rw [dictRecord_bits]; exact hwalk h2⟩

/-- One leaf is loaded with one symbol. -/
theorem Loaded.eq_of_one_leaf {s : State} (h1 : s.nLeaves = 1) {x y : Symbol} (hx : Loaded s x)
    (hy : Loaded s y) : x = y := by
  obtain ⟨i, a, hi, ha, rfl⟩ := hx
  obtain ⟨j, b, hj, hb, rfl⟩ := hy
  obtain rfl : i = j := by omega
  obtain rfl : a = b := Option.some.inj (ha.symm.trans hb)
  rfl

/-- Settles O32: a code another one begins with ends at the same leaf (`walk_prefix_leaf`), hence
belongs to the same symbol; a lone leaf has but one symbol. -/
theorem dictionaryIsPrefixFree : Obligations.DictionaryIsPrefixFree := by
  unfold Obligations.DictionaryIsPrefixFree
  intro s x y e f hi hp hne hx hy hbegins
  obtain ⟨-, ht, hd, -⟩ := hi.ready hp
  rcases ht.some_leaf.eq_or_lt with h1 | h2
  · have hxl : Loaded s x := (hd.readDict_isSome_iff x).mp (by simp [hx])
    have hyl : Loaded s y := (hd.readDict_isSome_iff y).mp (by simp [hy])
    exact hne (hxl.eq_of_one_leaf h1.symm hyl)
  · obtain ⟨i, a, hia, ha, rfl, hwa⟩ := hd.walk_bits h2 hx
    obtain ⟨j, b, -, hb, rfl, hwb⟩ := hd.walk_bits h2 hy
    obtain ⟨rfl, -⟩ := walk_prefix_leaf hwa ha (hi.leaf_record ha hia).1 hwb hbegins
    exact hne (congrArg Node.sym (Option.some.inj (ha.symm.trans hb)))

/-! ### The dictionary after BUILD -/

/-- Where every leaf below a node is listed once, one walk alone leads from the node to a leaf. -/
theorem Below.walk_unique {nodes : Store Node} {p c : Nat} {L : List (Nat × Bits)}
    (h : Below nodes p L c) (hL : (L.map Prod.fst).Nodup) {q : Nat} {nd : Node}
    (hq : Store.read nodes q = some nd) (hk : nd.kind = .leaf) {as bs : Bits}
    (ha : walk nodes p as = some q) (hb : walk nodes p bs = some q) : as = bs :=
  congrArg Prod.snd
    (List.inj_on_of_nodup_map hL (h.complete ha hq hk) (h.complete hb hq hk) rfl)

theorem MergeOk.nLeaves {s t : State} {h : Heap} {T : Nat} (hok : MergeOk s t h T) :
    t.nLeaves = s.nLeaves := by
  rw [hok.only]

/-- Merging loads no symbol. -/
theorem MergeOk.loaded {s t : State} {h : Heap} {T : Nat} (hok : MergeOk s t h T) {x : Symbol}
    (hx : Loaded t x) : Loaded s x := by
  obtain ⟨k, nd, hk, hr, hs⟩ := hx
  rw [hok.nLeaves] at hk
  exact ⟨k, nd, hk, (hok.old k hk).symm.trans hr, hs⟩

/-- Settles O30: the state BUILD leaves meets the invariant, so each leaf's code leads to it; and the
merge loop has every leaf below the root once, so no other path does. -/
theorem codesArePathsFromTheRoot : Obligations.CodesArePathsFromTheRoot := by
  unfold Obligations.CodesArePathsFromTheRoot
  intro s hi hp h2
  have h1 : 1 ≤ s.nLeaves := by omega
  obtain ⟨t, root, T, L, hok, hT, hroot, hcount, hbelow, hL, hbuild⟩ :=
    buildTree_answers hi (hi.noTree (by simp [hp])) h1
  have hbuilt : Invariant (builtState t root.idx L) := hi.built hp hok hT hroot hcount h1 hbelow hL
  have hn : (builtState t root.idx L).nLeaves = s.nLeaves := hok.nLeaves
  obtain ⟨-, -, hd, -⟩ := hbuilt.ready rfl
  refine ⟨_, (execBuild_some hp h1).trans hbuild, fun q nd hq hr => ?leaf, fun x hx => ?notLoaded⟩
  case leaf =>
    rw [← hn] at hq h2
    obtain ⟨path, hentry, -, -, -, hwalk⟩ := hd.codes q nd hq hr
    have hleaf : nd.kind = .leaf := (hbuilt.leaf_record hr hq).1
    have honce : (L.map Prod.fst).Nodup := hL.nodup_iff.mpr List.nodup_range
    exact ⟨path, hwalk h2, fun _ ho => hbelow.walk_unique honce hr hleaf ho (hwalk h2), hentry⟩
  case notLoaded =>
    have hno : ¬ Loaded (builtState t root.idx L) x := fun h => hx (hok.loaded h)
    exact Option.not_isSome_iff_eq_none.mp ((hd.readDict_isSome_iff x).not.mpr hno)

/-! ### Commands without an open message -/

/-- Outside READY, or with no message open, R86's table refuses ENC and ENCEND with SEQ. -/
theorem exec_seq_without_message {s : State} (h : s.phase ≠ .ready ∨ s.encOpen = false) {i : Instr}
    (hi : (∃ x, i = .enc x) ∨ i = .encend) :
    exec i s = .next (s.replied (rspWord 3 0 0 0 0) []) := by
  have hno : ¬ (s.phase = .ready ∧ s.encOpen = true) := by
    rintro ⟨hp, ho⟩
    simp [hp, ho] at h
  apply refused_answers
  rcases hi with ⟨x, rfl⟩ | rfl
  · exact if_neg hno
  · exact if_neg hno

/-- Settles O34: `execEncbeg_ready` in READY, SEQ elsewhere. -/
theorem encbegOpensAMessage : Obligations.EncbegOpensAMessage := by
  unfold Obligations.EncbegOpensAMessage
  intro s
  refine ⟨fun hp => ?refused, fun hp => execEncbeg_ready hp⟩
  case refused => exact (exec_seq_outside_ready hp (.inl rfl)).trans (raise_seq s)

/-! ### ENC in an open message -/

theorem appendCode_noSuchKey {s : State} {x : Symbol} (hx : readDict s x = none) :
    appendCode x s = .next ((voidMessage .noSuchKey x s).replied (rspWord 1 0 0 x 0) []) := by
  rw [appendCode, hx]
  exact raise_noSuchKey x _

theorem appendCode_overflow {s : State} {x : Symbol} {e : DictEntry} (hx : readDict s x = some e)
    (hl : s.cfg.encBufBits < s.encBuf.length + e.len) :
    appendCode x s = .next ((voidMessage .overflow x s).replied (rspWord 5 0 0 x 0) []) := by
  rw [appendCode, hx]
  exact (if_pos hl).trans (raise_overflow x _)

theorem appendCode_fits {s : State} {x : Symbol} {e : DictEntry} (hx : readDict s x = some e)
    (hl : s.encBuf.length + e.len ≤ s.cfg.encBufBits) :
    appendCode x s = .next (({ s with encBuf := s.encBuf ++ e.bits } : State).replied
      (rspWord 0 0 0 x (BitVec.ofNat 32 e.len)) []) := by
  rw [appendCode, hx]
  exact (if_neg hl.not_gt).trans (respond_plain .ok x _ _)

/-- Settles O35: one equation per check of R70. -/
theorem encAppendsACodeOrFails : Obligations.EncAppendsACodeOrFails := by
  unfold Obligations.EncAppendsACodeOrFails
  intro s x
  refine ⟨fun h => ?refused, fun hp ho he => ?stored, fun hp ho he hx => ?noSuchKey,
    fun e hp ho he hx hl => ?overflow, fun e hp ho he hx hl => ?fits⟩
  case refused => exact exec_seq_without_message h (.inl ⟨x, rfl⟩)
  case stored => exact execEnc_error hp ho he x
  case noSuchKey => exact (execEnc_open hp ho he x).trans (appendCode_noSuchKey hx)
  case overflow => exact (execEnc_open hp ho he x).trans (appendCode_overflow hx hl)
  case fits => exact (execEnc_open hp ho he x).trans (appendCode_fits hx hl)

/-- Settles O36: SEQ without a message, the stored error, or the buffer. -/
theorem encendDeliversTheMessageOrItsError : Obligations.EncendDeliversTheMessageOrItsError := by
  unfold Obligations.EncendDeliversTheMessageOrItsError
  intro s
  refine ⟨fun h => ?refused, fun hp ho he => ?stored, fun hp ho he => ?delivered⟩
  case refused => exact exec_seq_without_message h (.inr rfl)
  case stored => exact execEncend_error hp ho he
  case delivered => exact execEncend_open hp ho he

end Sys2Proof.Machine
end

section
/-! Proofs of `42_decoder.md`: the decoder's commands in every case (R74, R75, R76), and where its pointer
stands (R77). -/

namespace Sys2Proof.Machine

/-! ### The commands one by one -/

/-- Settles O40: `execDecbeg_ready` in READY, SEQ elsewhere; of the answers of BUILD in phase LOAD only
the one that built a tree is in READY. -/
theorem decbegStartsAtTheRoot : Obligations.DecbegStartsAtTheRoot := by
  unfold Obligations.DecbegStartsAtTheRoot
  intro s
  refine ⟨fun hp => ?refused, fun hp => execDecbeg_ready hp, fun t hp ht hready => ?built⟩
  case refused => exact (exec_seq_outside_ready hp (by simp)).trans (raise_seq s)
  case built =>
    cases exec_answer ht with
    | refused _ _ w hw => simp [refusedWith, hp] at hw
    | tableFailed => cases hready
    | built => exact ⟨rfl, rfl, rfl⟩

theorem execDecend_depth_zero {s : State} (hp : s.phase = .ready) (h0 : s.decDepth = 0) :
    execDecend s = .next ((pointerToRoot s).replied 0#64 []) := by
  rw [execDecend_ready hp, if_pos h0, h0]
  exact congrArg (fun w => Host.Outcome.next ((pointerToRoot s).replied w [])) rspWord_zero

theorem execDecend_depth_pos {s : State} (hp : s.phase = .ready) (h0 : s.decDepth ≠ 0) :
    execDecend s = .next ((pointerToRoot s).replied
      (rspWord 0 2 0 0 (BitVec.ofNat 32 s.decDepth)) []) := by
  rw [execDecend_ready hp, if_neg h0]

/-- Settles O42: one equation per case of R76, and SEQ outside READY. -/
theorem decendReportsDroppedBits : Obligations.DecendReportsDroppedBits := by
  unfold Obligations.DecendReportsDroppedBits
  intro s
  refine ⟨fun hp => ?refused, fun hp h0 => execDecend_depth_zero hp h0,
    fun hp h0 => execDecend_depth_pos hp h0⟩
  case refused => exact (exec_seq_outside_ready hp (by simp)).trans (raise_seq s)

/-- DECBIT's candidate, at either kind of node (R75). -/
theorem moveTarget_of_read {s : State} {n : Node} (h : Store.read s.nodes s.decPtr = some n)
    (bit : Bool) :
    moveTarget s bit =
      .ok (if n.kind = .internal then (if bit = true then n.right else n.left) else s.decPtr) := by
  cases hk : n.kind with
  | leaf => exact moveTarget_leaf h hk bit
  | internal => exact moveTarget_internal h hk bit

/-- Settles O41: the move is `moveTarget_of_read`, the arrival `arriveAt_leaf` or `arriveAt_internal`. -/
theorem decbitMovesAndEmits : Obligations.DecbitMovesAndEmits := by
  unfold Obligations.DecbitMovesAndEmits
  intro s bit
  refine ⟨fun hp => ?refused, fun n m q hp hn hq hm hk => ?emits, fun n m q hp hn hq hm hk => ?moves,
    fun hi hp => ?held⟩
  case refused => exact (exec_seq_outside_ready hp (by simp)).trans (raise_seq s)
  case emits =>
    exact (execDecbit_ready hp (hq ▸ moveTarget_of_read hn bit)).trans (arriveAt_leaf hm hk)
  case moves =>
    exact (execDecbit_ready hp (hq ▸ moveTarget_of_read hn bit)).trans (arriveAt_internal hm hk)
  case held =>
    obtain ⟨n, hn⟩ := hi.read_of_lt (hi.decPtr_lt hp)
    obtain ⟨q, m, hq, hm⟩ := hi.moveTarget_answers hp bit
    cases (moveTarget_of_read hn bit).symm.trans hq
    exact ⟨n, m, hn, hm⟩

/-! ### The pointer -/

/-- With two leaves or more the pointer is above the leaves: the root is. -/
theorem Invariant.nLeaves_le_decPtr {s : State} (hi : Invariant s) (hp : s.phase = .ready)
    (h2 : 2 ≤ s.nLeaves) : s.nLeaves ≤ s.decPtr := by
  obtain ⟨-, ht, -, -, hd⟩ := hi.ready hp
  have hcount := ht.count
  have hroot := ht.root
  rcases hd.place with h | h <;> omega

/-- Settles O16: away from the root the pointer is at an internal record, by a walk that is not empty;
an internal record's children hold values. -/
theorem pointerIsTheRootOrInternal : Obligations.PointerIsTheRootOrInternal := by
  unfold Obligations.PointerIsTheRootOrInternal
  intro s hi hp
  obtain ⟨-, ht, -, -, hd⟩ := hi.ready hp
  refine ⟨?place, fun h2 => ?internal⟩
  case place =>
    rcases hd.place with hroot | ⟨hge, hlt⟩
    · exact .inl hroot
    · obtain ⟨nd, hr, hkind, -⟩ := ht.internals _ hge hlt
      obtain ⟨path, -, hwalk⟩ := hd.depth
      by_cases hnil : path = []
      · subst hnil
        exact .inl (Option.some.inj hwalk).symm
      · exact .inr ⟨nd, path, hr, hkind, hnil, hwalk⟩
  case internal =>
    obtain ⟨nd, hr, hkind, -, -, -, -, l, r, hl, hrr, -⟩ :=
      ht.internals _ (hi.nLeaves_le_decPtr hp h2) (hi.decPtr_lt hp)
    exact ⟨nd, l, r, hr, hkind, hl, hrr⟩

end Sys2Proof.Machine
end

section
/-! Proofs of `42_decoder.md`: that every sequence of bits is a stream (R78), and the round trip of a
message through the encoder and the decoder (R82). -/

namespace Sys2Proof.Machine

/-! ### Sequences of commands -/

theorem execAll_cons {i : Instr} {s t : State} (h : exec i s = .next t) (is : List Instr) :
    execAll (i :: is) s = execAll is t := by
  rw [execAll, h]

theorem execAll_append {is : List Instr} {s t : State} (h : execAll is s = .next t)
    (js : List Instr) : execAll (is ++ js) s = execAll js t := by
  induction is generalizing s with
  | nil => rw [List.nil_append, next_inj h]
  | cons i is ih =>
    rw [execAll] at h
    rw [List.cons_append, execAll]
    cases he : exec i s with
    | next u =>
      rw [he] at h
      exact ih h
    | fault f => simp [he] at h
    | refused r => simp [he] at h

theorem execAll_singleton {i : Instr} {s t : State} (h : exec i s = .next t) :
    execAll [i] s = .next t := execAll_cons h []

/-! ### Streams -/

theorem SameButDecoder.trans {s t u : State} (h : SameButDecoder s t) (g : SameButDecoder t u) :
    SameButDecoder s u := by
  unfold SameButDecoder at g ⊢
  exact g.trans (by rw [h])

/-- The DECBITs of `bits` take `s` to `t`, with the replies `rs`, and change the decoder's part alone. -/
structure Streams (s : State) (bits : Bits) (rs : List Reply) (t : State) : Prop where
  answers : execAll (bits.map .decbit) s = .next t
  frame : SameButDecoder s t
  replies : t.replies = s.replies ++ rs

theorem Streams.nil (s : State) : Streams s [] [] s := ⟨rfl, rfl, (List.append_nil _).symm⟩

theorem Streams.append {s t u : State} {as bs : Bits} {rs qs : List Reply} (h : Streams s as rs t)
    (g : Streams t bs qs u) : Streams s (as ++ bs) (rs ++ qs) u where
  answers := by rw [List.map_append, execAll_append h.answers, g.answers]
  frame := h.frame.trans g.frame
  replies := by rw [g.replies, h.replies, List.append_assoc]

/-- The decoder after an emit of the leaf `q` (R75). -/
def emitAt (s : State) (q : Nat) (sym : Symbol) : State :=
  { s with decSym := sym, decLeaf := q, decValid := true, decPtr := s.root, decDepth := 0 }

/-- The decoder one level down, at `q` (R75). -/
def descendTo (s : State) (q : Nat) : State :=
  { s with decPtr := q, decDepth := s.decDepth + 1, decValid := false }

/-- A bit whose candidate is a leaf is a stream with one emit. -/
theorem Streams.emit {s : State} (hp : s.phase = .ready) {bit : Bool} {q : Nat} {m : Node}
    (hq : moveTarget s bit = .ok q) (hm : Store.read s.nodes q = some m) (hk : m.kind = .leaf) :
    Streams s [bit] [⟨rspWord 0 1 0 m.sym (BitVec.ofNat 32 q), []⟩]
      ((emitAt s q m.sym).replied (rspWord 0 1 0 m.sym (BitVec.ofNat 32 q)) []) where
  answers := execAll_singleton ((execDecbit_ready hp hq).trans (arriveAt_leaf hm hk))
  frame := rfl
  replies := rfl

/-- A bit whose candidate is an internal node is a stream with no emit. -/
theorem Streams.descend {s : State} (hp : s.phase = .ready) {bit : Bool} {q : Nat} {m : Node}
    (hq : moveTarget s bit = .ok q) (hm : Store.read s.nodes q = some m) (hk : m.kind = .internal) :
    Streams s [bit] [⟨rspWord 0 0 0 0 (BitVec.ofNat 32 q), []⟩]
      ((descendTo s q).replied (rspWord 0 0 0 0 (BitVec.ofNat 32 q)) []) where
  answers := execAll_singleton ((execDecbit_ready hp hq).trans (arriveAt_internal hm hk))
  frame := rfl
  replies := rfl

theorem SameButDecoder.phase {s t : State} (h : SameButDecoder s t) : t.phase = s.phase := by
  rw [h]

theorem Invariant.after_emit {s : State} (hi : Invariant s) (hp : s.phase = .ready) {q : Nat} {m : Node}
    (hm : Store.read s.nodes q = some m) (hk : m.kind = .leaf) : Invariant (emitAt s q m.sym) :=
  hi.decoder hp rfl (hi.emitted hp hm hk)

theorem Invariant.after_descend {s : State} (hi : Invariant s) (hp : s.phase = .ready) {bit : Bool}
    {q : Nat} {m : Node} (hq : moveTarget s bit = .ok q) (hm : Store.read s.nodes q = some m)
    (hk : m.kind = .internal) : Invariant (descendTo s q) :=
  hi.decoder hp rfl (hi.moved hp hq hm hk)

/-- Every bit is a stream, with one reply, of status OK and without a burst (R78). -/
theorem Invariant.streams_bit {s : State} (hi : Invariant s) (hp : s.phase = .ready) (bit : Bool) :
    ∃ r t, Streams s [bit] [r] t ∧ Invariant t ∧ rspStatus r.word = 0 ∧ r.burst = [] := by
  obtain ⟨q, m, hq, hm⟩ := hi.moveTarget_answers hp bit
  cases hk : m.kind with
  | leaf =>
    exact ⟨_, _, .emit hp hq hm hk, (hi.after_emit hp hm hk).replied, rspStatus_rspWord .., rfl⟩
  | internal =>
    exact ⟨_, _, .descend hp hq hm hk, (hi.after_descend hp hq hm hk).replied,
      rspStatus_rspWord .., rfl⟩

/-- Every sequence of bits is a stream, with a reply per bit (R78). -/
theorem Invariant.streams {s : State} (hi : Invariant s) (hp : s.phase = .ready) (bits : Bits) :
    ∃ rs t, Streams s bits rs t ∧ Invariant t ∧ rs.length = bits.length ∧
      ∀ r ∈ rs, rspStatus r.word = 0 ∧ r.burst = [] := by
  induction bits generalizing s with
  | nil => exact ⟨[], s, .nil s, hi, rfl, by simp⟩
  | cons b bits ih =>
    obtain ⟨r, t, hfirst, ht, hr⟩ := hi.streams_bit hp b
    obtain ⟨rs, u, hrest, hu, hlen, hrs⟩ := ih ht (hfirst.frame.phase.trans hp)
    exact ⟨r :: rs, u, hfirst.append hrest, hu, by simp [hlen], List.forall_mem_cons.mpr ⟨hr, hrs⟩⟩

/-- Settles O43: `Invariant.streams` for the bits, `execDecend_ready` for what follows them. -/
theorem everyBitSequenceDecodes : Obligations.EveryBitSequenceDecodes := by
  unfold Obligations.EveryBitSequenceDecodes
  intro s bits hi hp
  obtain ⟨rs, t, hstream, -, hlen, hrs⟩ := hi.streams hp bits
  have hnew : t.replies.drop s.replies.length = rs := by rw [hstream.replies, List.drop_left]
  rw [← hnew] at hlen hrs
  exact ⟨t, _, hstream.answers, hstream.frame, hlen, hrs,
    execDecend_ready (hstream.frame.phase.trans hp), rfl⟩

/-! ### The stream of a code -/

theorem decodeOwnedResult_append (rs qs : List Reply) :
    decodeOwnedResult (rs ++ qs) = decodeOwnedResult rs ++ decodeOwnedResult qs := by
  simp [decodeOwnedResult]

theorem decodeOwnedResult_emit (sym : Symbol) (data : BitVec 32) :
    decodeOwnedResult [⟨rspWord 0 1 0 sym data, []⟩] = [sym] := by
  simp [decodeOwnedResult, rspEmit_rspWord]

theorem decodeOwnedResult_plain (sym : Symbol) (data : BitVec 32) :
    decodeOwnedResult [⟨rspWord 0 0 0 sym data, []⟩] = [] := by
  simp [decodeOwnedResult, rspEmit_rspWord]

/-- The DECBITs of `bits` emit exactly the symbols `xs` and end with the pointer at the root. -/
def StreamsTo (s : State) (bits : Bits) (xs : List Symbol) (t : State) : Prop :=
  ∃ rs, Streams s bits rs t ∧ decodeOwnedResult rs = xs ∧ t.decPtr = t.root ∧ t.decDepth = 0

/-- The symbols of a stream go before those of the bits after it. -/
theorem Streams.trans_streamsTo {s t u : State} {as bs : Bits} {rs : List Reply} {ys : List Symbol}
    (h : Streams s as rs t) (g : StreamsTo t bs ys u) :
    StreamsTo s (as ++ bs) (decodeOwnedResult rs ++ ys) u := by
  obtain ⟨qs, hrest, rfl, hroot⟩ := g
  exact ⟨rs ++ qs, h.append hrest, decodeOwnedResult_append rs qs, hroot⟩

/-- A bit whose candidate is a leaf emits that leaf's symbol. -/
theorem streamsTo_of_leaf_candidate {s : State} (hp : s.phase = .ready) {bit : Bool} {q : Nat} {m : Node}
    (hq : moveTarget s bit = .ok q) (hm : Store.read s.nodes q = some m) (hk : m.kind = .leaf) :
    ∃ t, StreamsTo s [bit] [m.sym] t :=
  ⟨_, _, .emit hp hq hm hk, decodeOwnedResult_emit .., rfl, rfl⟩

/-- The decisions that lead from the pointer to a leaf, one at least, emit that leaf's symbol. -/
theorem streamsTo_of_walk {s : State} (hp : s.phase = .ready) {b : Bool} {bs : Bits} {k : Nat}
    {nd : Node} (hw : walk s.nodes s.decPtr (b :: bs) = some k)
    (hr : Store.read s.nodes k = some nd) (hk : nd.kind = .leaf) :
    ∃ t, StreamsTo s (b :: bs) [nd.sym] t := by
  induction bs generalizing s b with
  | nil =>
    obtain ⟨p, hread, hint, hend⟩ := walk_cons_some hw
    obtain rfl : p.child b = k := Option.some.inj hend
    exact streamsTo_of_leaf_candidate hp (moveTarget_internal hread hint b) hr hk
  | cons c cs ih =>
    obtain ⟨p, hread, hint, hrest⟩ := walk_cons_some hw
    obtain ⟨q, hqread, hqint, -⟩ := walk_cons_some hrest
    have hfirst := Streams.descend hp (moveTarget_internal hread hint b) hqread hqint
    obtain ⟨t, ht⟩ := ih (s := (descendTo s (p.child b)).replied _ []) hp hrest hr
    have hall := hfirst.trans_streamsTo ht
    rw [decodeOwnedResult_plain] at hall
    exact ⟨t, hall⟩

/-! ### The stream of a message -/

/-- A loaded symbol's entry is the record of its code (R66). -/
theorem DictionaryOk.readDict_loaded {s : State} (hd : DictionaryOk s) {x : Symbol}
    (hx : Loaded s x) : readDict s x = some (dictRecord s.cfg (codeOf s x)) := by
  obtain ⟨k, nd, hk, hr, rfl⟩ := hx
  obtain ⟨path, hentry, -⟩ := hd.codes k nd hk hr
  have hread : readDict s nd.sym = some (dictRecord s.cfg path) := hentry
  have hcode : codeOf s nd.sym = path := by simp only [codeOf, hread, dictRecord_bits]
  rw [hcode]
  exact hread

/-- At the root the code of a loaded symbol emits that symbol: it leads to the symbol's leaf, or it is
the one bit of a leaf root (R66, R67, R79). -/
theorem Invariant.streamsTo_code {s : State} (hi : Invariant s) (hp : s.phase = .ready)
    (hroot : s.decPtr = s.root) {x : Symbol} (hx : Loaded s x) :
    ∃ t, StreamsTo s (codeOf s x) [x] t := by
  obtain ⟨-, ht, hd, -⟩ := hi.ready hp
  have hentry := hd.readDict_loaded hx
  obtain ⟨k, nd, hk, hr, rfl⟩ := hx
  have hleaf := (hi.leaf_record hr hk).1
  obtain ⟨path, hpath, hpos, -, hone, hwalk⟩ := hd.codes k nd hk hr
  obtain rfl : codeOf s nd.sym = path := by
    simpa using congrArg DictEntry.bits (Option.some.inj (hentry.symm.trans hpath))
  rcases ht.some_leaf.eq_or_lt with h1 | h2
  · have hptr : s.decPtr = k := by
      have := ht.root
      have := ht.count
      omega
    rw [← hptr] at hr
    rw [hone h1.symm]
    exact streamsTo_of_leaf_candidate hp (moveTarget_leaf hr hleaf false) hr hleaf
  · obtain ⟨b, bs, hcons⟩ := List.exists_cons_of_length_pos hpos
    have hw := hwalk h2
    rw [← hroot, hcons] at hw
    rw [hcons]
    exact streamsTo_of_walk hp hw hr hleaf

theorem Streams.invariant {s t : State} {bits : Bits} {rs : List Reply} (h : Streams s bits rs t)
    (hi : Invariant s) (hp : s.phase = .ready) : Invariant t := by
  obtain ⟨qs, u, hu, hui, -⟩ := hi.streams hp bits
  obtain rfl : u = t := next_inj (hu.answers.symm.trans h.answers)
  exact hui

theorem SameButDecoder.loaded_iff {s t : State} (h : SameButDecoder s t) (x : Symbol) :
    Loaded t x ↔ Loaded s x := by
  rw [h]
  exact Iff.rfl

theorem SameButDecoder.codeOf {s t : State} (h : SameButDecoder s t) : codeOf t = codeOf s := by
  rw [h]
  rfl

/-- At the root the codes of loaded symbols, one after another, emit those symbols (R82). -/
theorem Invariant.streamsTo_codes {s : State} (hi : Invariant s) (hp : s.phase = .ready)
    (hroot : s.decPtr = s.root) (h0 : s.decDepth = 0) {xs : List Symbol} (hx : ∀ x ∈ xs, Loaded s x) :
    ∃ t, StreamsTo s (xs.flatMap (codeOf s)) xs t := by
  induction xs generalizing s with
  | nil => exact ⟨s, [], .nil s, rfl, hroot, h0⟩
  | cons x xs ih =>
    rw [List.forall_mem_cons] at hx
    obtain ⟨hfirst, hrest⟩ := hx
    obtain ⟨t, rs, hstream, hsyms, htroot, ht0⟩ := hi.streamsTo_code hp hroot hfirst
    have hsame := hstream.frame
    obtain ⟨u, hu⟩ := ih (hstream.invariant hi hp) (hsame.phase.trans hp) htroot ht0
      fun y hy => (hsame.loaded_iff y).mpr (hrest y hy)
    have hall := hstream.trans_streamsTo hu
    rw [hsyms, hsame.codeOf] at hall
    exact ⟨u, hall⟩

/-- DECBEG, the bits from the root, and DECEND at the root again: two all-zero replies around those of
the bits (R74, R76). -/
theorem Streams.decodeSeq_answers {s t : State} {bits : Bits} {rs : List Reply}
    (h : Streams ((pointerToRoot s).replied 0#64 []) bits rs t) (hp : s.phase = .ready)
    (h0 : t.decDepth = 0) :
    ∃ u, execAll (decodeSeq bits) s = .next u ∧
      u.replies = s.replies ++ (⟨0#64, []⟩ :: rs) ++ [⟨0#64, []⟩] := by
  have hbegin : exec .decbeg s = .next ((pointerToRoot s).replied 0#64 []) := execDecbeg_ready hp
  have hend : exec .decend t = .next ((pointerToRoot t).replied 0#64 []) :=
    execDecend_depth_zero (h.frame.phase.trans hp) h0
  refine ⟨(pointerToRoot t).replied 0#64 [], ?answers, ?replies⟩
  case answers =>
    rw [decodeSeq, List.cons_append, execAll_cons hbegin, execAll_append h.answers,
      execAll_singleton hend]
  case replies =>
    rw [replied_replies, pointerToRoot_replies, h.replies, replied_replies, pointerToRoot_replies,
      List.append_assoc s.replies, List.singleton_append]

theorem decodeOwnedResult_zero : decodeOwnedResult [⟨0#64, []⟩] = [] := by
  rw [← rspWord_zero]
  exact decodeOwnedResult_plain 0 0

/-- From any pointer the stream of the codes of loaded symbols emits those symbols and ends with an
all-zero DECEND (R82). -/
theorem Invariant.decodeSeq_codes {s : State} (hi : Invariant s) (hp : s.phase = .ready)
    {xs : List Symbol} (hx : ∀ x ∈ xs, Loaded s x) :
    ∃ u, execAll (decodeSeq (xs.flatMap (codeOf s))) s = .next u ∧
      decodeOwnedResult (u.replies.drop s.replies.length) = xs ∧
      u.replies.getLast? = some ⟨0#64, []⟩ := by
  have hstart : Invariant ((Machine.pointerToRoot s).replied 0#64 []) := (hi.pointerToRoot hp).replied
  obtain ⟨t, rs, hstream, hsyms, -, h0⟩ := hstart.streamsTo_codes hp rfl rfl hx
  obtain ⟨u, hu, hreplies⟩ := hstream.decodeSeq_answers hp h0
  refine ⟨u, hu, ?symbols, ?last⟩
  case symbols =>
    rw [hreplies, List.append_assoc, List.drop_left, ← List.singleton_append,
      decodeOwnedResult_append, decodeOwnedResult_append, decodeOwnedResult_zero, hsyms,
      List.nil_append, List.append_nil]
  case last =>
    rw [hreplies]
    exact List.getLast?_concat ..

/-! ### The message -/

/-- ENCs of symbols with an entry whose codes fit append those codes and change nothing else. -/
theorem execAll_enc_fits {s : State} (hp : s.phase = .ready) (ho : s.encOpen = true)
    (he : s.encErr = .none) {xs : List Symbol}
    (hx : ∀ x ∈ xs, readDict s x = some (dictRecord s.cfg (codeOf s x)))
    (hl : (s.encBuf ++ xs.flatMap (codeOf s)).length ≤ s.cfg.encBufBits) :
    ∃ rs, execAll (xs.map .enc) s =
      .next { s with encBuf := s.encBuf ++ xs.flatMap (codeOf s), replies := rs } := by
  induction xs generalizing s with
  | nil => exact ⟨s.replies, by simp [execAll]⟩
  | cons x xs ih =>
    rw [List.forall_mem_cons] at hx
    obtain ⟨hfirst, hrest⟩ := hx
    rw [List.flatMap_cons, ← List.append_assoc] at hl ⊢
    have hfits : s.encBuf.length + (dictRecord s.cfg (codeOf s x)).len ≤ s.cfg.encBufBits := by
      simp only [List.length_append] at hl
      rw [dictRecord_len]
      omega
    have hexec := (execEnc_open hp ho he x).trans (appendCode_fits hfirst hfits)
    rw [dictRecord_bits] at hexec
    rw [List.map_cons, execAll_cons (i := .enc x) hexec]
    exact ih hp ho he hrest hl

/-- A message of loaded symbols whose codes fit delivers the codes, and leaves the encoder closed. -/
theorem Invariant.encodeSeq_fits {s : State} (hi : Invariant s) (hp : s.phase = .ready)
    {xs : List Symbol} (hx : ∀ x ∈ xs, Loaded s x)
    (hl : (xs.flatMap (codeOf s)).length ≤ s.cfg.encBufBits) :
    ∃ rs, execAll (encodeSeq xs) s =
      .next ((closeMessage { s with replies := rs }).replied
        (rspWord 0 0 0 0 (BitVec.ofNat 32 (xs.flatMap (codeOf s)).length)) (xs.flatMap (codeOf s))) := by
  obtain ⟨-, -, hd, -⟩ := hi.ready hp
  have hbegin : exec .encbeg s = .next ((openMessage s []).replied 0#64 []) := execEncbeg_ready hp
  obtain ⟨rs, hencs⟩ := execAll_enc_fits (s := (openMessage s []).replied 0#64 []) hp rfl rfl
    (fun x h => hd.readDict_loaded (hx x h)) hl
  refine ⟨rs, ?_⟩
  rw [encodeSeq, List.cons_append, execAll_cons hbegin, execAll_append hencs]
  exact execAll_singleton (i := .encend) (execEncend_open hp rfl rfl)

/-- Settles O47: the message by `Invariant.encodeSeq_fits`; it leaves the tree, the dictionary and the
invariant, so `Invariant.decodeSeq_codes` is the stream. -/
theorem roundTrip : Obligations.RoundTrip := by
  unfold Obligations.RoundTrip
  intro s message hi hp hx hl
  obtain ⟨rs, hencode⟩ := hi.encodeSeq_fits hp hx hl
  have hclosed : Invariant (closeMessage { s with replies := rs }) :=
    hi.encoder hp rfl (.closeMessage _)
  obtain ⟨u, hdecode, hsyms, hlast⟩ := hclosed.replied.decodeSeq_codes hp hx
  exact ⟨_, u, hencode, List.getLast?_concat .., hdecode, hsyms, hlast⟩

end Sys2Proof.Machine
end

section
/-! Proofs of `43_control.md`: NOP (R83), the commands its table refuses (R86) and the transitions of the
phase (R87). The table and the diagram both speak of the status a command returns, so what statuses an
answer can have is said once, in `Answer.reply_cause`. -/

namespace Sys2Proof.Machine

/-! ### NOP -/

/-- Settles O17: the decoder computes on the fixed word; the response is `respond_zero`. -/
theorem nopReturnsZeroAndChangesNothing : Obligations.NopReturnsZeroAndChangesNothing := by
  unfold Obligations.NopReturnsZeroAndChangesNothing
  exact ⟨fun _ => rfl, fun s => respond_zero s⟩

/-! ### The status of an answer -/

theorem rspStatus_zero : rspStatus 0#64 = 0 := by decide

theorem MsgErr.code_ne_seq (e : MsgErr) : e.code ≠ 3 := by cases e <;> decide

/-- In phase LOAD the table refuses with SEQ alone, and never BUILD (R86). -/
theorem refusedWith_in_load {i : Instr} {s : State} {w : Word} (hp : s.phase = .load)
    (h : refusedWith i s = some w) : w = seqWord ∧ i ≠ .build := by
  cases i with
  | nop | clear | rdreg | loadw | build => simp [refusedWith, hp] at h
  | _ =>
    have hseq : some w = some seqWord := h.symm.trans (refused_outside_ready (by simp [hp]) (by simp))
    exact ⟨Option.some.inj hseq, nofun⟩

/-- Why a command that takes `s` to `t` has this reply: the table refused it (R86), it failed the
table (R97), it succeeded, or it returned the open message's error (R70, R71). -/
inductive ReplyCause (i : Instr) (s t : State) (r : Reply) : Prop where
  | refused (h : refusedWith i s = some r.word) (same : t.phase = s.phase)
  | tableFailed (status : rspStatus r.word = 2) (failed : t.phase = .failed)
  | succeeded (status : rspStatus r.word = 0) (kept : t.phase = .failed → s.phase = .failed)
  | messageError (e : MsgErr) (status : rspStatus r.word = e.code) (ready : s.phase = .ready)

/-- A command adds one reply, with one of these causes. -/
theorem Answer.reply_cause {i : Instr} {s t : State} (h : Answer i s t) :
    ∃ r, t.replies = s.replies ++ [r] ∧ ReplyCause i s t r := by
  cases h with
  | refused _ _ _ hw => exact ⟨_, rfl, .refused hw rfl⟩
  | tableFailed => exact ⟨_, rfl, .tableFailed (rspStatus_rspWord ..) rfl⟩
  | nop | encbeg | decbeg => exact ⟨_, rfl, .succeeded rspStatus_zero id⟩
  | clear => exact ⟨_, rfl, .succeeded rspStatus_zero nofun⟩
  | built => exact ⟨_, rfl, .succeeded (rspStatus_rspWord ..) nofun⟩
  | rdreg | leaf | encAppends | encend | decEmits | decMoves | decend =>
    exact ⟨_, rfl, .succeeded (rspStatus_rspWord ..) id⟩
  | encRepeats _ _ hp | encFails _ _ _ hp | encendFails _ hp =>
    exact ⟨_, rfl, .messageError _ (rspStatus_rspWord ..) hp⟩

theorem ReplyCause.status_ne_seq {i : Instr} {s t : State} {r : Reply} (h : ReplyCause i s t r)
    (hrun : refusedWith i s = none) : rspStatus r.word ≠ 3 := by
  cases h with
  | refused hw => simp [hrun] at hw
  | tableFailed hst => rw [hst]; decide
  | succeeded hst => rw [hst]; decide
  | messageError e hst => rw [hst]; exact e.code_ne_seq

theorem ReplyCause.invalidWeights_iff {i : Instr} {s t : State} {r : Reply} (h : ReplyCause i s t r)
    (hp : s.phase = .load) : rspStatus r.word = 2 ↔ t.phase = .failed := by
  cases h with
  | refused hw same =>
    rw [(refusedWith_in_load hp hw).1, same, hp]
    decide
  | tableFailed hst hf => exact iff_of_true hst hf
  | succeeded hst kept =>
    have hne : t.phase ≠ .failed := fun hf => absurd (kept hf) (by simp [hp])
    exact iff_of_false (by rw [hst]; decide) hne
  | messageError e hst hready => simp [hp] at hready

/-- Settles O48: `refused_answers` for the cells with a status; no reply of a command that runs has
status SEQ. -/
theorem legalityByPhase : Obligations.LegalityByPhase := by
  unfold Obligations.LegalityByPhase
  refine ⟨fun i s w hw => refused_answers hw, fun i s t hrun ht => ?run⟩
  case run =>
    obtain ⟨r, hr, hcause⟩ := (exec_answer ht).reply_cause
    exact ⟨r, hr, hcause.status_ne_seq hrun⟩

/-! ### The phase -/

/-- The arrows of R87 that are not CLEAR's: what a command does to the phase. -/
theorem Answer.phase_cases {i : Instr} {s t : State} (h : Answer i s t) (hi : i ≠ .clear) :
    t.phase = s.phase ∨
    (s.phase = .load ∧ t.phase = .failed ∧ (∃ sym freq, i = .loadw sym freq) ∧
      (t.tbReason = .capacity ∨ t.tbReason = .duplicate)) ∨
    (s.phase = .load ∧ t.phase = .failed ∧ i = .build ∧ s.nLeaves = 0 ∧ t.tbReason = .empty) ∨
    (s.phase = .load ∧ t.phase = .ready ∧ i = .build ∧ s.nLeaves ≠ 0) := by
  cases h with
  | clear => exact absurd rfl hi
  | tableFailed _ _ _ hp hr =>
    rcases hr with ⟨hr, hb, hn⟩ | ⟨hr, hl⟩
    · exact .inr (.inr (.inl ⟨hp, rfl, hb, hn, hr⟩))
    · exact .inr (.inl ⟨hp, rfl, hl, hr⟩)
  | built _ _ _ _ _ hp hn => exact .inr (.inr (.inr ⟨hp, rfl, rfl, hn⟩))
  | _ => exact .inl rfl

theorem Answer.build_leaves_load {s t : State} (h : Answer .build s t) (hp : s.phase = .load) :
    t.phase ≠ .load := by
  cases h with
  | refused _ _ w hw => exact absurd rfl (refusedWith_in_load hp hw).2
  | tableFailed => nofun
  | built => nofun

/-- Settles O49: the diagram's arrows by `Answer.phase_cases`, the response by
`ReplyCause.invalidWeights_iff`. -/
theorem phaseTransitions : Obligations.PhaseTransitions := by
  unfold Obligations.PhaseTransitions
  refine ⟨fun _ => rfl, fun i s t ht => ⟨?clear, fun hi => (exec_answer ht).phase_cases hi, ?build,
    fun hp => ?response⟩⟩
  case clear =>
    rintro rfl
    obtain rfl := next_inj ((respond_zero (clearAll s)).symm.trans ht)
    rfl
  case build =>
    rintro rfl
    exact (exec_answer ht).build_leaves_load
  case response =>
    obtain ⟨r, hr, hcause⟩ := (exec_answer ht).reply_cause
    exact ⟨r, hr, hcause.invalidWeights_iff hp⟩

end Sys2Proof.Machine
end

section
/-! Proofs of `60_exceptions.md`: the order of the checks (R102). Each check answers without a look at
those after it, so each clause is the equation of its check, whatever the later ones would say. -/

namespace Sys2Proof.Machine

/-- BUILD on a table without a leaf fails it with EMPTY (R56). -/
theorem execBuild_empty {s : State} (hp : s.phase = .load) (hn : s.nLeaves = 0) :
    execBuild s = failTable .empty s :=
  (execBuild_load hp).trans (if_pos hn)

/-- Settles O55: the equation of each check, in the order of R102; an illegal word by the four clauses'
own theorem, a refused command by `refused_answers`. -/
theorem checksAreMadeInOrder : Obligations.ChecksAreMadeInOrder := by
  unfold Obligations.ChecksAreMadeInOrder
  obtain ⟨_, hillegal⟩ := illegalWordsAreThoseOfTheFourClauses
  refine ⟨hillegal, fun i s w hw => ?refused, fun s x hp ho he => ?stored, fun s x f hp hn => ?capacity,
    fun s hp hn => ?empty, fun s x hp ho he hx => ?noSuchKey⟩
  case refused => exact refused_answers hw
  case stored => exact ⟨execEnc_error hp ho he x, _, execEncend_error hp ho he⟩
  case capacity => exact ⟨_, (execLoadw_full hp hn x f).trans (failTable_answers .capacity s)⟩
  case empty => exact ⟨_, (execBuild_empty hp hn).trans (failTable_answers .empty s)⟩
  case noSuchKey => exact ⟨_, (execEnc_open hp ho he x).trans (appendCode_noSuchKey hx)⟩

end Sys2Proof.Machine
end

section
/-! Proofs of `30_encoding.md`: the decoder and the encoder are each other's inverses on the legal words
(R43, R48, R49, R52), and a run takes the commands off the port in order (R40, R54). -/

namespace Sys2Proof.Machine

/-! ### From a command to its word and back -/

/-- Decoding a command's word reads its fields alone. -/
theorem decode_encode {c : Config} {i : Instr} (h : i.wellFormed c = true) :
    decode c (encode i) = .ok i := by
  cases i with
  | loadw x f =>
    obtain ⟨hx, hf⟩ : fitsIn c.symW x = true ∧ fitsIn c.freqW f = true := by
      simpa [Instr.wellFormed] using h
    simp [decode, encode, Instr.opcode, Instr.symField, Instr.immField, decodeLoadw, hx, hf]
  | enc x =>
    have hx : fitsIn c.symW x = true := h
    simp [decode, encode, Instr.opcode, Instr.symField, Instr.immField, decodeEnc, hx]
  | decbit b => cases b <;> rfl
  | rdreg r => cases r <;> rfl
  | _ => rfl

/-- Settles O1: each opcode selects the reading of its own operands. -/
theorem decodeOfEncodeIsTheCommand : Obligations.DecodeOfEncodeIsTheCommand := by
  unfold Obligations.DecodeOfEncodeIsTheCommand
  exact fun _ _ => decode_encode

/-! ### From a word to its command and back -/

/-- A word with zero reserved bits is the word of the command whose opcode and operands it has. -/
theorem encode_eq_of_fields {w : Word} {i : Instr} (hr : cmdRsvd0 w = 0)
    (hop : (cmdOp w).toNat = i.opcode.toNat) (hs : i.symField = cmdSym w)
    (hi : i.immField = cmdImm w) : encode i = w := by
  rw [encode, ← BitVec.eq_of_toNat_eq hop, hs, hi]
  exact (word_eq_mkCmd w hr).symm

/-- A field within its low bit is the bit itself. -/
theorem immField_decbit {v : BitVec 32} (h : fitsIn 1 v = true) :
    (Instr.decbit (v.getLsbD 0)).immField = v := by
  have hlt : v.toNat < 2 := of_decide_eq_true h
  apply BitVec.eq_of_toNat_eq
  rw [BitVec.getLsbD, Nat.testBit_zero]
  obtain h0 | h1 : v.toNat = 0 ∨ v.toNat = 1 := by omega
  · rw [h0]; rfl
  · rw [h1]; rfl

/-- A register's number is the field that names it. -/
theorem immField_rdreg {v : BitVec 32} {r : StatusReg} (h : StatusReg.ofNumber v.toNat = some r) :
    (Instr.rdreg r).immField = v := by
  rw [Instr.immField, ← StatusReg.ofNumber_some h, BitVec.ofNat_toNat, BitVec.setWidth_eq]

/-- What the decoder accepts is the word of the command it gives. -/
theorem encode_of_decode {c : Config} {w : Word} {i : Instr} (h : decode c w = .ok i) :
    encode i = w := by
  unfold decode at h
  split at h
  · cases h
  next hr =>
  have hrsvd : cmdRsvd0 w = 0 := not_not.mp hr
  split at h
  case h_3 hop => -- LOADW
    obtain ⟨-, rfl⟩ := decodeLoadw_eq_ok.mp h
    exact encode_eq_of_fields hrsvd hop rfl rfl
  case h_6 hop => -- ENC
    obtain ⟨⟨-, himm⟩, rfl⟩ := decodeEnc_eq_ok.mp h
    exact encode_eq_of_fields hrsvd hop rfl himm.symm
  case h_9 hop => -- DECBIT
    obtain ⟨⟨hsym, hfits⟩, rfl⟩ := decodeDecbit_eq_ok.mp h
    exact encode_eq_of_fields hrsvd hop hsym.symm (immField_decbit hfits)
  case h_11 hop => -- RDREG
    obtain ⟨⟨hsym, -⟩, r, hreg, rfl⟩ := decodeRdreg_eq_ok.mp h
    exact encode_eq_of_fields hrsvd hop hsym.symm (immField_rdreg hreg)
  case h_12 => cases h -- a reserved opcode
  all_goals -- the commands without operands
    next hop =>
      obtain ⟨⟨hsym, himm⟩, rfl⟩ := decodePlain_eq_ok.mp h
      exact encode_eq_of_fields hrsvd hop hsym.symm himm.symm

/-- Settles O2: the word by `encode_of_decode`, the operands by `wellFormed_of_decode`. -/
theorem legalWordsAreTheWordsOfTheirCommands :
    Obligations.LegalWordsAreTheWordsOfTheirCommands := by
  unfold Obligations.LegalWordsAreTheWordsOfTheirCommands
  exact fun _ _ _ h => ⟨encode_of_decode h, wellFormed_of_decode h⟩

/-- Settles O4: the decoder computes on fixed words. -/
theorem wordsOfTheSpecDecode : Obligations.WordsOfTheSpecDecode := by
  unfold Obligations.WordsOfTheSpecDecode
  exact ⟨rfl, rfl, rfl, rfl, rfl, rfl, rfl, rfl, rfl, rfl, rfl, rfl⟩

/-! ### Steps and runs -/

theorem step_of_decode_ok {s : State} {w : Word} {rest : List Word} {i : Instr}
    (hc : s.cmds = w :: rest) (hd : decode s.cfg w = .ok i) :
    step s = exec i { s with cmds := rest } := by
  rw [step, acceptCommand_cons s w rest hc]
  simp only [hd]

/-- Settles O5: what a step accepts is the next word, or nothing. -/
theorem stepRunsTheDecodedCommand : Obligations.StepRunsTheDecodedCommand := by
  unfold Obligations.StepRunsTheDecodedCommand
  refine ⟨fun s w rest i hc hd => step_of_decode_ok hc hd, fun s hc => ?idle⟩
  case idle => rw [step, acceptCommand_nil s hc]; rfl

/-- No command changes the configuration or the commands that wait. -/
theorem Answer.cfg_cmds {i : Instr} {s t : State} (h : Answer i s t) :
    t.cfg = s.cfg ∧ t.cmds = s.cmds := by
  cases h <;> exact ⟨rfl, rfl⟩

/-- A command runs alike with other commands waiting. -/
theorem exec_with_cmds {i : Instr} {s t : State} (h : exec i s = .next t) (c : List Word) :
    exec i { s with cmds := c } = .next { t with cmds := c } := by
  obtain ⟨r, hr, hport⟩ := exec_port h
  have := hport c s.replies
  rwa [← hr] at this

/-- A sequence that answers begins with a command that does. -/
theorem execAll_cons_next {i : Instr} {is : List Instr} {s t : State}
    (h : execAll (i :: is) s = .next t) : ∃ u, exec i s = .next u ∧ execAll is u = .next t := by
  rw [execAll] at h
  split at h
  · next u hu => exact ⟨u, hu, h⟩
  · cases h
  · cases h

theorem run_succ {s t : State} (h : step s = .next t) (n : Nat) :
    Host.Core.run Sys2Proof.core (n + 1) s = Host.Core.run Sys2Proof.core n t := by
  simp only [Host.Core.run, show Sys2Proof.core.step s = .next t from h]

/-- The words of well-formed commands on the port run as the commands themselves (R40). -/
theorem run_words {is : List Instr} {s t : State} {rest : List Word}
    (hw : ∀ i ∈ is, i.wellFormed s.cfg = true) (hc : s.cmds = is.map encode ++ rest)
    (h : execAll is { s with cmds := rest } = .next t) :
    Host.Core.run Sys2Proof.core is.length s = .next t := by
  induction is generalizing s with
  | nil =>
    have hs : { s with cmds := rest } = s := by rw [← (show s.cmds = rest from hc)]
    rw [← hs]
    exact h
  | cons i is ih =>
    rw [List.forall_mem_cons] at hw
    obtain ⟨hi, his⟩ := hw
    obtain ⟨u, he, h⟩ := execAll_cons_next h
    obtain ⟨hcfg, hcmds⟩ := (exec_answer he).cfg_cmds
    have hstep : step s = .next { u with cmds := is.map encode ++ rest } :=
      (step_of_decode_ok hc (decode_encode hi)).trans (exec_with_cmds he _)
    have hu : { u with cmds := rest } = u := by rw [← (show u.cmds = rest from hcmds)]
    rw [← hu] at h
    have hrun : Host.Core.run Sys2Proof.core is.length { u with cmds := is.map encode ++ rest } =
        .next t := ih (fun j hj => (congrArg (Instr.wellFormed · j) hcfg).trans (his j hj)) rfl h
    exact (run_succ hstep is.length).trans hrun

/-- Settles O6: each step of the run decodes the next word to the next command, which does not look at
the port. -/
theorem runTakesCommandsInPortOrder : Obligations.RunTakesCommandsInPortOrder := by
  unfold Obligations.RunTakesCommandsInPortOrder
  exact fun _ _ _ _ hw hc h => run_words hw hc h

end Sys2Proof.Machine
end

section
/-! Proofs of `10_state.md`: the invariant at reset and under every step (R29), that no step stops (R116),
and the widths of the registers and of the record fields (R7, R14 to R27). -/

namespace Sys2Proof.Machine

/-- Settles O11: the reset state holds no table, and the core's is the one at the defaults. -/
theorem resetMeetsTheInvariant : Obligations.ResetMeetsTheInvariant := by
  unfold Obligations.ResetMeetsTheInvariant
  exact ⟨fun _ => Invariant.resetWith, rfl⟩

/-- Settles O12: the state a step answers is the one `Invariant.step_continues` says meets the
invariant. -/
theorem everyStepKeepsTheInvariant : Obligations.EveryStepKeepsTheInvariant := by
  unfold Obligations.EveryStepKeepsTheInvariant
  intro s t hi ht
  obtain ⟨u, hu, hui⟩ := hi.step_continues
  obtain rfl : u = t := next_inj (hu.symm.trans ht)
  exact hui

/-- Settles O14: by `Invariant.step_continues`. -/
theorem noStepStops : Obligations.NoStepStops := by
  unfold Obligations.NoStepStops
  intro s hi
  obtain ⟨t, ht, -⟩ := hi.step_continues
  exact ⟨t, ht⟩

/-! ### Widths -/

theorem lt_two_pow_leavesW {c : Config} {n : Nat} (h : n ≤ c.nMax) : n < 2 ^ c.leavesW :=
  (Nat.lt_succ_of_le h).trans_le (le_two_pow_ceilLog2 _)

theorem lt_two_pow_nodesW {c : Config} (hc : c.wf) {n : Nat} (h : n ≤ c.nodesMax) :
    n < 2 ^ c.nodesW := by
  obtain ⟨-, -, ⟨h1, -⟩, -⟩ := hc
  have : n < 2 * c.nMax := by unfold Config.nodesMax at h; omega
  exact this.trans_le (le_two_pow_ceilLog2 _)

/-- An index of the node memory fits IDX_W. -/
theorem lt_two_pow_idxW {c : Config} {k : Nat} (h : k < c.nodesMax) : k < 2 ^ c.idxW :=
  calc k < c.nodesMax := h
    _ ≤ 2 ^ ceilLog2 c.nodesMax := le_two_pow_ceilLog2 _
    _ ≤ 2 ^ c.idxW := Nat.pow_le_pow_right (by decide) (le_max_right ..)

/-- A code length fits LEN_W. -/
theorem lt_two_pow_lenW {c : Config} {n : Nat} (h : n ≤ c.codeMax) : n < 2 ^ c.lenW :=
  (Nat.lt_succ_of_le h).trans_le (le_two_pow_ceilLog2 _)

/-- The bounds, in every phase, of the registers that hold a tree's index, a depth, or a symbol. -/
structure RegistersBounded (s : State) : Prop where
  root : s.root < s.cfg.nodesMax
  decPtr : s.decPtr < s.cfg.nodesMax
  decLeaf : s.decLeaf < s.cfg.nodesMax
  decDepth : s.decDepth ≤ s.cfg.codeMax
  decSym : s.decSym.toNat < 2 ^ s.cfg.symW
  encErrSym : s.encErrSym.toNat < 2 ^ s.cfg.symW
  encBuf : s.encBuf.length ≤ s.cfg.encBufBits

theorem nodesMax_pos_of_wf {c : Config} (hc : c.wf) : 0 < c.nodesMax := by
  obtain ⟨-, -, ⟨h1, -⟩, -⟩ := hc
  unfold Config.nodesMax
  omega

/-- In phase READY by the tree, the encoder and the decoder; elsewhere they are zero. -/
theorem Invariant.registersBounded {s : State} (hi : Invariant s) : RegistersBounded s := by
  have hnodes := hi.nodes_max
  by_cases hp : s.phase = .ready
  · obtain ⟨-, ht, -, he, hd⟩ := hi.ready hp
    have hleaf := hd.leaf
    have hcount := ht.count
    have hsome := ht.some_leaf
    exact ⟨ht.root_lt.trans_le hnodes, (hi.decPtr_lt hp).trans_le hnodes, by omega,
      hd.bound.trans (Nat.sub_le ..), hd.symbol, he.symbol, he.fits⟩
  · have hn := hi.noTree hp
    have hpos := nodesMax_pos_of_wf hi.cfg
    constructor <;> simp [hn.root, hn.decPtr, hn.decLeaf, hn.decDepth, hn.decSym, hn.encErrSym,
      hn.encBuf, hpos]

/-- A held record is a leaf's below `n_leaves`, or an internal one, in phase READY. -/
theorem Invariant.record_cases {s : State} (hi : Invariant s) {k : Nat} {nd : Node}
    (hr : Store.read s.nodes k = some nd) :
    IsLeafRecord s.cfg nd ∨ IsInternalRecord s.nodes k nd := by
  rcases lt_or_ge k s.nLeaves with hlt | hge
  · exact .inl (hi.leaf_record hr hlt)
  · by_cases hp : s.phase = .ready
    · obtain ⟨-, ht, -⟩ := hi.ready hp
      obtain ⟨nd', hr', hint⟩ := ht.internals k hge ((hi.held k).mp (by simp [hr]))
      obtain rfl : nd = nd' := Option.some.inj (hr.symm.trans hr')
      exact .inr hint
    · exact .inl (hi.leaf_of_read (hi.noTree hp) hr).2

/-- The fields of a held record fit their widths (R14). -/
theorem Invariant.record_fits {s : State} (hi : Invariant s) {k : Nat} {nd : Node}
    (hr : Store.read s.nodes k = some nd) :
    k < s.cfg.nodesMax ∧ nd.freq < 2 ^ s.cfg.sumW ∧ nd.sym.toNat < 2 ^ s.cfg.symW ∧
      nd.left < 2 ^ s.cfg.idxW ∧ nd.right < 2 ^ s.cfg.idxW := by
  have hk : k < s.cfg.nodesMax := ((hi.held k).mp (by simp [hr])).trans_le hi.nodes_max
  refine ⟨hk, hi.freq_fits k nd hr, ?_⟩
  rcases hi.record_cases hr with ⟨-, -, hsym, hl, hrt⟩ | ⟨-, hsym, hl, hrt, -⟩
  · rw [hl, hrt]
    exact ⟨hsym, Nat.two_pow_pos _, Nat.two_pow_pos _⟩
  · rw [hsym]
    exact ⟨Nat.two_pow_pos _, lt_two_pow_idxW (hl.trans hk), lt_two_pow_idxW (hrt.trans hk)⟩

/-- An entry of the dictionary, in phase READY alone, is the record of a code of 1 to CODE_MAX bits for a
loaded symbol (R29 (c), R73). -/
theorem Invariant.entry_cases {s : State} (hi : Invariant s) {x : Nat} {e : DictEntry}
    (hr : Store.read s.dict x = some e) :
    s.phase = .ready ∧ ∃ k nd path, k < s.nLeaves ∧ Store.read s.nodes k = some nd ∧
      nd.sym.toNat = x ∧ e = dictRecord s.cfg path ∧ 1 ≤ path.length ∧
      path.length ≤ s.cfg.codeMax ∧ (2 ≤ s.nLeaves → walk s.nodes s.root path = some k) := by
  by_cases hp : s.phase = .ready
  · obtain ⟨-, -, hd, -⟩ := hi.ready hp
    obtain ⟨y, ⟨k, nd, hk, hnd, rfl⟩, rfl⟩ := (hd.domain x).mp (by simp [hr])
    obtain ⟨path, hentry, hpos, hmax, -, hwalk⟩ := hd.codes k nd hk hnd
    exact ⟨hp, k, nd, path, hk, hnd, rfl, Option.some.inj (hr.symm.trans hentry), hpos, hmax, hwalk⟩
  · rw [(hi.noTree hp).dict] at hr
    cases hr

/-- Settles O15: the counters by `leaves_max` and `nodes_max`, the other registers by
`Invariant.registersBounded`, the records by `Invariant.record_fits` and `Invariant.entry_cases`. -/
theorem registersFitTheirWidths : Obligations.RegistersFitTheirWidths := by
  unfold Obligations.RegistersFitTheirWidths
  intro s hi
  obtain ⟨hroot, hptr, hleaf, hdepth, hsym, herr, hbuf⟩ := hi.registersBounded
  refine ⟨lt_two_pow_leavesW hi.leaves_max, lt_two_pow_nodesW hi.cfg hi.nodes_max,
    lt_two_pow_idxW hroot, lt_two_pow_idxW hptr, lt_two_pow_idxW hleaf, lt_two_pow_lenW hdepth,
    hsym, herr, hbuf, fun k nd hr => hi.record_fits hr, fun x e hr => ?entry⟩
  case entry =>
    obtain ⟨-, k, nd, path, -, hnd, rfl, rfl, -, hmax, -⟩ := hi.entry_cases hr
    obtain ⟨-, -, hsym, -⟩ := hi.record_fits hnd
    exact ⟨hsym, lt_two_pow_lenW hmax, dictRecord_code_length _ _ hmax⟩

end Sys2Proof.Machine
end

section
/-! Proofs of `40_tree_builder.md`: the frames of LOADW and BUILD (R55, R56), BUILD where it does not build,
the tree it completes (R60, R61, R64), and that its queue is a selection of the smallest key (R65). -/

namespace Sys2Proof.Machine

/-! ### Frames and refusals -/

/-- Settles O21: of LOADW's answers only the appended leaf writes the node memory, at `n_leaves`. -/
theorem loadwFrame : Obligations.LoadwFrame := by
  unfold Obligations.LoadwFrame
  intro s t x f ht
  cases exec_answer ht with
  | refused | tableFailed => exact ⟨rfl, ⟨_, rfl⟩, fun _ _ => rfl⟩
  | leaf => exact ⟨rfl, ⟨_, rfl⟩, fun k hk => Store.read_write_other _ _ hk⟩

/-- Settles O22: one equation per phase, and the table of no leaf. -/
theorem buildRefusals : Obligations.BuildRefusals := by
  unfold Obligations.BuildRefusals
  intro s
  refine ⟨fun hp => ?ready, fun hp => ?failed, fun hp hn => ?empty⟩
  case ready => exact (execBuild_ready hp).trans (raise_seq s)
  case failed => exact (execBuild_failed hp).trans (raise_weights _ s)
  case empty => exact (execBuild_empty hp hn).trans (failTable_answers .empty s)

/-- The code assignment's loop leaves the entry of a symbol that is in no leaf. -/
theorem assignLoop_other {s : State} {x : Nat}
    (hx : ∀ k nd, Store.read s.nodes k = some nd → nd.kind = .leaf → nd.sym.toNat ≠ x) {fuel : Nat}
    {stack : List (Nat × Bits)} {d d' : Store DictEntry} (h : assignLoop s fuel stack d = .ok d') :
    Store.read d' x = Store.read d x := by
  induction fuel generalizing stack d with
  | zero =>
    cases stack with
    | nil => cases h; rfl
    | cons => cases h
  | succ n ih =>
    cases stack with
    | nil => cases h; rfl
    | cons e stack =>
      obtain ⟨p, c⟩ := e
      rw [assignLoop] at h
      rcases assignTurn_cases (s := s) (p := p) (c := c) (stack := stack) (d := d) with
        ⟨f, hf⟩ | ⟨nd, hr, ⟨hk, hturn⟩ | ⟨hk, hturn⟩⟩
      · simp [hf] at h
      · simp only [hturn] at h
        rw [ih h, Store.read_write_other _ _ (hx p nd hr hk).symm]
      · simp only [hturn] at h
        exact ih h

/-- The code assignment leaves the entry of a symbol that is in no leaf (R66, R67). -/
theorem assignCodes_other {s : State} {x : Nat}
    (hx : ∀ k nd, Store.read s.nodes k = some nd → nd.kind = .leaf → nd.sym.toNat ≠ x)
    {d : Store DictEntry} (h : assignCodes s = .ok d) : Store.read d x = Store.read s.dict x := by
  unfold assignCodes at h
  split at h
  · cases h
  next nd hnd =>
  split at h
  next hk =>
    cases h
    exact Store.read_write_other _ _ (hx _ nd ((readNode_ok _ _ _).mp hnd) hk).symm
  next => exact assignLoop_other hx h

/-- Settles O24: of BUILD's answers only the built tree writes the memories, as `Assigned` and
`assignCodes_other` say. -/
theorem buildFrame : Obligations.BuildFrame := by
  unfold Obligations.BuildFrame
  intro s t ht
  cases exec_answer ht with
  | refused | tableFailed => exact ⟨rfl, le_rfl, fun _ _ => rfl, fun _ _ => rfl⟩
  | built _ nodes n root d _ _ ha =>
    have hother := fun x hx => assignCodes_other (x := x)
      (s := { s with nodes := nodes, nNodes := n, root := root }) hx ha.codes
    exact ⟨rfl, ha.grows, ha.old, hother⟩

/-- Settles O29: a table fails for EMPTY, CAPACITY or DUPLICATE, CLEAR leaves no reason, and every other
answer keeps the one before. -/
theorem internalReasonIsNeverRaised : Obligations.InternalReasonIsNeverRaised := by
  unfold Obligations.InternalReasonIsNeverRaised
  intro i s t ht hr
  cases exec_answer ht with
  | tableFailed _ _ r _ hcause =>
    have hint : r = .internal := hr
    simp [hint] at hcause
  | clear => cases hr
  | _ => exact hr

/-! ### The completed tree -/

theorem replied_builtState (t : State) (root : Nat) (L : List (Nat × Bits)) :
    (builtState t root L).withReply ⟨Response.word { data := zext32 root }, []⟩ =
      (builtState t root L).replied (rspWord 0 0 0 0 (BitVec.ofNat 32 root)) [] := by
  rw [withReply_eq, word_plain]
  rfl

/-- Settles O23: the tree is the one the merge loop leaves, with the root its newest node. -/
theorem buildCompletesWithTheRootLast : Obligations.BuildCompletesWithTheRootLast := by
  unfold Obligations.BuildCompletesWithTheRootLast
  intro s hi hp h1
  obtain ⟨t, root, T, L, hok, -, hroot, hcount, -, -, hbuild⟩ :=
    buildTree_answers hi (hi.noTree (by simp [hp])) h1
  have hidx : root.idx = 2 * s.nLeaves - 2 := by omega
  rw [hidx, replied_builtState] at hbuild
  refine ⟨_, (execBuild_some hp h1).trans hbuild, ?state, ?room, hok.old,
    fun k hge hle => hok.internals k hge (by omega), fun k hk => ?absent⟩
  case state =>
    rw [← hcount, hok.only]
    rfl
  case room =>
    have hcfg : t.cfg = s.cfg := by rw [hok.only]
    have hmax := hi.leaves_max
    change t.nNodes ≤ t.cfg.nodesMax
    rw [hcount, hcfg, Config.nodesMax]
    omega
  case absent =>
    have hnot : ¬ (Store.read t.nodes k).isSome = true := (hok.held k).not.mpr (by omega)
    exact Option.not_isSome_iff_eq_none.mp hnot

/-! ### The queue as a selection (R65) -/

/-- A heap is in order and has the members of a plain collection. -/
def HeapOf (h : Heap) (q : List Key) : Prop := HeapOrdered h ∧ h.Perm q

theorem HeapOf.insert {h : Heap} {q : List Key} (hq : HeapOf h q) (k : Key) :
    HeapOf (heapInsert h k) (q ++ [k]) :=
  ⟨heapInsert_ordered h k hq.1, (heapInsert_perm h k).trans
    ((hq.2.cons k).trans (List.perm_append_singleton k q).symm)⟩

/-- The queue BUILD fills is a heap of the leaves' keys, and both meet the same absent entry. -/
theorem fillQueue_leafKeys (s : State) (n : Nat) :
    (∃ f, fillQueue s n = .error f ∧ leafKeys s n = .error f) ∨
    ∃ h q, fillQueue s n = .ok h ∧ leafKeys s n = .ok q ∧ HeapOf h q := by
  induction n with
  | zero => exact .inr ⟨[], [], rfl, rfl, fun _ _ _ _ _ hp => by simp at hp, .refl _⟩
  | succ n ih =>
    rcases ih with ⟨f, hf, hl⟩ | ⟨h, q, hf, hl, hq⟩
    · exact .inl ⟨f, by rw [fillQueue, hf], by rw [leafKeys, hl]⟩
    · cases hr : readNode s n with
      | error f => exact .inl ⟨f, by rw [fillQueue, hf, hr], by rw [leafKeys, hl, hr]⟩
      | ok nd => exact .inr ⟨_, _, by rw [fillQueue, hf, hr], by rw [leafKeys, hl, hr], hq.insert _⟩

/-- Two stages that stop alike, or that leave the same state, one with a heap of the other's keys. -/
inductive SameStage : Stage → Stage → Prop where
  | done (s : State) {h : Heap} {q : List Key} (hq : HeapOf h q) : SameStage (.done s h) (.done s q)
  | outOfNodes (s : State) : SameStage (.outOfNodes s) (.outOfNodes s)
  | stuck (f : Fault) : SameStage (.stuck f) (.stuck f)

theorem mergeStep_selectStep (s : State) {h : Heap} {q : List Key} (hq : HeapOf h q) :
    SameStage (mergeStep s h) (selectStep s q) := by
  unfold mergeStep selectStep
  rcases heapExtractMin_selects hq.1 hq.2 with ⟨e, e'⟩ | ⟨a, h1, q1, e, e', ho1, hp1⟩
  · rw [e, e']
    exact .outOfNodes s
  simp only [e, e']
  rcases heapExtractMin_selects ho1 hp1 with ⟨e, e'⟩ | ⟨b, h2, q2, e, e', ho2, hp2⟩
  · rw [e, e']
    exact .outOfNodes s
  simp only [e, e']
  cases writeNode s s.nNodes (internalRecord (a.freq + b.freq) a.idx b.idx) with
  | error f => exact .stuck f
  | ok t => exact .done _ (HeapOf.insert ⟨ho2, hp2⟩ _)

theorem mergeLoop_selectLoop (fuel : Nat) (s : State) {h : Heap} {q : List Key} (hq : HeapOf h q) :
    SameStage (mergeLoop fuel s h) (selectLoop fuel s q) := by
  induction fuel generalizing s h q with
  | zero => exact .done s hq
  | succ n ih =>
    rw [mergeLoop, selectLoop, hq.2.length_eq]
    split
    · exact .done s hq
    · have hstep := mergeStep_selectStep s hq
      generalize mergeStep s h = m, selectStep s q = m' at hstep
      cases hstep with
      | done t hq' => exact ih t hq'
      | outOfNodes t => exact .outOfNodes t
      | stuck f => exact .stuck f

/-- BUILD with the heap and BUILD by selection are one (R65). -/
theorem buildTree_eq_buildBySelection (s : State) : buildTree s = buildBySelection s := by
  unfold buildTree buildBySelection
  rcases fillQueue_leafKeys s s.nLeaves with ⟨f, hf, hl⟩ | ⟨h, q, hf, hl, hq⟩
  · rw [hf, hl]
  simp only [hf, hl, hq.2.length_eq]
  have hloop := mergeLoop_selectLoop q.length s hq
  generalize mergeLoop q.length s h = m, selectLoop q.length s q = m' at hloop
  cases hloop with
  | stuck f => rfl
  | outOfNodes t => rfl
  | done t hq' =>
    rcases heapExtractMin_selects hq'.1 hq'.2 with ⟨e, e'⟩ | ⟨k, _, _, e, e', -⟩
    · simp only [e, e']
    · simp only [e, e']

/-- What is extracted is smaller than every other member. -/
theorem heapExtractMin_least {h g : Heap} {k : Key} (ho : HeapOrdered h)
    (e : heapExtractMin h = some (k, g)) : ∀ x ∈ h, x = k ∨ k.lt x = true := by
  intro x hx
  obtain ⟨-, hmin⟩ := heapExtractMin_ordered ho e
  by_cases hxk : x = k
  · exact .inl hxk
  · have hlt := hmin x hx
    exact .inr ((Key.lt_or_lt_of_ne hxk).resolve_left (by simp [hlt]))

/-- Settles O25: the heap by its order and its members, BUILD by `buildTree_eq_buildBySelection`. -/
theorem buildIsSelectionOfTheSmallest : Obligations.BuildIsSelectionOfTheSmallest := by
  unfold Obligations.BuildIsSelectionOfTheSmallest
  refine ⟨fun h k ho => ⟨heapInsert_ordered h k ho, heapInsert_perm h k⟩, fun h g k ho e => ?extract,
    fun s hp hn => ?build⟩
  case extract =>
    exact ⟨(heapExtractMin_ordered ho e).1, heapExtractMin_perm e, heapExtractMin_least ho e⟩
  case build =>
    exact (execBuild_some hp (Nat.pos_of_ne_zero hn)).trans (buildTree_eq_buildBySelection s)

end Sys2Proof.Machine
end

section
/-! Proofs of `41_encoder.md`: the lengths of the codes (R73) and the stack of the code assignment (R20, R66,
R115). Both count decisions: a walk goes to smaller indices, and its internal nodes are not leaves. -/

namespace Sys2Proof.Machine

/-! ### Code lengths -/

/-- A walk's last decision is taken at an internal node. -/
theorem walk_concat_some {nodes : Store Node} {p k : Nat} {as : Bits} {b : Bool}
    (h : walk nodes p (as ++ [b]) = some k) :
    ∃ q nd, walk nodes p as = some q ∧ Store.read nodes q = some nd ∧ nd.kind = .internal ∧
      nd.child b = k := by
  rw [walk_append] at h
  obtain ⟨q, hq, hlast⟩ := Option.bind_eq_some_iff.mp h
  obtain ⟨nd, hr, hk, hend⟩ := walk_cons_some hlast
  exact ⟨q, nd, hq, hr, hk, Option.some.inj hend⟩

/-- On `n` leaves a walk from the root takes at most `n - 1` decisions: each at an internal node of its own,
and those are the indices `n` to `2n - 2` (R73). -/
theorem Invariant.walk_length_lt {s : State} (hi : Invariant s) (hp : s.phase = .ready) {path : Bits}
    {k : Nat} (hw : walk s.nodes s.root path = some k) : path.length ≤ s.nLeaves - 1 := by
  obtain ⟨-, ht, -⟩ := hi.ready hp
  have hroot := ht.root
  have hcount := ht.count
  have hsome := ht.some_leaf
  rcases List.eq_nil_or_concat path with rfl | ⟨as, b, rfl⟩
  · exact Nat.zero_le _
  · rw [List.concat_eq_append] at hw ⊢
    obtain ⟨q, nd, hq, hr, hk, -⟩ := walk_concat_some hw
    have hge := hi.internal_ge hr hk
    have hdesc := walk_descends (hi.descends hp) hq
    rw [List.length_append, List.length_singleton]
    omega

/-- Settles O31: an entry is the record of a code (`Invariant.entry_cases`), which with two leaves or more is
a walk from the root. -/
theorem codeLengthsAreBounded : Obligations.CodeLengthsAreBounded := by
  unfold Obligations.CodeLengthsAreBounded
  intro s x e hi hp hx
  obtain ⟨-, k, nd, path, -, -, -, rfl, hpos, hmax, hwalk⟩ := hi.entry_cases hx
  exact ⟨hpos, hmax, dictRecord_code_length _ _ hmax, fun h2 => hi.walk_length_lt hp (hwalk h2)⟩

/-! ### The code assignment's stack -/

/-- What every turn of the code assignment keeps: the entries are walks from the root, none longer than the
one above it, and below the top strictly shorter and not empty. -/
structure StackOk (s : State) (stack : List (Nat × Bits)) : Prop where
  walks : ∀ e ∈ stack, walk s.nodes s.root e.2 = some e.1
  descending : stack.Pairwise (fun a b => b.2.length ≤ a.2.length)
  strictly : stack.tail.Pairwise (fun a b => b.2.length < a.2.length)
  nonempty : ∀ e ∈ stack.tail, 1 ≤ e.2.length

theorem StackOk.root (s : State) : StackOk s [(s.root, [])] where
  walks := by simp
  descending := List.pairwise_singleton ..
  strictly := .nil
  nonempty := nofun

theorem StackOk.pop {s : State} {e : Nat × Bits} {stack : List (Nat × Bits)}
    (h : StackOk s (e :: stack)) : StackOk s stack where
  walks := fun x hx => h.walks x (List.mem_cons_of_mem _ hx)
  descending := h.descending.tail
  strictly := h.strictly.tail
  nonempty := fun x hx => h.nonempty x (List.mem_of_mem_tail hx)

theorem StackOk.push {s : State} {p : Nat} {c : Bits} {stack : List (Nat × Bits)} {nd : Node}
    (h : StackOk s ((p, c) :: stack)) (hr : Store.read s.nodes p = some nd) (hk : nd.kind = .internal) :
    StackOk s ((nd.left, c ++ [false]) :: (nd.right, c ++ [true]) :: stack) := by
  have htop : ∀ e ∈ stack, e.2.length ≤ c.length := (List.pairwise_cons.mp h.descending).1
  have hchild : ∀ b, walk s.nodes s.root (c ++ [b]) = some (nd.child b) := fun b => by
    rw [walk_append, h.walks (p, c) List.mem_cons_self]
    exact walk_internal hr hk b []
  have hlen : ∀ b : Bool, (c ++ [b]).length = c.length + 1 := fun b => List.length_append
  refine ⟨?walks, ?descending, ?strictly, ?nonempty⟩
  case walks =>
    exact List.forall_mem_cons.mpr ⟨hchild false, List.forall_mem_cons.mpr ⟨hchild true, h.pop.walks⟩⟩
  case descending =>
    have hle : ∀ e ∈ stack, ∀ b : Bool, e.2.length ≤ (c ++ [b]).length := fun e he b => by
      have := htop e he
      rw [hlen]
      omega
    refine List.pairwise_cons.mpr ⟨?_, List.pairwise_cons.mpr ⟨fun e he => hle e he true, h.pop.descending⟩⟩
    exact List.forall_mem_cons.mpr ⟨by rw [hlen, hlen], fun e he => hle e he false⟩
  case strictly =>
    refine List.pairwise_cons.mpr ⟨fun e he => ?_, h.strictly⟩
    have := htop e he
    rw [hlen]
    omega
  case nonempty =>
    exact List.forall_mem_cons.mpr ⟨by rw [hlen]; omega, h.nonempty⟩

/-- Below the top there is no more than one entry for each length up to CODE_MAX (R20). -/
theorem Invariant.stack_length_le {s : State} (hi : Invariant s) (hp : s.phase = .ready)
    {stack : List (Nat × Bits)} (h : StackOk s stack) : stack.length ≤ s.cfg.codeMax + 1 := by
  have htail : stack.tail.length ≤ s.cfg.codeMax :=
    Machine.stack_length_le _ _ h.strictly fun e he =>
      ⟨h.nonempty e he, hi.walk_length hp (h.walks e (List.mem_of_mem_tail he))⟩
  rw [List.length_tail] at htail
  omega

/-- The loop on a stack of CODE_MAX + 1 entries is the model's loop, from every stack its turns keep. -/
theorem Invariant.boundedAssignLoop_eq {s : State} (hi : Invariant s) (hp : s.phase = .ready)
    (turns : Nat) {stack : List (Nat × Bits)} (d : Store DictEntry) (h : StackOk s stack) :
    boundedAssignLoop (s.cfg.codeMax + 1) s turns stack d = some (assignLoop s turns stack d) := by
  have hlen := hi.stack_length_le hp h
  induction turns generalizing stack d with
  | zero => exact if_pos hlen
  | succ n ih =>
    unfold boundedAssignLoop
    rw [if_pos hlen]
    cases stack with
    | nil => rfl
    | cons e stack =>
      obtain ⟨p, c⟩ := e
      rw [assignLoop]
      rcases assignTurn_cases (s := s) (p := p) (c := c) (stack := stack) (d := d) with
        ⟨f, hf⟩ | ⟨nd, hr, ⟨hk, hturn⟩ | ⟨hk, hturn⟩⟩
      · simp only [hf]
      · simp only [hturn]
        exact ih _ h.pop (hi.stack_length_le hp h.pop)
      · simp only [hturn]
        exact ih _ (h.push hr hk) (hi.stack_length_le hp (h.push hr hk))

/-- On an internal root the dictionary is the one the loop writes, in as many turns as there are nodes. -/
theorem assignLoop_finishedDict {t u : State} {root : Nat} {nd : Node} {L : List (Nat × Bits)}
    (hb : Below t.nodes root L t.nNodes) (hr : Store.read t.nodes root = some nd)
    (hk : nd.kind = .internal) (hn : u.nodes = t.nodes) (hc : u.cfg = t.cfg) :
    assignLoop u t.nNodes [(root, [])] t.dict = .ok (finishedDict t root L) := by
  have hloop := assignLoop_below hb 0 [] [] t.dict
  rw [Nat.add_zero, assignLoop_empty] at hloop
  rw [assignLoop_congr hn hc, hloop, finishedDict, hr]
  simp only [hk]

/-- Settles O33: the stack by `Invariant.boundedAssignLoop_eq`, for the tree of a BUILD too, which is in
READY. -/
theorem assignmentStackIsBounded : Obligations.AssignmentStackIsBounded := by
  unfold Obligations.AssignmentStackIsBounded
  refine ⟨fun s turns d hi hp => hi.boundedAssignLoop_eq hp turns d (.root s), fun s hi hp h2 => ?build⟩
  case build =>
    have h1 : 1 ≤ s.nLeaves := by omega
    obtain ⟨t, root, T, L, hok, hT, hroot, hcount, hbelow, hL, hbuild⟩ :=
      buildTree_answers hi (hi.noTree (by simp [hp])) h1
    have hbuilt := hi.built hp hok hT hroot hcount h1 hbelow hL
    rw [replied_builtState] at hbuild
    refine ⟨_, (execBuild_some hp h1).trans hbuild, ?_⟩
    obtain ⟨nd, hr, hint⟩ := hok.internals root.idx (by omega) (by omega)
    have hcfg : s.cfg = t.cfg := by rw [hok.only]
    have hdict : t.dict = s.dict := by rw [hok.only]
    rw [hcfg, ← hdict]
    refine (hbuilt.replied.boundedAssignLoop_eq rfl _ _ (.root _)).trans (congrArg some ?_)
    exact assignLoop_finishedDict hbelow hr hint.1 rfl rfl

end Sys2Proof.Machine
end

section
/-! Proofs of `41_encoder.md` and `60_exceptions.md`: a whole message (R71, R72, R90) and the error it keeps
(R96, R100). What a message replies is written out once, by the dictionary alone; the three statements are
read off it. -/

namespace Sys2Proof.Machine

/-! ### A failed message -/

/-- The reply of an ENC or an ENCEND that returns the message's error (R70, R71). -/
def errorReply (e : MsgErr) (x : Symbol) : Reply := ⟨rspWord e.code 0 0 x 0, []⟩

theorem append_replicate_succ (rs : List Reply) (r : Reply) (n : Nat) :
    rs ++ [r] ++ List.replicate n r = rs ++ List.replicate (n + 1) r := by
  rw [List.append_assoc, List.singleton_append, ← List.replicate_succ]

/-- In a failed message every ENC repeats the error and changes nothing (R96, R100). -/
theorem execAll_enc_error {s : State} (hp : s.phase = .ready) (ho : s.encOpen = true)
    (he : s.encErr ≠ .none) (xs : List Symbol) :
    execAll (xs.map .enc) s = .next { s with
      replies := s.replies ++ List.replicate xs.length (errorReply s.encErr s.encErrSym) } := by
  induction xs generalizing s with
  | nil => simp [execAll]
  | cons x xs ih =>
    rw [List.map_cons, execAll_cons (i := .enc x) (execEnc_error hp ho he x)]
    refine (ih (s := s.replied _ []) hp ho he).trans ?_
    rw [List.length_cons, ← append_replicate_succ]
    rfl

/-- Settles O38: `execAll_enc_error` for the ENCs, which leave the error to `execEncend_error`. -/
theorem messageErrorIsSticky : Obligations.MessageErrorIsSticky := by
  unfold Obligations.MessageErrorIsSticky
  intro s xs hp ho he
  exact ⟨_, execAll_enc_error hp ho he xs, rfl, execEncend_error hp ho he⟩

/-- The answer that closes a message, with these replies given. -/
def closesWith (s : State) (rs : List Reply) : Result := .next (closeMessage { s with replies := rs })

/-- The rest of a failed message: the error once for each ENC and for the ENCEND that closes it. -/
theorem execAll_rest_error {s : State} (hp : s.phase = .ready) (ho : s.encOpen = true)
    (he : s.encErr ≠ .none) (xs : List Symbol) :
    execAll (xs.map .enc ++ [.encend]) s = closesWith s
      (s.replies ++ List.replicate (xs.length + 1) (errorReply s.encErr s.encErrSym)) := by
  rw [execAll_append (execAll_enc_error hp ho he xs), List.replicate_succ', ← List.append_assoc]
  exact execAll_singleton (i := .encend) (execEncend_error hp ho he)

/-! ### What a message replies -/

/-- The replies to the ENCs of these symbols and the ENCEND after them, with the bits `out` gathered before:
by the dictionary and the buffer's capacity alone (R70, R71, R72). -/
def messageReplies (dict : Store DictEntry) (capacity : Nat) : List Symbol → Bits → List Reply
  | [], out => [⟨rspWord 0 0 0 0 (BitVec.ofNat 32 out.length), out⟩]
  | x :: xs, out =>
    match Store.read dict x.toNat with
    | none => List.replicate (xs.length + 2) (errorReply .noSuchKey x)
    | some e =>
      if capacity < out.length + e.len then List.replicate (xs.length + 2) (errorReply .overflow x)
      else
        ⟨rspWord 0 0 0 x (BitVec.ofNat 32 e.len), []⟩ ::
          messageReplies dict capacity xs (out ++ e.bits)

/-- The first error of a message, and what follows it. -/
theorem execAll_first_error {s : State} {x : Symbol} {e : MsgErr} (hp : s.phase = .ready)
    (ho : s.encOpen = true) (hne : e ≠ .none)
    (h : execEnc x s = .next ((voidMessage e x s).replied (rspWord e.code 0 0 x 0) []))
    (xs : List Symbol) :
    execAll ((x :: xs).map .enc ++ [.encend]) s =
      closesWith s (s.replies ++ List.replicate (xs.length + 2) (errorReply e x)) := by
  rw [List.map_cons, List.cons_append, execAll_cons (i := .enc x) h]
  refine (execAll_rest_error (s := (voidMessage e x s).replied _ []) hp ho hne xs).trans ?_
  exact congrArg (closesWith s) (append_replicate_succ s.replies _ _)

/-- In an open message without an error, the ENCs and the ENCEND reply as `messageReplies` says, and leave
the encoder closed. -/
theorem execAll_message {s : State} (hp : s.phase = .ready) (ho : s.encOpen = true)
    (he : s.encErr = .none) (xs : List Symbol) :
    execAll (xs.map .enc ++ [.encend]) s =
      closesWith s (s.replies ++ messageReplies s.dict s.cfg.encBufBits xs s.encBuf) := by
  induction xs generalizing s with
  | nil => exact execAll_singleton (i := .encend) (execEncend_open hp ho he)
  | cons x xs ih =>
    have henc := execEnc_open hp ho he x
    rw [messageReplies]
    cases hx : Store.read s.dict x.toNat with
    | none => exact execAll_first_error hp ho (by decide) (henc.trans (appendCode_noSuchKey hx)) xs
    | some e =>
      by_cases hl : s.cfg.encBufBits < s.encBuf.length + e.len
      · simp only [if_pos hl]
        exact execAll_first_error hp ho (by decide) (henc.trans (appendCode_overflow hx hl)) xs
      · simp only [if_neg hl]
        rw [List.map_cons, List.cons_append,
          execAll_cons (i := .enc x) (henc.trans (appendCode_fits hx (not_lt.mp hl)))]
        refine (ih (s := ({ s with encBuf := s.encBuf ++ e.bits } : State).replied _ []) hp ho he).trans ?_
        exact congrArg (closesWith s)
          (List.append_cons s.replies _ _).symm

/-- The whole message `encbeg; enc ...; encend` in phase READY. -/
theorem execAll_encodeSeq {s : State} (hp : s.phase = .ready) (xs : List Symbol) :
    execAll (encodeSeq xs) s =
      closesWith s (s.replies ++ ⟨0#64, []⟩ :: messageReplies s.dict s.cfg.encBufBits xs []) := by
  have hbegin : exec .encbeg s = .next ((openMessage s []).replied 0#64 []) := execEncbeg_ready hp
  rw [encodeSeq, List.cons_append, execAll_cons hbegin]
  refine (execAll_message (s := (openMessage s []).replied _ []) hp rfl rfl xs).trans ?_
  exact congrArg (closesWith s)
    (List.append_cons s.replies _ _).symm

/-- Settles O39: the replies are `messageReplies`, which reads the dictionary and the capacity alone. -/
theorem messageDependsOnDictionaryAndSymbolsAlone :
    Obligations.MessageDependsOnDictionaryAndSymbolsAlone := by
  unfold Obligations.MessageDependsOnDictionaryAndSymbolsAlone
  intro s₁ s₂ t₁ t₂ xs hp₁ hp₂ hd hc h₁ h₂
  obtain rfl := next_inj ((execAll_encodeSeq hp₁ xs).symm.trans h₁)
  obtain rfl := next_inj ((execAll_encodeSeq hp₂ xs).symm.trans h₂)
  simp only [closeMessage_replies, List.drop_left, hd, hc]

/-! ### The result of a message -/

theorem messageReplies_length (d : Store DictEntry) (n : Nat) (xs : List Symbol) (out : Bits) :
    (messageReplies d n xs out).length = xs.length + 1 := by
  induction xs generalizing out with
  | nil => rfl
  | cons x xs ih =>
    rw [messageReplies]
    split
    · exact List.length_replicate
    · split
      · exact List.length_replicate
      · rw [List.length_cons, ih, List.length_cons]

/-- The host looks at the last reply of a message alone (R90). -/
theorem encodeResult_cons {r : Reply} {rs : List Reply} (h : rs ≠ []) :
    encodeResult (r :: rs) = encodeResult rs := by
  obtain ⟨q, qs, rfl⟩ := List.exists_cons_of_ne_nil h
  simp only [encodeResult, List.getLast?_cons_cons]

theorem messageReplies_ne_nil (d : Store DictEntry) (n : Nat) (xs : List Symbol) (out : Bits) :
    messageReplies d n xs out ≠ [] :=
  List.ne_nil_of_length_eq_add_one (messageReplies_length d n xs out)

theorem encodeResult_delivered (out : Bits) (d : BitVec 32) :
    encodeResult [⟨rspWord 0 0 0 0 d, out⟩] = .ok out := by
  simp [encodeResult, Status.code_ok]

theorem encodeResult_noSuchKey (n : Nat) (x : Symbol) :
    encodeResult (List.replicate (n + 1) (errorReply .noSuchKey x)) = .noSuchKey x := by
  simp [encodeResult, List.getLast?_replicate, errorReply, MsgErr.code, MsgErr.status, Status.code_inj]

theorem encodeResult_overflow (n : Nat) (x : Symbol) :
    encodeResult (List.replicate (n + 1) (errorReply .overflow x)) = .overflow x := by
  simp [encodeResult, List.getLast?_replicate, errorReply, MsgErr.code, MsgErr.status, Status.code_inj]

/-- The replies of a message read as its result by the dictionary (R90). -/
theorem encodeResult_messageReplies (s : State) (xs : List Symbol) (out : Bits) :
    encodeResult (messageReplies s.dict s.cfg.encBufBits xs out) = messageResult s xs out := by
  induction xs generalizing out with
  | nil => exact encodeResult_delivered out _
  | cons x xs ih =>
    rw [messageReplies, messageResult, readDict]
    cases Store.read s.dict x.toNat with
    | none => exact encodeResult_noSuchKey _ x
    | some e =>
      by_cases hl : s.cfg.encBufBits < out.length + e.len
      · simp only [if_pos hl]
        exact encodeResult_overflow _ x
      · simp only [if_neg hl]
        rw [encodeResult_cons (messageReplies_ne_nil _ _ xs _), ih]

/-- A message with an error returns no bit. -/
theorem messageReplies_no_burst {s : State} {xs : List Symbol} {out : Bits}
    (h : ∀ bits, messageResult s xs out ≠ .ok bits) :
    ∀ r ∈ messageReplies s.dict s.cfg.encBufBits xs out, r.burst = [] := by
  have hrep : ∀ n e x, ∀ r ∈ List.replicate n (errorReply e x), r.burst = [] := fun n e x r hr => by
    rw [List.eq_of_mem_replicate hr]
    rfl
  induction xs generalizing out with
  | nil => exact absurd rfl (h out)
  | cons x xs ih =>
    rw [messageResult, readDict] at h
    rw [messageReplies]
    cases hx : Store.read s.dict x.toNat with
    | none => exact hrep _ _ _
    | some e =>
      simp only [hx] at h
      by_cases hl : s.cfg.encBufBits < out.length + e.len
      · simp only [if_pos hl]
        exact hrep _ _ _
      · simp only [if_neg hl] at h ⊢
        exact List.forall_mem_cons.mpr ⟨rfl, ih h⟩

/-- Settles O37: `execAll_encodeSeq` gives the state and the replies, which read as the message's result. -/
theorem encodeIsAllOrNothing : Obligations.EncodeIsAllOrNothing := by
  unfold Obligations.EncodeIsAllOrNothing
  intro s xs hp
  refine ⟨_, execAll_encodeSeq hp xs, ?_⟩
  rw [closeMessage_replies, List.drop_left]
  refine ⟨?result, ?count, rfl, rfl, rfl, rfl, rfl, fun h => ?noBurst⟩
  case result => rw [encodeResult_cons (messageReplies_ne_nil _ _ xs _), encodeResult_messageReplies]
  case count => rw [List.length_cons, messageReplies_length]
  case noBurst => exact List.forall_mem_cons.mpr ⟨rfl, messageReplies_no_burst h⟩

end Sys2Proof.Machine
end

section
/-! Proofs of `42_decoder.md`: what a stream depends on (R81), a stream on one leaf (R79), and that the leaves
a stream returns are those of the symbols it returns (R80, R91, R92). -/

namespace Sys2Proof.Machine

/-! ### A tree of one leaf -/

/-- At a leaf root every bit emits the leaf's symbol and moves nowhere (R79). -/
theorem streams_lone_leaf {s : State} (hp : s.phase = .ready) (hroot : s.root = 0) (hptr : s.decPtr = 0)
    (h0 : s.decDepth = 0) {nd : Node} (hr : Store.read s.nodes 0 = some nd) (hk : nd.kind = .leaf)
    (bits : Bits) :
    ∃ t, Streams s bits (List.replicate bits.length ⟨rspWord 0 1 0 nd.sym 0, []⟩) t ∧ t.decPtr = 0 ∧
      t.decDepth = 0 := by
  induction bits generalizing s with
  | nil => exact ⟨s, .nil s, hptr, h0⟩
  | cons b bits ih =>
    have hq : moveTarget s b = .ok 0 := hptr ▸ moveTarget_leaf (hptr ▸ hr) hk b
    obtain ⟨t, hrest, ht⟩ := ih (s := (emitAt s 0 nd.sym).replied _ []) hp hroot hroot rfl hr
    exact ⟨t, (Streams.emit hp hq hr hk).append hrest, ht⟩

/-- Settles O44: `streams_lone_leaf`, from the root, where the decoder of a one-leaf tree is. -/
theorem loneLeafEmitsOncePerBit : Obligations.LoneLeafEmitsOncePerBit := by
  unfold Obligations.LoneLeafEmitsOncePerBit
  intro s bits hi hp h1
  obtain ⟨-, ht, -, -, hd⟩ := hi.ready hp
  have hroot : s.root = 0 := by rw [ht.root, ht.count, h1]
  have hptr : s.decPtr = 0 := by
    have := ht.count
    rcases hd.place with h | ⟨hge, hlt⟩ <;> omega
  have h0 : s.decDepth = 0 := hd.at_root.mpr (hptr.trans hroot.symm)
  obtain ⟨nd, hr, hleaf, -⟩ := hi.leaves 0 (by omega)
  obtain ⟨t, hstream, htptr, htdepth⟩ := streams_lone_leaf hp hroot hptr h0 hr hleaf bits
  exact ⟨nd, t, hr, hstream.answers, hstream.replies, htptr, htdepth, _,
    execDecend_depth_zero (hstream.frame.phase.trans hp) htdepth, rfl⟩

/-! ### What a stream depends on -/

/-- In READY, with one tree and the pointer and the depth alike. -/
structure SameStream (s t : State) : Prop where
  ready : s.phase = .ready
  ready' : t.phase = .ready
  nodes : s.nodes = t.nodes
  root : s.root = t.root
  decPtr : s.decPtr = t.decPtr
  decDepth : s.decDepth = t.decDepth

/-- DECBIT's answer, where it has one, is the same reply and the same move. -/
theorem SameStream.decbit {s₁ s₂ t₁ : State} (h : SameStream s₁ s₂) {b : Bool}
    (e : exec (.decbit b) s₁ = .next t₁) :
    ∃ t₂ r, exec (.decbit b) s₂ = .next t₂ ∧ SameStream t₁ t₂ ∧ t₁.replies = s₁.replies ++ [r] ∧
      t₂.replies = s₂.replies ++ [r] := by
  have hmove : moveTarget s₁ b = moveTarget s₂ b := by
    simp only [moveTarget, readNode_congr h.nodes, h.decPtr]
  cases exec_answer e with
  | refused _ _ _ hw => simp [refusedWith, h.ready] at hw
  | tableFailed _ _ _ hp => cases hp.symm.trans h.ready
  | decEmits _ _ q m hp hq hm hk =>
    have hanswer := (execDecbit_ready h.ready' (hmove ▸ hq)).trans (arriveAt_leaf (h.nodes ▸ hm) hk)
    exact ⟨_, _, hanswer, ⟨hp, h.ready', h.nodes, h.root, h.root, rfl⟩, rfl, rfl⟩
  | decMoves _ _ q m hp hq hm hk =>
    have hanswer := (execDecbit_ready h.ready' (hmove ▸ hq)).trans (arriveAt_internal (h.nodes ▸ hm) hk)
    exact ⟨_, _, hanswer, ⟨hp, h.ready', h.nodes, h.root, rfl, congrArg (· + 1) h.decDepth⟩, rfl, rfl⟩

/-- The bits of a stream and its DECEND reply alike. -/
theorem SameStream.bits {s₁ s₂ t₁ : State} (h : SameStream s₁ s₂) {bits : Bits}
    (e : execAll (bits.map .decbit ++ [.decend]) s₁ = .next t₁) :
    ∃ t₂ rs, execAll (bits.map .decbit ++ [.decend]) s₂ = .next t₂ ∧ t₁.replies = s₁.replies ++ rs ∧
      t₂.replies = s₂.replies ++ rs := by
  induction bits generalizing s₁ s₂ with
  | nil =>
    have hend := execAll_singleton (i := .decend) (execDecend_ready h.ready)
    obtain rfl := next_inj (hend.symm.trans e)
    rw [h.decDepth]
    exact ⟨_, _, execAll_singleton (i := .decend) (execDecend_ready h.ready'), rfl, rfl⟩
  | cons b bits ih =>
    rw [List.map_cons, List.cons_append] at e ⊢
    obtain ⟨u₁, he, e⟩ := execAll_cons_next e
    obtain ⟨u₂, r, he₂, hu, hr₁, hr₂⟩ := h.decbit he
    obtain ⟨t₂, rs, ht₂, hrs₁, hrs₂⟩ := ih hu e
    refine ⟨t₂, r :: rs, (execAll_cons he₂ _).trans ht₂, ?_, ?_⟩
    · rw [hrs₁, hr₁, ← List.append_cons]
    · rw [hrs₂, hr₂, ← List.append_cons]

/-- Settles O45: DECBEG puts both pointers at the one root, and `SameStream.bits` is the rest. -/
theorem streamDependsOnTreeAndBitsAlone : Obligations.StreamDependsOnTreeAndBitsAlone := by
  unfold Obligations.StreamDependsOnTreeAndBitsAlone
  intro s₁ s₂ t₁ bits hp₁ hp₂ hn hroot e
  have hbegin : ∀ {s : State}, s.phase = .ready →
      exec .decbeg s = .next ((pointerToRoot s).replied 0#64 []) := execDecbeg_ready
  rw [decodeSeq, List.cons_append] at e ⊢
  rw [execAll_cons (hbegin hp₁)] at e
  have hstart : SameStream ((pointerToRoot s₁).replied 0#64 []) ((pointerToRoot s₂).replied 0#64 []) :=
    ⟨hp₁, hp₂, hn, hroot, hroot, rfl⟩
  obtain ⟨t₂, rs, ht₂, hrs₁, hrs₂⟩ := hstart.bits e
  refine ⟨t₂, (execAll_cons (hbegin hp₂) _).trans ht₂, ?_⟩
  simp only [hrs₁, hrs₂, replied_replies, pointerToRoot_replies, List.append_assoc, List.drop_left]

/-! ### The leaves a stream names -/

/-- Only LOADW and BUILD, which are no part's commands, fail a table. -/
theorem not_part_of_tableFailed {i : Instr} {s : State} {r : Reason}
    (h : (r = .empty ∧ i = .build ∧ s.nLeaves = 0) ∨
      ((r = .capacity ∨ r = .duplicate) ∧ ∃ x f, i = .loadw x f)) :
    i.isEncoder = false ∧ i.isDecoder = false := by
  rcases h with ⟨-, rfl, -⟩ | ⟨-, x, f, rfl⟩ <;> exact ⟨rfl, rfl⟩

/-- Decoder commands write the decoder's part alone (R93). -/
theorem Answer.sameButDecoder {d : Instr} {s t : State} (h : Answer d s t) (hd : d.isDecoder = true) :
    SameButDecoder s t := by
  cases h with
  | refused | decbeg | decEmits | decMoves | decend => rfl
  | tableFailed _ _ _ _ hcause => cases (not_part_of_tableFailed hcause).2.symm.trans hd
  | _ => cases hd

/-- R86's table refuses no decoder command in READY. -/
theorem refusedWith_decoder {s : State} (hp : s.phase = .ready) {d : Instr} (hd : d.isDecoder = true) :
    refusedWith d s = none := by
  cases d with
  | decbeg | decbit | decend => exact if_pos hp
  | _ => cases hd

/-- An emitting reply returns a leaf of the tree and that leaf's symbol. -/
def NamesLeaf (s : State) (r : Reply) : Prop :=
  rspEmit r.word = true → (rspData r.word).toNat < s.nLeaves ∧
    ∃ nd, Store.read s.nodes (rspData r.word).toNat = some nd ∧ nd.kind = .leaf ∧ nd.sym = rspSym r.word

theorem namesLeaf_of_no_emit {s : State} {w : Word} {b : Bits} (h : rspEmit w = false) :
    NamesLeaf s ⟨w, b⟩ := fun he => by simp [h] at he

theorem toNat_ofNat_leaf {s : State} (hi : Invariant s) {q : Nat} (hq : q < s.nLeaves) :
    (BitVec.ofNat 32 q).toNat = q := by
  have := nMax_le_of_wf hi.cfg
  have := hi.leaves_max
  exact toNat_zext32 (by omega)

/-- In READY a decoder command's reply names a leaf if it emits (R80). -/
theorem Invariant.namesLeaf {s t : State} (hi : Invariant s) (hp : s.phase = .ready) {d : Instr}
    (hd : d.isDecoder = true) (e : exec d s = .next t) :
    ∃ r, t.replies = s.replies ++ [r] ∧ NamesLeaf s r := by
  cases exec_answer e with
  | decEmits _ _ q m _ _ hm hk =>
    have hq := hi.leaf_lt hm hk hp
    refine ⟨_, rfl, fun _ => ?_⟩
    rw [rspData_rspWord, rspSym_rspWord, toNat_ofNat_leaf hi hq]
    exact ⟨hq, m, hm, hk, rfl⟩
  | decMoves => exact ⟨_, rfl, namesLeaf_of_no_emit (rspEmit_rspWord ..)⟩
  | decbeg => exact ⟨_, rfl, namesLeaf_of_no_emit (by decide)⟩
  | decend =>
    refine ⟨_, rfl, namesLeaf_of_no_emit ?_⟩
    rw [rspEmit_rspWord]
    split <;> decide
  | refused _ _ w hw => cases (refusedWith_decoder hp hd).symm.trans hw
  | tableFailed _ _ _ hload => cases hload.symm.trans hp
  | _ => cases hd

theorem wellFormed_of_isDecoder {d : Instr} (hd : d.isDecoder = true) (c : Config) :
    d.wellFormed c = true := by
  cases d with
  | decbeg | decbit | decend => rfl
  | _ => cases hd

theorem isDecoder_of_mem_decodeSeq {bits : Bits} : ∀ d ∈ decodeSeq bits, d.isDecoder = true := by
  intro d hd
  simp only [decodeSeq, List.mem_append, List.mem_cons, List.mem_map, List.not_mem_nil, or_false] at hd
  rcases hd with (rfl | ⟨b, -, rfl⟩) | rfl <;> rfl

theorem SameButDecoder.namesLeaf_iff {s t : State} (h : SameButDecoder s t) (r : Reply) :
    NamesLeaf t r ↔ NamesLeaf s r := by
  rw [h]
  exact Iff.rfl

/-- So do the replies of a sequence of decoder commands. -/
theorem Invariant.all_namesLeaf {s t : State} (hi : Invariant s) (hp : s.phase = .ready)
    {ds : List Instr} (hd : ∀ d ∈ ds, d.isDecoder = true) (e : execAll ds s = .next t) :
    ∃ rs, t.replies = s.replies ++ rs ∧ ∀ r ∈ rs, NamesLeaf s r := by
  induction ds generalizing s with
  | nil =>
    obtain rfl := next_inj e
    exact ⟨[], by simp, by simp⟩
  | cons d ds ih =>
    rw [List.forall_mem_cons] at hd
    obtain ⟨u, hu, hui⟩ := hi.exec_continues (wellFormed_of_isDecoder hd.1 s.cfg)
    have hsame := (exec_answer hu).sameButDecoder hd.1
    obtain ⟨r, hr, hnames⟩ := hi.namesLeaf hp hd.1 hu
    rw [execAll_cons hu] at e
    obtain ⟨rs, hrs, hall⟩ := ih hui (hsame.phase.trans hp) hd.2 e
    refine ⟨r :: rs, by rw [hrs, hr, ← List.append_cons], List.forall_mem_cons.mpr ⟨hnames, ?_⟩⟩
    exact fun q hq => (hsame.namesLeaf_iff q).mp (hall q hq)

/-- Settles O46: the two results are read off the same emitting replies, each of which names a leaf. -/
theorem decodedReferencesNameTheirSymbols : Obligations.DecodedReferencesNameTheirSymbols := by
  unfold Obligations.DecodedReferencesNameTheirSymbols
  intro s t bits hi hp e
  obtain ⟨rs, hrs, hall⟩ := hi.all_namesLeaf hp (isDecoder_of_mem_decodeSeq (bits := bits)) e
  rw [hrs, List.drop_left]
  refine ⟨by simp [decodeResult, decodeOwnedResult], fun n ref sym href hsym => ?_⟩
  rw [decodeResult, List.getElem?_map, Option.map_eq_some_iff] at href
  rw [decodeOwnedResult, List.getElem?_map, Option.map_eq_some_iff] at hsym
  obtain ⟨r, hr, rfl⟩ := href
  obtain ⟨r', hr', rfl⟩ := hsym
  obtain rfl : r = r' := Option.some.inj (hr.symm.trans hr')
  obtain ⟨hmem, hemit⟩ := List.mem_filter.mp (List.mem_of_getElem? hr)
  exact hall r hmem hemit

end Sys2Proof.Machine
end

section
/-! Proofs of `43_control.md` and `20_memory.md`: CLEAR (R84), what READY keeps (R42), and that the encoder's
and the decoder's commands do not meet (R93). -/

namespace Sys2Proof.Machine

/-- Settles O18: CLEAR's all-zero answer leaves `clearAll`. -/
theorem clearReachesTheResetState : Obligations.ClearReachesTheResetState := by
  unfold Obligations.ClearReachesTheResetState
  exact fun s => respond_zero (clearAll s)

/-- Settles O50: in READY only the encoder's and the decoder's registers are written, but by CLEAR. -/
theorem readyTreeAndDictionaryAreImmutable : Obligations.ReadyTreeAndDictionaryAreImmutable := by
  unfold Obligations.ReadyTreeAndDictionaryAreImmutable
  intro i s t hp hi e
  cases exec_answer e with
  | clear => exact absurd rfl hi
  | tableFailed _ _ _ hload | leaf _ _ _ hload | built _ _ _ _ _ hload => cases hload.symm.trans hp
  | _ => exact ⟨rfl, rfl, rfl, rfl, rfl, hp, rfl⟩

/-! ### The two parts -/

/-- Encoder commands write the encoder's part alone (R93). -/
theorem Answer.sameButEncoder {e : Instr} {s t : State} (h : Answer e s t) (he : e.isEncoder = true) :
    SameButEncoder s t := by
  cases h with
  | refused | encbeg | encRepeats | encFails | encAppends | encend | encendFails => rfl
  | tableFailed _ _ _ _ hcause => cases (not_part_of_tableFailed hcause).1.symm.trans he
  | _ => cases he

/-- The state with the encoder's part of another, and these replies given. -/
def withEncoderOf (s t : State) (rs : List Reply) : State :=
  { s with encOpen := t.encOpen, encErr := t.encErr, encErrSym := t.encErrSym, encBuf := t.encBuf
           replies := rs }

/-- The state with the decoder's part of another, and these replies given. -/
def withDecoderOf (s t : State) (rs : List Reply) : State :=
  { s with decPtr := t.decPtr, decDepth := t.decDepth, decSym := t.decSym, decLeaf := t.decLeaf
           decValid := t.decValid, replies := rs }

theorem SameButEncoder.eq_withEncoderOf {s t : State} (h : SameButEncoder s t) :
    t = withEncoderOf s t t.replies := h

theorem SameButDecoder.eq_withDecoderOf {s t : State} (h : SameButDecoder s t) :
    t = withDecoderOf s t t.replies := h

/-- The parts put together in either order. -/
theorem quiet_withEncoderOf_eq {s t u : State} (ht : SameButEncoder s t) (hu : SameButDecoder s u)
    (rs qs : List Reply) : (withEncoderOf u t rs).quiet = (withDecoderOf t u qs).quiet := by
  rw [ht, hu]
  rfl

/-- An encoder command's answer does not look at the decoder's part. -/
theorem exec_encoder_apart {e : Instr} {s t : State} (he : e.isEncoder = true)
    (h : exec e s = .next t) :
    ∃ r, t.replies = s.replies ++ [r] ∧
      ∀ u rs, exec e (withDecoderOf s u rs) = .next (withDecoderOf t u (rs ++ [r])) := by
  cases exec_answer h with
  | refused _ _ w hw => exact ⟨_, rfl, fun u rs => refused_answers (s := withDecoderOf s u rs) hw⟩
  | encbeg _ hp => exact ⟨_, rfl, fun u rs => execEncbeg_ready (s := withDecoderOf s u rs) hp⟩
  | encRepeats _ x hp ho hne =>
    exact ⟨_, rfl, fun u rs => execEnc_error (s := withDecoderOf s u rs) hp ho hne x⟩
  | encFails _ x m hp ho hnone hcause =>
    refine ⟨_, rfl, fun u rs => (execEnc_open (s := withDecoderOf s u rs) hp ho hnone x).trans ?_⟩
    rcases hcause with ⟨rfl, hx⟩ | ⟨rfl, y, hx, hl⟩
    · exact appendCode_noSuchKey (s := withDecoderOf s u rs) hx
    · exact appendCode_overflow (s := withDecoderOf s u rs) hx hl
  | encAppends _ x y hp ho hnone hx hl =>
    exact ⟨_, rfl, fun u rs => (execEnc_open (s := withDecoderOf s u rs) hp ho hnone x).trans
      (appendCode_fits (s := withDecoderOf s u rs) hx hl)⟩
  | encend _ hp ho hnone =>
    exact ⟨_, rfl, fun u rs => execEncend_open (s := withDecoderOf s u rs) hp ho hnone⟩
  | encendFails _ hp ho hne =>
    exact ⟨_, rfl, fun u rs => execEncend_error (s := withDecoderOf s u rs) hp ho hne⟩
  | tableFailed _ _ _ _ hcause => cases (not_part_of_tableFailed hcause).1.symm.trans he
  | _ => cases he

/-- A decoder command's answer does not look at the encoder's part. -/
theorem exec_decoder_apart {d : Instr} {s t : State} (hd : d.isDecoder = true)
    (h : exec d s = .next t) :
    ∃ r, t.replies = s.replies ++ [r] ∧
      ∀ u rs, exec d (withEncoderOf s u rs) = .next (withEncoderOf t u (rs ++ [r])) := by
  cases exec_answer h with
  | refused _ _ w hw =>
    refine ⟨_, rfl, fun u rs => refused_answers (s := withEncoderOf s u rs) ?_⟩
    cases d with
    | decbeg | decbit | decend => exact hw
    | _ => cases hd
  | decbeg _ hp => exact ⟨_, rfl, fun u rs => execDecbeg_ready (s := withEncoderOf s u rs) hp⟩
  | decEmits _ b q m hp hq hm hk =>
    exact ⟨_, rfl, fun u rs => (execDecbit_ready (s := withEncoderOf s u rs) hp hq).trans
      (arriveAt_leaf (s := withEncoderOf s u rs) hm hk)⟩
  | decMoves _ b q m hp hq hm hk =>
    exact ⟨_, rfl, fun u rs => (execDecbit_ready (s := withEncoderOf s u rs) hp hq).trans
      (arriveAt_internal (s := withEncoderOf s u rs) hm hk)⟩
  | decend _ hp => exact ⟨_, rfl, fun u rs => execDecend_ready (s := withEncoderOf s u rs) hp⟩
  | tableFailed _ _ _ _ hcause => cases (not_part_of_tableFailed hcause).2.symm.trans hd
  | _ => cases hd

/-- In READY an encoder command answers, whatever its symbol. -/
theorem exec_encoder_answers {s : State} (hp : s.phase = .ready) {e : Instr} (he : e.isEncoder = true) :
    ∃ t, exec e s = .next t := by
  cases hw : refusedWith e s with
  | some w => exact ⟨_, refused_answers hw⟩
  | none =>
    cases e with
    | encbeg => exact ⟨_, execEncbeg_ready hp⟩
    | enc x =>
      obtain ⟨-, ho⟩ : s.phase = .ready ∧ s.encOpen = true := by simpa [refusedWith] using hw
      by_cases hnone : s.encErr = .none
      · cases hx : readDict s x with
        | none => exact ⟨_, (execEnc_open hp ho hnone x).trans (appendCode_noSuchKey hx)⟩
        | some y =>
          rcases lt_or_ge s.cfg.encBufBits (s.encBuf.length + y.len) with hl | hl
          · exact ⟨_, (execEnc_open hp ho hnone x).trans (appendCode_overflow hx hl)⟩
          · exact ⟨_, (execEnc_open hp ho hnone x).trans (appendCode_fits hx hl)⟩
      · exact ⟨_, execEnc_error hp ho hnone x⟩
    | encend =>
      obtain ⟨-, ho⟩ : s.phase = .ready ∧ s.encOpen = true := by simpa [refusedWith] using hw
      by_cases hnone : s.encErr = .none
      · exact ⟨_, execEncend_open hp ho hnone⟩
      · exact ⟨_, execEncend_error hp ho hnone⟩
    | _ => cases he

/-- Settles O51: each command writes its own part and does not look at the other's, so the two orders put
the same parts together. -/
theorem encoderAndDecoderCommute : Obligations.EncoderAndDecoderCommute := by
  unfold Obligations.EncoderAndDecoderCommute
  refine ⟨fun e s t he h => (exec_answer h).sameButEncoder he,
    fun d s t hd h => (exec_answer h).sameButDecoder hd, fun e d s hi hp he hd => ?_⟩
  obtain ⟨t₁, ht₁⟩ := exec_encoder_answers hp he
  obtain ⟨u₁, hu₁, -⟩ := hi.exec_continues (wellFormed_of_isDecoder hd s.cfg)
  have hte : SameButEncoder s t₁ := (exec_answer ht₁).sameButEncoder he
  have hud : SameButDecoder s u₁ := (exec_answer hu₁).sameButDecoder hd
  obtain ⟨re, hre, henc⟩ := exec_encoder_apart he ht₁
  obtain ⟨rd, hrd, hdec⟩ := exec_decoder_apart hd hu₁
  have ht₂ := hdec t₁ t₁.replies
  have hu₂ := henc u₁ u₁.replies
  rw [← hte.eq_withEncoderOf] at ht₂
  rw [← hud.eq_withDecoderOf] at hu₂
  refine ⟨t₁, _, u₁, _, re, rd, ht₁, ht₂, hu₁, hu₂, quiet_withEncoderOf_eq hte hud _ _, ?cmds, ?_, ?_⟩
  case cmds => exact (exec_answer hu₁).cfg_cmds.2.trans (exec_answer ht₁).cfg_cmds.2.symm
  · exact (congrArg (· ++ [rd]) hre).trans (List.append_assoc ..)
  · exact (congrArg (· ++ [re]) hrd).trans (List.append_assoc ..)

end Sys2Proof.Machine
end

section
/-! Proofs of `30_encoding.md` and `60_exceptions.md`: what a reply can carry (R44 to R47), and what a command
that returns an error may change (R95 to R97, R100, R104). -/

namespace Sys2Proof.Machine

/-! ### The form of a reply -/

/-- The responses of R86's table: SEQ, or the stored reason in FAILED. -/
theorem refusedWith_eq_some {i : Instr} {s : State} {w : Word} (h : refusedWith i s = some w) :
    w = seqWord ∨ w = weightsWord s.tbReason := by
  cases i with
  | nop | clear | rdreg => cases h
  | loadw | build =>
    simp only [refusedWith] at h
    split at h
    · cases h
    · exact .inl (Option.some.inj h).symm
    · exact .inr (Option.some.inj h).symm
  | _ =>
    simp only [refusedWith] at h
    split at h
    · cases h
    · exact .inl (Option.some.inj h).symm

/-- Bits 58 and 59 are the two flags that are never used (R47). -/
theorem rspWord_unusedFlags (st fl : BitVec 4) (re : BitVec 8) (sy : Symbol) (da : BitVec 32) :
    (rspWord st fl re sy da).getLsbD 58 = fl.getLsbD 2 ∧
    (rspWord st fl re sy da).getLsbD 59 = fl.getLsbD 3 := by
  unfold rspWord
  simp only [BitVec.getLsbD_append]
  norm_num

/-- The reply `r` of the command `i` that takes `s` to `t` has its flags, its reason and its burst only where
their rules say (R44 to R47). -/
structure ReplyForm (i : Instr) (s t : State) (r : Reply) : Prop where
  status : (rspStatus r.word).toNat ≤ 5
  emit : rspEmit r.word = true ↔ s.phase = .ready ∧ (∃ b, i = .decbit b) ∧ t.decValid = true
  emitted : rspEmit r.word = true → rspSym r.word = t.decSym ∧ rspData r.word = BitVec.ofNat 32 t.decLeaf
  dropped : rspPartial r.word = true ↔ s.phase = .ready ∧ i = .decend ∧ s.decDepth ≠ 0
  depth : rspPartial r.word = true → rspData r.word = BitVec.ofNat 32 s.decDepth
  unused : r.word.getLsbD 58 = false ∧ r.word.getLsbD 59 = false
  error : rspStatus r.word ≠ 0 → rspFlags r.word = 0 ∧ r.burst = []
  reason : rspStatus r.word ≠ 2 → rspReason r.word = 0
  burst : r.burst ≠ [] → i = .encend ∧ rspStatus r.word = 0 ∧ r.burst = s.encBuf

/-- A reply without flags and burst, of a command that neither emits nor drops bits. -/
theorem ReplyForm.plain {i : Instr} {s t : State} {st : BitVec 4} {re : BitVec 8} {sy : Symbol}
    {da : BitVec 32} (hst : st.toNat ≤ 5) (hre : st ≠ 2 → re = 0)
    (hemit : ¬ (s.phase = .ready ∧ (∃ b, i = .decbit b) ∧ t.decValid = true))
    (hdrop : ¬ (s.phase = .ready ∧ i = .decend ∧ s.decDepth ≠ 0)) :
    ReplyForm i s t ⟨rspWord st 0 re sy da, []⟩ where
  status := by rwa [rspStatus_rspWord]
  emit := iff_of_false (by simp [rspEmit_rspWord]) hemit
  emitted := fun h => by simp [rspEmit_rspWord] at h
  dropped := iff_of_false (by simp [rspPartial_rspWord]) hdrop
  depth := fun h => by simp [rspPartial_rspWord] at h
  unused := rspWord_unusedFlags st 0 re sy da
  error := fun _ => ⟨rspFlags_rspWord .., rfl⟩
  reason := fun h => by
    rw [rspStatus_rspWord] at h
    rw [rspReason_rspWord]
    exact hre h
  burst := fun h => absurd rfl h

/-- A refused command is no DECBIT and no DECEND in READY. -/
theorem ReplyForm.refused {i : Instr} {s t : State} {w : Word} (h : refusedWith i s = some w) :
    ReplyForm i s t ⟨w, []⟩ := by
  have hemit : ¬ (s.phase = .ready ∧ (∃ b, i = .decbit b) ∧ t.decValid = true) := by
    rintro ⟨hp, ⟨b, rfl⟩, -⟩
    cases (refusedWith_decoder hp rfl).symm.trans h
  have hdrop : ¬ (s.phase = .ready ∧ i = .decend ∧ s.decDepth ≠ 0) := by
    rintro ⟨hp, rfl, -⟩
    cases (refusedWith_decoder hp rfl).symm.trans h
  rcases refusedWith_eq_some h with rfl | rfl
  · exact .plain (by decide) (fun _ => rfl) hemit hdrop
  · exact .plain (by decide) (fun h2 => absurd rfl h2) hemit hdrop

/-- A reply of status OK without a reason, by its flags and its burst. -/
theorem ReplyForm.ok {i : Instr} {s t : State} {fl : BitVec 4} {sy : Symbol} {da : BitVec 32} {out : Bits}
    (hemit : fl.getLsbD 0 = true ↔ s.phase = .ready ∧ (∃ b, i = .decbit b) ∧ t.decValid = true)
    (hemitted : fl.getLsbD 0 = true → sy = t.decSym ∧ da = BitVec.ofNat 32 t.decLeaf)
    (hdrop : fl.getLsbD 1 = true ↔ s.phase = .ready ∧ i = .decend ∧ s.decDepth ≠ 0)
    (hdepth : fl.getLsbD 1 = true → da = BitVec.ofNat 32 s.decDepth)
    (hunused : fl.getLsbD 2 = false ∧ fl.getLsbD 3 = false)
    (hburst : out ≠ [] → i = .encend ∧ out = s.encBuf) : ReplyForm i s t ⟨rspWord 0 fl 0 sy da, out⟩ where
  status := by rw [rspStatus_rspWord]; decide
  emit := by rwa [rspEmit_rspWord]
  emitted := by rwa [rspEmit_rspWord, rspSym_rspWord, rspData_rspWord]
  dropped := by rwa [rspPartial_rspWord]
  depth := by rwa [rspPartial_rspWord, rspData_rspWord]
  unused := by rwa [(rspWord_unusedFlags ..).1, (rspWord_unusedFlags ..).2]
  error := fun h => absurd (rspStatus_rspWord ..) h
  reason := fun _ => rspReason_rspWord ..
  burst := fun h => ⟨(hburst h).1, rspStatus_rspWord .., (hburst h).2⟩

theorem MsgErr.code_le (e : MsgErr) : e.code.toNat ≤ 5 := by cases e <;> decide

/-- A command that answers adds one reply, of this form. -/
theorem Answer.replyForm {i : Instr} {s t : State} (h : Answer i s t) :
    ∃ r, t.replies = s.replies ++ [r] ∧ ReplyForm i s t r := by
  cases h with
  | refused _ _ w hw => exact ⟨_, rfl, .refused hw⟩
  | nop | clear | encbeg | decbeg =>
    rw [← rspWord_zero]
    exact ⟨_, rfl, .plain (by decide) (fun _ => rfl) nofun nofun⟩
  | rdreg | leaf | built | encAppends =>
    exact ⟨_, rfl, .plain (by decide) (fun _ => rfl) nofun nofun⟩
  | encRepeats | encFails | encendFails =>
    exact ⟨_, rfl, .plain (MsgErr.code_le _) (fun _ => rfl) nofun nofun⟩
  | tableFailed _ _ r hp =>
    have hready : s.phase ≠ .ready := by simp [hp]
    exact ⟨_, rfl, .plain (by decide) (fun h2 => absurd rfl h2) (fun h => hready h.1) fun h => hready h.1⟩
  | decMoves => exact ⟨_, rfl, .plain (by decide) (fun _ => rfl) nofun nofun⟩
  | encend =>
    exact ⟨_, rfl, .ok (iff_of_false nofun nofun) nofun (iff_of_false nofun nofun) nofun ⟨rfl, rfl⟩
      fun _ => ⟨rfl, rfl⟩⟩
  | decEmits _ b q m hp =>
    exact ⟨_, rfl, .ok (iff_of_true rfl ⟨hp, ⟨b, rfl⟩, rfl⟩) (fun _ => ⟨rfl, rfl⟩)
      (iff_of_false nofun nofun) nofun ⟨rfl, rfl⟩ (fun h => absurd rfl h)⟩
  | decend _ hp =>
    refine ⟨_, rfl, .ok (iff_of_false ?_ nofun) ?_ ?_ (fun _ => rfl) ?_ fun h => absurd rfl h⟩
    all_goals by_cases h0 : s.decDepth = 0 <;> simp [h0, hp]

/-- Settles O52: `Answer.cfg_cmds` and `Answer.replyForm`. -/
theorem repliesKeepTheirForm : Obligations.RepliesKeepTheirForm := by
  unfold Obligations.RepliesKeepTheirForm
  intro i s t e
  have h := exec_answer e
  obtain ⟨hcfg, hcmds⟩ := h.cfg_cmds
  obtain ⟨r, hr, hf⟩ := h.replyForm
  exact ⟨hcmds, hcfg, r, hr, hf.status, hf.emit, hf.emitted, hf.dropped, hf.depth, hf.unused.1, hf.unused.2,
    hf.error, hf.reason, hf.burst⟩

/-! ### The bookkeeping of an error -/

theorem reply_eq_of_append {rs : List Reply} {r q : Reply} (h : rs ++ [r] = rs ++ [q]) : q = r :=
  (List.singleton_inj.mp (List.append_cancel_left h)).symm

/-- Settles O53: an answer with an error is a refusal or a repeated message error, which change nothing, or
one that fails the table, voids the message, or closes it. -/
theorem errorsArePrecise : Obligations.ErrorsArePrecise := by
  unfold Obligations.ErrorsArePrecise
  intro i s t r e hr hst
  cases exec_answer e with
  | refused | encRepeats => exact .inl rfl
  | nop | clear | encbeg | decbeg =>
    obtain rfl := reply_eq_of_append hr
    exact absurd rspStatus_zero hst
  | rdreg | leaf | built | encAppends | encend | decEmits | decMoves | decend =>
    obtain rfl := reply_eq_of_append hr
    exact absurd (rspStatus_rspWord ..) hst
  | tableFailed _ _ _ hp =>
    obtain rfl := reply_eq_of_append hr
    exact .inr (.inl ⟨rspStatus_rspWord .., hp, rfl, rspReason_rspWord ..⟩)
  | encFails _ x =>
    obtain rfl := reply_eq_of_append hr
    exact .inr (.inr (.inl ⟨⟨x, rfl, rfl, rspSym_rspWord ..⟩, rspStatus_rspWord .., rfl⟩))
  | encendFails =>
    obtain rfl := reply_eq_of_append hr
    exact .inr (.inr (.inr ⟨rfl, rspStatus_rspWord .., rspSym_rspWord .., rfl⟩))

/-- Settles O54: `execAll_replies_in_failed`. -/
theorem failedPhaseIsSticky : Obligations.FailedPhaseIsSticky := by
  unfold Obligations.FailedPhaseIsSticky
  exact fun _ _ hp hc => execAll_replies_in_failed hp hc

end Sys2Proof.Machine
end

section
/-! Proofs of `43_control.md`: `construct` (R89) builds the tree of its pairs or returns the first reason it
cannot (R55, R56), whatever HTB held before (R63, R84). -/

namespace Sys2Proof.Machine

/-! ### Nothing of the past -/

/-- A sequence runs alike, with the same replies, whatever the port holds. -/
theorem execAll_port {is : List Instr} {s t : State} (h : execAll is s = .next t) :
    ∃ rs, t.replies = s.replies ++ rs ∧
      ∀ c r, execAll is (onPort s c r) = .next (onPort t c (r ++ rs)) := by
  induction is generalizing s with
  | nil =>
    obtain rfl := next_inj h
    exact ⟨[], by simp, fun c r => by rw [List.append_nil]; rfl⟩
  | cons i is ih =>
    obtain ⟨u, he, h⟩ := execAll_cons_next h
    obtain ⟨q, hq, hfirst⟩ := exec_port he
    obtain ⟨rs, hrs, hrest⟩ := ih h
    refine ⟨q :: rs, by rw [hrs, hq, ← List.append_cons], fun c r => ?_⟩
    rw [execAll_cons (hfirst c r), hrest, ← List.append_cons]

theorem exec_clear (s : State) : exec .clear s = .next ((clearAll s).replied 0#64 []) :=
  respond_zero (clearAll s)

/-- Settles O57: CLEAR leaves two states of one configuration alike but for the port, which no command looks
at. -/
theorem constructForgetsThePast : Obligations.ConstructForgetsThePast := by
  unfold Obligations.ConstructForgetsThePast
  intro s₁ s₂ t₁ table hcfg e
  rw [constructSeq, List.cons_append] at e ⊢
  rw [execAll_cons (exec_clear s₁)] at e
  obtain ⟨rs, hrs, hport⟩ := execAll_port e
  have hsame : (clearAll s₂).replied 0#64 [] =
      onPort ((clearAll s₁).replied 0#64 []) s₂.cmds (s₂.replies ++ [⟨0#64, []⟩]) := by
    simp only [clearAll, ← hcfg]
    rfl
  have hrest := hport s₂.cmds (s₂.replies ++ [⟨0#64, []⟩])
  rw [← hsame] at hrest
  refine ⟨_, (execAll_cons (exec_clear s₂) _).trans hrest, rfl, ?_⟩
  simp only [hrs, replied_replies, clearAll_replies, onPort_replies, List.append_assoc, List.drop_left]

/-! ### The pairs of a table -/

/-- The leaves are these pairs, in their order. -/
def HoldsPairs (s : State) (done : List (Symbol × BitVec 32)) : Prop :=
  s.nLeaves = done.length ∧
    ∀ k p, done[k]? = some p → Store.read s.nodes k = some (leafRecord p.1 p.2)

/-- The loaded symbols are those of the pairs. -/
theorem HoldsPairs.loaded_iff {s : State} {done : List (Symbol × BitVec 32)} (h : HoldsPairs s done)
    (x : Symbol) : Loaded s x ↔ x ∈ done.map Prod.fst := by
  obtain ⟨hn, hread⟩ := h
  constructor
  · rintro ⟨k, nd, hk, hr, rfl⟩
    have hp : done[k]? = some done[k] := List.getElem?_eq_getElem (hn ▸ hk)
    obtain rfl := Option.some.inj (hr.symm.trans (hread k _ hp))
    exact List.mem_map_of_mem (List.getElem_mem _)
  · intro hx
    obtain ⟨p, hp, rfl⟩ := List.mem_map.mp hx
    obtain ⟨k, hk, rfl⟩ := List.getElem_of_mem hp
    exact ⟨k, _, hn ▸ hk, hread k _ (List.getElem?_eq_getElem hk), rfl⟩

/-- One more leaf is one more pair (R55). -/
theorem HoldsPairs.append {s t : State} {done : List (Symbol × BitVec 32)} (h : HoldsPairs s done)
    {p : Symbol × BitVec 32} (hn : t.nLeaves = s.nLeaves + 1)
    (hnodes : t.nodes = Store.write s.nodes s.nLeaves (leafRecord p.1 p.2)) :
    HoldsPairs t (done ++ [p]) := by
  obtain ⟨hlen, hread⟩ := h
  refine ⟨by rw [hn, hlen, List.length_append, List.length_singleton], fun k q hq => ?_⟩
  rw [hnodes, Store.read_write]
  split
  · next hk =>
    rw [hk, hlen, List.getElem?_concat_length] at hq
    rw [Option.some.inj hq]
  · next hk =>
    have hlt : k < (done ++ [p]).length := (List.getElem?_eq_some_iff.mp hq).1
    rw [List.length_append, List.length_singleton] at hlt
    rw [List.getElem?_append_left (by omega)] at hq
    exact hread k q hq

theorem tableFault_cons (c : Config) (seen : List Symbol) (p : Symbol × BitVec 32)
    (ps : List (Symbol × BitVec 32)) :
    tableFault c seen (p :: ps) =
      if seen.length = c.nMax then .capacity
      else if p.1 ∈ seen then .duplicate
      else tableFault c (seen ++ [p.1]) ps := by
  cases seen <;> rfl

/-! ### The result of a construction -/

/-- A reply of status OK does not decide a construction's result. -/
theorem constructResult_cons {r : Reply} (h : rspStatus r.word = 0) (rs : List Reply) :
    constructResult (r :: rs) = constructResult rs := by
  simp [constructResult, h, Status.code_ok, Status.code_invalidWeights]

/-- The first INVALID_WEIGHTS is the result (R89). -/
theorem constructResult_weights (re : BitVec 8) (rs : List Reply) :
    constructResult (⟨rspWord 2 0 re 0 0, []⟩ :: rs) = .invalidWeights re := by
  simp [constructResult, Status.code_invalidWeights]

/-- These commands construct the table of `pairs`, or fail with the reason `fault`. -/
def Constructs (is : List Instr) (s : State) (fault : Reason) (pairs : List (Symbol × BitVec 32)) :
    Prop :=
  ∃ t rs, execAll is s = .next t ∧ t.replies = s.replies ++ rs ∧
    (fault = .none → constructResult rs = .ok () ∧ t.phase = .ready ∧ Invariant t ∧ HoldsPairs t pairs) ∧
    (fault ≠ .none → constructResult rs = .invalidWeights (fault.code.setWidth 8) ∧ t.phase = .failed ∧
      t.tbReason = fault)

theorem Constructs.cons {i : Instr} {is : List Instr} {s u : State} {w : Word} {fault : Reason}
    {pairs : List (Symbol × BitVec 32)} (he : exec i s = .next (u.replied w []))
    (hu : u.replies = s.replies) (hst : rspStatus w = 0)
    (h : Constructs is (u.replied w []) fault pairs) : Constructs (i :: is) s fault pairs := by
  obtain ⟨t, rs, ht, hrs, hok, hfault⟩ := h
  rw [← constructResult_cons (r := ⟨w, []⟩) hst] at hok hfault
  exact ⟨t, ⟨w, []⟩ :: rs, (execAll_cons he is).trans ht,
    by rw [hrs, replied_replies, hu, ← List.append_cons], hok, hfault⟩

/-- What follows the first failure changes nothing but the replies (R97). -/
theorem Constructs.fails {i : Instr} {is : List Instr} {s : State} {fault : Reason}
    (he : exec i s = failTable fault s) (hne : fault ≠ .none) (hc : .clear ∉ is)
    (pairs : List (Symbol × BitVec 32)) : Constructs (i :: is) s fault pairs := by
  rw [failTable_answers] at he
  obtain ⟨t, ht, hsame⟩ := execAll_replies_in_failed (is := is) (s := State.replied
    { s with phase := .failed, tbReason := fault } (rspWord 2 0 (fault.code.setWidth 8) 0 0) []) rfl hc
  obtain ⟨rs, hrs, -⟩ := execAll_port ht
  refine ⟨t, ⟨rspWord 2 0 (fault.code.setWidth 8) 0 0, []⟩ :: rs, (execAll_cons he is).trans ht, ?_,
    fun h => absurd h hne, fun _ => ?_⟩
  · rw [hrs, replied_replies, ← List.append_cons]
  · refine ⟨constructResult_weights .., ?_, ?_⟩ <;> rw [hsame] <;> rfl

/-- BUILD constructs the tree of a table that is not empty. -/
theorem Constructs.build {s : State} (hi : Invariant s) (hp : s.phase = .load)
    {pairs : List (Symbol × BitVec 32)} (h : HoldsPairs s pairs) (hne : pairs ≠ []) :
    Constructs [.build] s .none pairs := by
  obtain ⟨hn, hread⟩ := h
  have h1 : 1 ≤ s.nLeaves := hn ▸ List.length_pos_iff.mpr hne
  obtain ⟨t, ht, hstate, -, hold, -⟩ := buildCompletesWithTheRootLast s hi hp h1
  obtain ⟨u, hu, hui⟩ := hi.exec_continues (i := .build) rfl
  obtain rfl : u = t := next_inj (hu.symm.trans ht)
  have hready : u.phase = .ready := by rw [hstate]
  have hleaves : u.nLeaves = s.nLeaves := by rw [hstate]
  have hreplies := congrArg State.replies hstate
  refine ⟨u, [⟨rspWord 0 0 0 0 _, []⟩], execAll_singleton ht, hreplies, fun _ => ⟨?_, hready, hui,
    hleaves.trans hn, fun k p hk => ?_⟩, fun h => absurd rfl h⟩
  · exact constructResult_cons (r := ⟨rspWord 0 0 0 0 _, []⟩) (rspStatus_rspWord ..) []
  · have hlt : k < s.nLeaves := hn ▸ (List.getElem?_eq_some_iff.mp hk).1
    exact (hold k hlt).trans (hread k p hk)

/-- From a table with the pairs `done` loaded: the LOADWs of the others, up to the first that fails, and
BUILD (R55, R56). -/
theorem Constructs.table {s : State} (hi : Invariant s) (hp : s.phase = .load)
    {done table : List (Symbol × BitVec 32)} (h : HoldsPairs s done)
    (hfit : ∀ p ∈ table, p.1.toNat < 2 ^ s.cfg.symW ∧ p.2.toNat < 2 ^ s.cfg.freqW) :
    Constructs (table.map (fun p => .loadw p.1 p.2) ++ [.build]) s
      (tableFault s.cfg (done.map Prod.fst) table) (done ++ table) := by
  induction table generalizing s done with
  | nil =>
    rw [List.append_nil]
    cases done with
    | nil => exact .fails (i := .build) (fault := .empty) (execBuild_empty hp h.1) (by decide) (by simp) _
    | cons p ps => exact .build hi hp h (by simp)
  | cons p ps ih =>
    rw [List.forall_mem_cons] at hfit
    obtain ⟨⟨hsym, hfreq⟩, hrest⟩ := hfit
    have hclear : .clear ∉ ps.map (fun p => Instr.loadw p.1 p.2) ++ [.build] := by simp
    rw [tableFault_cons, List.length_map, ← h.1, List.map_cons, List.cons_append]
    by_cases hn : s.nLeaves = s.cfg.nMax
    · rw [if_pos hn]
      exact .fails (i := .loadw p.1 p.2) (execLoadw_full hp hn ..) (by decide) hclear _
    · rw [if_neg hn]
      by_cases hx : Loaded s p.1
      · rw [if_pos ((h.loaded_iff _).mp hx)]
        exact .fails (i := .loadw p.1 p.2) (hi.execLoadw_loaded hp hn hx _) (by decide) hclear _
      · rw [if_neg ((h.loaded_iff _).not.mp hx)]
        obtain ⟨b, hb, hiff⟩ := hi.symbolLoaded_answers p.1
        obtain rfl : b = false := by simpa using hiff.not.mpr hx
        have hanswer := (hi.execLoadw_new hp hn hx p.2).trans
          (appendLeaf_answers (hi.nLeaves_lt_nodesMax hn) p.1 p.2)
        have hloaded := hi.leaf_appended hp hn hb hsym hfreq
        have hseen : done.map Prod.fst ++ [p.1] = (done ++ [p]).map Prod.fst := by simp
        rw [List.append_cons done p ps, hseen]
        exact .cons (i := .loadw p.1 p.2) hanswer rfl (rspStatus_rspWord ..)
          (ih hloaded.replied hp (h.append rfl rfl) hrest)

/-- Settles O56: CLEAR leaves an empty table, from which `Constructs.table` is the rest. -/
theorem constructBuildsOrGivesTheFirstReason : Obligations.ConstructBuildsOrGivesTheFirstReason := by
  unfold Obligations.ConstructBuildsOrGivesTheFirstReason
  intro s table hcfg hfit
  have hcleared : Invariant ((clearAll s).replied 0#64 []) :=
    Invariant.port (s := State.resetWith s.cfg) rfl (Invariant.resetWith hcfg)
  have hempty : HoldsPairs ((clearAll s).replied 0#64 []) [] := ⟨rfl, by simp⟩
  obtain ⟨t, rs, ht, hrs, hok, hfault⟩ :=
    Constructs.cons (exec_clear s) rfl rspStatus_zero (.table hcleared rfl hempty hfit)
  refine ⟨t, ht, fun h => ?built, fun h => ?failed⟩
  case built =>
    obtain ⟨hresult, hp, hi, hn, hread⟩ := hok h
    rw [hrs, List.drop_left]
    exact ⟨hresult, hp, hi, hn, hread⟩
  case failed =>
    rw [hrs, List.drop_left]
    exact hfault h

end Sys2Proof.Machine
end

section
/-! Proofs of `30_encoding.md`: the lines of text (R52). A line is cut into tokens, its operands are read, and
each command has its word; `Laws/Assembler.lean` says how each of the three goes. -/

namespace Sys2Proof.Machine

/-! ### Words as numbers -/

/-- A command's word is the number its opcode and operands make at their places (R43). -/
theorem encode_eq_ofNat {i : Instr} {op sym imm : Nat} (hop : i.opcode.toNat = op)
    (hsym : i.symField.toNat = sym) (himm : i.immField.toNat = imm) :
    encode i = BitVec.ofNat 64 (op * 2 ^ 60 + sym * 2 ^ 32 + imm) := by
  apply BitVec.eq_of_toNat_eq
  have hop' := i.opcode.isLt
  have hsym' := i.symField.isLt
  have himm' := i.immField.isLt
  simp only [encode, mkCmd, toNat_append_eq_add, BitVec.toNat_ofNat]
  omega

theorem lt_symField {c : Config} (hc : c.wf) {n : Nat} (h : n < 2 ^ c.symW) : n < 2 ^ 16 := by
  obtain ⟨⟨-, hsym⟩, -⟩ := hc
  exact h.trans_le (Nat.pow_le_pow_right (by decide) hsym)

theorem lt_immField {c : Config} (hc : c.wf) {f : Nat} (h : f < 2 ^ c.freqW) : f < 2 ^ 32 := by
  obtain ⟨-, ⟨-, hfreq⟩, -⟩ := hc
  exact h.trans_le (Nat.pow_le_pow_right (by decide) hfreq)

theorem encode_enc {n : Nat} (h : n < 2 ^ 16) :
    encode (.enc (BitVec.ofNat 16 n)) = BitVec.ofNat 64 (0x5 * 2 ^ 60 + n * 2 ^ 32) :=
  (encode_eq_ofNat (i := .enc (BitVec.ofNat 16 n)) rfl (Nat.mod_eq_of_lt h) rfl).trans (congrArg _ (Nat.add_zero _))

theorem encode_loadw {n f : Nat} (hn : n < 2 ^ 16) (hf : f < 2 ^ 32) :
    encode (.loadw (BitVec.ofNat 16 n) (BitVec.ofNat 32 f)) =
      BitVec.ofNat 64 (0x2 * 2 ^ 60 + n * 2 ^ 32 + f) :=
  encode_eq_ofNat rfl (Nat.mod_eq_of_lt hn) (Nat.mod_eq_of_lt hf)

theorem encode_decbit {n : Nat} (h : n < 2) :
    encode (.decbit (n == 1)) = BitVec.ofNat 64 (0x8 * 2 ^ 60 + n) := by
  interval_cases n <;> rfl

theorem encode_rdreg (r : StatusReg) :
    encode (.rdreg r) = BitVec.ofNat 64 (0xA * 2 ^ 60 + r.number) := by
  cases r <;> rfl

/-! ### Lines with operands -/

/-- The line of a mnemonic that takes one operand, and of that operand. -/
theorem assembleLine_one (c : Config) {m a : List Char} (hm : m.all isNameChar = true) (hm0 : m ≠ [])
    (ha : ∀ ch ∈ a, isNameChar ch = true) (ha0 : a ≠ []) (hno : expandMacro c m [.word a] = none) :
    assembleLine c (m ++ ' ' :: a) = (oneOperand c m a).map fun i => [encode i] := by
  rw [assembleLine, tokenize_word_blank (List.all_eq_true.mp hm) hm0, tokenize_word ha ha0]
  simp only [Option.map_some, parseTokens]
  cases oneOperand c m a with
  | none => simp [hno]
  | some i => rfl

theorem assembleLine_enc {c : Config} (hc : c.wf) {n : Nat} {cs : List Char} (h : cs ∈ numeralTexts n) :
    assembleLine c ("enc ".toList ++ cs) =
      if n < 2 ^ c.symW then some [BitVec.ofNat 64 (0x5 * 2 ^ 60 + n * 2 ^ 32)] else none := by
  obtain ⟨hn, hword, hne⟩ := numeralTexts_word h
  refine (assembleLine_one c (m := "enc".toList) rfl (by decide) hword hne rfl).trans ?_
  rw [show oneOperand c "enc".toList cs = (symbolOperand c cs).map .enc from rfl, symbolOperand_numeral hn]
  split
  · next hlt => exact congrArg (fun w => some [w]) (encode_enc (lt_symField hc hlt))
  · rfl

theorem assembleLine_decbit {c : Config} {n : Nat} {cs : List Char} (h : cs ∈ numeralTexts n) :
    assembleLine c ("decbit ".toList ++ cs) =
      if n < 2 then some [BitVec.ofNat 64 (0x8 * 2 ^ 60 + n)] else none := by
  obtain ⟨hn, hword, hne⟩ := numeralTexts_word h
  refine (assembleLine_one c (m := "decbit".toList) rfl (by decide) hword hne rfl).trans ?_
  rw [show oneOperand c "decbit".toList cs = (bitOperand cs).map .decbit from rfl, bitOperand_numeral hn]
  split
  · next hlt => exact congrArg (fun w => some [w]) (encode_decbit hlt)
  · rfl

theorem assembleLine_rdreg {c : Config} {n : Nat} {cs : List Char} (h : cs ∈ numeralTexts n) :
    assembleLine c ("rdreg ".toList ++ cs) =
      if n < 12 then some [BitVec.ofNat 64 (0xA * 2 ^ 60 + n)] else none := by
  obtain ⟨hn, hword, hne⟩ := numeralTexts_word h
  refine (assembleLine_one c (m := "rdreg".toList) rfl (by decide) hword hne rfl).trans ?_
  have hreg : oneOperand c "rdreg".toList cs = (StatusReg.ofNumber n).map .rdreg := by
    rw [show oneOperand c "rdreg".toList cs = (registerOperand cs).map .rdreg from rfl, registerOperand, hn]
  rw [hreg]
  cases hr : StatusReg.ofNumber n with
  | none => rw [if_neg (not_lt.mpr (StatusReg.ofNumber_none.mp hr))]; rfl
  | some r =>
    obtain rfl := StatusReg.ofNumber_some hr
    rw [if_pos r.number_lt]
    exact congrArg (fun w => some [w]) (encode_rdreg r)

theorem assembleLine_loadw {c : Config} (hc : c.wf) {n f : Nat} {cs ds : List Char}
    (h : cs ∈ numeralTexts n) (g : ds ∈ numeralTexts f) :
    assembleLine c ("loadw ".toList ++ cs ++ ", ".toList ++ ds) =
      if n < 2 ^ c.symW ∧ f < 2 ^ c.freqW then some [BitVec.ofNat 64 (0x2 * 2 ^ 60 + n * 2 ^ 32 + f)]
      else none := by
  obtain ⟨hn, hword, hne⟩ := numeralTexts_word h
  obtain ⟨hf, hword', hne'⟩ := numeralTexts_word g
  have hline : "loadw ".toList ++ cs ++ ", ".toList ++ ds =
      "loadw".toList ++ ' ' :: (cs ++ ',' :: ' ' :: ds) := by
    rw [List.append_assoc, List.append_assoc]
    rfl
  have hcut : tokenize ("loadw".toList ++ ' ' :: (cs ++ ',' :: ' ' :: ds)) [] =
      some [.word "loadw".toList, .word cs, .comma, .word ds] := by
    rw [tokenize_word_blank (List.all_eq_true.mp rfl) (by decide), tokenize_word_comma hword hne,
      tokenize_blank, tokenize_word hword' hne']
    rfl
  rw [hline, assembleLine, hcut]
  simp only [parseTokens, if_true, symbolOperand_numeral hn, freqOperand_numeral hf]
  by_cases hlt : n < 2 ^ c.symW
  · by_cases hlt' : f < 2 ^ c.freqW
    · simp only [hlt, hlt', and_self, if_true]
      exact congrArg (fun w => some [w]) (encode_loadw (lt_symField hc hlt) (lt_immField hc hlt'))
    · simp [hlt, hlt']
  · simp [hlt]

/-! ### Comments -/

theorem tokenize_comment (line comment acc : List Char) :
    tokenize (line ++ ';' :: comment) acc = tokenize line acc := by
  induction line generalizing acc with
  | nil => rfl
  | cons ch line ih => simp only [List.cons_append, tokenize, ih]

/-! ### What is accepted -/

/-- The operands read are in their ranges. -/
theorem symbolOperand_fits {c : Config} {cs : List Char} {x : Symbol} (h : symbolOperand c cs = some x) :
    fitsIn c.symW x = true := by
  unfold symbolOperand at h
  split at h
  · split at h
    · next n _ hlt =>
      obtain rfl := Option.some.inj h
      exact decide_eq_true ((Nat.mod_le ..).trans_lt hlt)
    · cases h
  · cases h

theorem freqOperand_fits {c : Config} {cs : List Char} {f : BitVec 32} (h : freqOperand c cs = some f) :
    fitsIn c.freqW f = true := by
  unfold freqOperand at h
  split at h
  · split at h
    · next n _ hlt =>
      obtain rfl := Option.some.inj h
      exact decide_eq_true ((Nat.mod_le ..).trans_lt hlt)
    · cases h
  · cases h

theorem wellFormed_loadw {c : Config} {a b : List Char} {x : Symbol} {f : BitVec 32}
    (hx : symbolOperand c a = some x) (hf : freqOperand c b = some f) :
    (Instr.loadw x f).wellFormed c = true := by
  simp [Instr.wellFormed, symbolOperand_fits hx, freqOperand_fits hf]

theorem pairOperands_wellFormed {c : Config} {ts : List Token} {ps : List (Symbol × BitVec 32)}
    (h : pairOperands c ts = some ps) : ∀ p ∈ ps, (Instr.loadw p.1 p.2).wellFormed c = true := by
  fun_induction pairOperands c ts generalizing ps with
  | case1 s f x y hf hx =>
    obtain rfl := Option.some.inj h
    exact List.forall_mem_singleton.mpr (wellFormed_loadw hx hf)
  | case3 s f rest x y qs hqs hf hx ih =>
    obtain rfl := Option.some.inj h
    exact List.forall_mem_cons.mpr ⟨wellFormed_loadw hx hf, ih hqs⟩
  | case2 | case4 | case5 => cases h

theorem symbolOperands_wellFormed {c : Config} {ts : List Token} {xs : List Symbol}
    (h : symbolOperands c ts = some xs) : ∀ x ∈ xs, (Instr.enc x).wellFormed c = true := by
  fun_induction symbolOperands c ts generalizing xs with
  | case1 s =>
    obtain ⟨x, hx, rfl⟩ := Option.map_eq_some_iff.mp h
    exact List.forall_mem_singleton.mpr (symbolOperand_fits hx)
  | case2 s rest x ys hys hx ih =>
    obtain rfl := Option.some.inj h
    exact List.forall_mem_cons.mpr ⟨symbolOperand_fits hx, ih hys⟩
  | case3 | case4 => cases h

/-- All of these commands have operands in range. -/
def AllWellFormed (c : Config) (is : List Instr) : Prop := ∀ i ∈ is, i.wellFormed c = true

theorem AllWellFormed.constructSeq {c : Config} {ps : List (Symbol × BitVec 32)}
    (h : ∀ p ∈ ps, (Instr.loadw p.1 p.2).wellFormed c = true) : AllWellFormed c (constructSeq ps) := by
  intro i hi
  simp only [Sys2Proof.constructSeq, List.mem_append, List.mem_cons, List.mem_map, List.not_mem_nil,
    or_false] at hi
  rcases hi with (rfl | ⟨p, hp, rfl⟩) | rfl
  · rfl
  · exact h p hp
  · rfl

theorem AllWellFormed.encodeSeq {c : Config} {xs : List Symbol}
    (h : ∀ x ∈ xs, (Instr.enc x).wellFormed c = true) : AllWellFormed c (encodeSeq xs) := by
  intro i hi
  simp only [Sys2Proof.encodeSeq, List.mem_append, List.mem_cons, List.mem_map, List.not_mem_nil,
    or_false] at hi
  rcases hi with (rfl | ⟨x, hx, rfl⟩) | rfl
  · rfl
  · exact h x hx
  · rfl

theorem AllWellFormed.decodeSeq (c : Config) (bits : Bits) : AllWellFormed c (decodeSeq bits) :=
  fun i hi => wellFormed_of_isDecoder (isDecoder_of_mem_decodeSeq i hi) c

theorem expandMacro_wellFormed {c : Config} {m : List Char} {ts : List Token} {is : List Instr}
    (h : expandMacro c m ts = some is) : AllWellFormed c is := by
  unfold expandMacro at h
  split at h
  · split at h
    · obtain rfl := Option.some.inj h
      exact .constructSeq (by simp)
    · obtain ⟨ps, hps, rfl⟩ := Option.map_eq_some_iff.mp h
      exact .constructSeq (pairOperands_wellFormed hps)
  · split at h
    · split at h
      · obtain rfl := Option.some.inj h
        exact .encodeSeq (by simp)
      · obtain ⟨xs, hxs, rfl⟩ := Option.map_eq_some_iff.mp h
        exact .encodeSeq (symbolOperands_wellFormed hxs)
    · split at h
      · obtain ⟨bits, -, rfl⟩ := Option.map_eq_some_iff.mp h
        exact .decodeSeq c bits
      · cases h

theorem plainCommand_wellFormed {c : Config} {m : List Char} {i : Instr} (h : plainCommand m = some i) :
    i.wellFormed c = true := by
  unfold plainCommand at h
  split_ifs at h <;> obtain rfl := Option.some.inj h <;> rfl

theorem oneOperand_wellFormed {c : Config} {m a : List Char} {i : Instr} (h : oneOperand c m a = some i) :
    i.wellFormed c = true := by
  unfold oneOperand at h
  split_ifs at h
  · obtain ⟨x, hx, rfl⟩ := Option.map_eq_some_iff.mp h
    exact symbolOperand_fits hx
  · obtain ⟨b, -, rfl⟩ := Option.map_eq_some_iff.mp h
    rfl
  · obtain ⟨r, -, rfl⟩ := Option.map_eq_some_iff.mp h
    rfl

/-- A line that is accepted stands for well-formed commands (R52). -/
theorem parseTokens_wellFormed {c : Config} {ts : List Token} {is : List Instr}
    (h : parseTokens c ts = some is) : AllWellFormed c is := by
  unfold parseTokens at h
  split at h
  · obtain rfl := Option.some.inj h
    nofun
  · split at h
    · next hi =>
      obtain rfl := Option.some.inj h
      exact List.forall_mem_singleton.mpr (plainCommand_wellFormed hi)
    · exact expandMacro_wellFormed h
  · split at h
    · next hi =>
      obtain rfl := Option.some.inj h
      exact List.forall_mem_singleton.mpr (oneOperand_wellFormed hi)
    · exact expandMacro_wellFormed h
  · split at h
    · split at h
      · next hx hf =>
        obtain rfl := Option.some.inj h
        exact List.forall_mem_singleton.mpr (wellFormed_loadw hx hf)
      · cases h
    · exact expandMacro_wellFormed h
  · exact expandMacro_wellFormed h
  · cases h

theorem assembleLine_wellFormed {c : Config} {line : List Char} {ws : List Word}
    (h : assembleLine c line = some ws) : ∃ is, ws = is.map encode ∧ AllWellFormed c is := by
  unfold assembleLine at h
  split at h
  · obtain ⟨is, his, rfl⟩ := Option.map_eq_some_iff.mp h
    exact ⟨is, rfl, parseTokens_wellFormed his⟩
  · cases h

/-- Settles O7: one lemma per form of line; the fixed lines are computed. -/
theorem assembledLinesAreLegalCommands : Obligations.AssembledLinesAreLegalCommands := by
  unfold Obligations.AssembledLinesAreLegalCommands
  intro c hc
  refine ⟨fun n cs => assembleLine_enc hc, fun n f cs ds => assembleLine_loadw hc,
    fun n cs => assembleLine_decbit, fun n cs => assembleLine_rdreg, ?names, ?plain,
    fun line comment => ?comment, fun line ws => assembleLine_wellFormed⟩
  case names =>
    intro p hp
    simp only [List.mem_cons, List.not_mem_nil, or_false] at hp
    rcases hp with rfl | rfl | rfl | rfl | rfl | rfl | rfl | rfl | rfl | rfl | rfl | rfl <;> rfl
  case plain =>
    intro p hp
    simp only [List.mem_cons, List.not_mem_nil, or_false] at hp
    rcases hp with rfl | rfl | rfl | rfl | rfl | rfl | rfl <;> rfl
  case comment => rw [assembleLine, assembleLine, tokenize_comment]

end Sys2Proof.Machine
end

section
/-! Proofs of `30_encoding.md`: the lines of `construct`, `encode` and `decode` (R53). For each: what its
operands are cut into, and what is read from that, one operand after another. -/

namespace Sys2Proof.Machine

theorem toDigits_word (n : Nat) :
    (∀ ch ∈ Nat.toDigits 10 n, isNameChar ch = true) ∧ Nat.toDigits 10 n ≠ [] :=
  (numeralTexts_word (decimal_mem_numeralTexts n)).2

/-- Reading operands one after another: all are read when each is in range, and none otherwise. -/
theorem mapM_eq_ite {α β : Type} {read : α → Option β} {inRange : α → Prop} [DecidablePred inRange]
    {value : α → β} (h : ∀ a, read a = if inRange a then some (value a) else none) (l : List α) :
    l.mapM read = if ∀ a ∈ l, inRange a then some (l.map value) else none := by
  induction l with
  | nil => simp
  | cons a l ih =>
    rw [List.mapM_cons, h a, ih]
    by_cases ha : inRange a
    · by_cases hl : ∀ a ∈ l, inRange a
      · rw [if_pos ha, if_pos hl, if_pos (List.forall_mem_cons.mpr ⟨ha, hl⟩)]; rfl
      · rw [if_pos ha, if_neg hl, if_neg fun hall => hl (List.forall_mem_cons.mp hall).2]; rfl
    · rw [if_neg ha, if_neg fun hall => ha (List.forall_mem_cons.mp hall).1]; rfl

/-! ### The symbols of `encode` -/

/-- The tokens of symbols separated by commas. -/
def symbolTokens : List Nat → List Token
  | [] => []
  | [n] => [.word (Nat.toDigits 10 n)]
  | n :: k :: ns => .word (Nat.toDigits 10 n) :: .comma :: symbolTokens (k :: ns)

theorem tokenize_symbols (ns : List Nat) :
    tokenize (joinWith ", ".toList (ns.map (Nat.toDigits 10))) [] = some (symbolTokens ns) := by
  induction ns with
  | nil => rfl
  | cons n ns ih =>
    obtain ⟨hword, hne⟩ := toDigits_word n
    cases ns with
    | nil => exact tokenize_word hword hne
    | cons k ns =>
      have hjoin : joinWith ", ".toList ((n :: k :: ns).map (Nat.toDigits 10)) =
          Nat.toDigits 10 n ++ ',' :: ' ' :: joinWith ", ".toList ((k :: ns).map (Nat.toDigits 10)) :=
        List.append_assoc ..
      rw [hjoin, tokenize_word_comma hword hne, tokenize_blank, ih]
      rfl

theorem symbolOperands_symbolTokens (c : Config) (n : Nat) (ns : List Nat) :
    symbolOperands c (symbolTokens (n :: ns)) =
      (n :: ns).mapM fun n => symbolOperand c (Nat.toDigits 10 n) := by
  induction ns generalizing n with
  | nil =>
    rw [symbolTokens, symbolOperands, List.mapM_cons, List.mapM_nil]
    cases symbolOperand c (Nat.toDigits 10 n) <;> rfl
  | cons k ns ih =>
    rw [symbolTokens, symbolOperands, ih, List.mapM_cons (a := n)]
    cases symbolOperand c (Nat.toDigits 10 n) with
    | none => rfl
    | some x => cases (k :: ns).mapM fun n => symbolOperand c (Nat.toDigits 10 n) <;> rfl

/-! ### The pairs of `construct` -/

/-- The tokens of pairs separated by commas. -/
def pairTokens : List (Nat × Nat) → List Token
  | [] => []
  | [p] => [.lpar, .word (Nat.toDigits 10 p.1), .comma, .word (Nat.toDigits 10 p.2), .rpar]
  | p :: q :: ps =>
    .lpar :: .word (Nat.toDigits 10 p.1) :: .comma :: .word (Nat.toDigits 10 p.2) :: .rpar :: .comma ::
      pairTokens (q :: ps)

theorem tokenize_pairs (ps : List (Nat × Nat)) :
    tokenize (joinWith ", ".toList (ps.map pairText)) [] = some (pairTokens ps) := by
  induction ps with
  | nil => rfl
  | cons p ps ih =>
    cases ps with
    | nil =>
      have hpair := tokenize_pairText p []
      rw [List.append_nil] at hpair
      exact hpair
    | cons q ps =>
      have hjoin : joinWith ", ".toList ((p :: q :: ps).map pairText) =
          pairText p ++ ',' :: ' ' :: joinWith ", ".toList ((q :: ps).map pairText) :=
        List.append_assoc ..
      rw [hjoin, tokenize_pairText, tokenize_comma, tokenize_blank, ih]
      rfl

/-- The two operands of a pair. -/
def pairOperand (c : Config) (p : Nat × Nat) : Option (Symbol × BitVec 32) :=
  (symbolOperand c (Nat.toDigits 10 p.1)).bind fun x => (freqOperand c (Nat.toDigits 10 p.2)).map (x, ·)

theorem pairOperand_eq (c : Config) (p : Nat × Nat) :
    pairOperand c p = if p.1 < 2 ^ c.symW ∧ p.2 < 2 ^ c.freqW then
      some (BitVec.ofNat 16 p.1, BitVec.ofNat 32 p.2) else none := by
  rw [pairOperand, symbolOperand_numeral (number_decimal _), freqOperand_numeral (number_decimal _)]
  by_cases h1 : p.1 < 2 ^ c.symW
  · by_cases h2 : p.2 < 2 ^ c.freqW <;> simp [h1, h2]
  · simp [h1]

theorem pairOperands_pairTokens (c : Config) (p : Nat × Nat) (ps : List (Nat × Nat)) :
    pairOperands c (pairTokens (p :: ps)) = (p :: ps).mapM (pairOperand c) := by
  induction ps generalizing p with
  | nil =>
    rw [pairTokens, pairOperands, List.mapM_cons, List.mapM_nil, pairOperand]
    cases symbolOperand c (Nat.toDigits 10 p.1) with
    | none => rfl
    | some x => cases freqOperand c (Nat.toDigits 10 p.2) <;> rfl
  | cons q ps ih =>
    rw [pairTokens, pairOperands, ih, List.mapM_cons (a := p), pairOperand]
    cases symbolOperand c (Nat.toDigits 10 p.1) with
    | none => rfl
    | some x =>
      cases freqOperand c (Nat.toDigits 10 p.2) with
      | none => rfl
      | some y => cases (q :: ps).mapM (pairOperand c) <;> rfl

/-! ### The bits of `decode` -/

theorem tokenize_bits (ns : List Nat) :
    tokenize (joinWith " ".toList (ns.map (Nat.toDigits 10))) [] =
      some (ns.map fun n => .word (Nat.toDigits 10 n)) := by
  induction ns with
  | nil => rfl
  | cons n ns ih =>
    obtain ⟨hword, hne⟩ := toDigits_word n
    cases ns with
    | nil => exact tokenize_word hword hne
    | cons k ns =>
      have hjoin : joinWith " ".toList ((n :: k :: ns).map (Nat.toDigits 10)) =
          Nat.toDigits 10 n ++ ' ' :: joinWith " ".toList ((k :: ns).map (Nat.toDigits 10)) :=
        List.append_assoc ..
      rw [hjoin, tokenize_word_blank hword hne, ih]
      rfl

theorem bitOperands_words (ns : List Nat) :
    bitOperands (ns.map fun n => .word (Nat.toDigits 10 n)) =
      ns.mapM fun n => bitOperand (Nat.toDigits 10 n) := by
  induction ns with
  | nil => rfl
  | cons n ns ih =>
    rw [List.map_cons, bitOperands, ih, List.mapM_cons]
    cases bitOperand (Nat.toDigits 10 n) with
    | none => rfl
    | some x => cases ns.mapM fun n => bitOperand (Nat.toDigits 10 n) <;> rfl

/-! ### The three lines -/

theorem assembleLine_construct (c : Config) (ps : List (Nat × Nat)) :
    assembleLine c ("construct ".toList ++ joinWith ", ".toList (ps.map pairText)) =
      if ∀ p ∈ ps, p.1 < 2 ^ c.symW ∧ p.2 < 2 ^ c.freqW then
        some (encode .clear ::
          ps.map (fun p => encode (.loadw (BitVec.ofNat 16 p.1) (BitVec.ofNat 32 p.2))) ++ [encode .build])
      else none := by
  have hline := assembleLine_macro c (m := "construct".toList) (List.all_eq_true.mp rfl) (by decide) rfl
    (fun _ => rfl) (by decide) (tokenize_pairs ps)
  refine hline.trans ?_
  have hread : expandMacro c "construct".toList (pairTokens ps) =
      (ps.mapM (pairOperand c)).map constructSeq := by
    cases ps with
    | nil => rfl
    | cons p ps =>
      rw [← pairOperands_pairTokens]
      cases ps <;> rfl
  rw [hread, mapM_eq_ite (pairOperand_eq c)]
  split <;> simp [constructSeq]

theorem assembleLine_encode (c : Config) (ns : List Nat) :
    assembleLine c ("encode ".toList ++ joinWith ", ".toList (ns.map (Nat.toDigits 10))) =
      if ∀ n ∈ ns, n < 2 ^ c.symW then
        some (encode .encbeg :: ns.map (fun n => encode (.enc (BitVec.ofNat 16 n))) ++ [encode .encend])
      else none := by
  have hline := assembleLine_macro c (m := "encode".toList) (List.all_eq_true.mp rfl) (by decide) rfl
    (fun _ => rfl) (by decide) (tokenize_symbols ns)
  refine hline.trans ?_
  have hread : expandMacro c "encode".toList (symbolTokens ns) =
      (ns.mapM fun n => symbolOperand c (Nat.toDigits 10 n)).map encodeSeq := by
    cases ns with
    | nil => rfl
    | cons n ns =>
      rw [← symbolOperands_symbolTokens]
      cases ns <;> rfl
  rw [hread, mapM_eq_ite fun n => symbolOperand_numeral (number_decimal n)]
  split <;> simp [encodeSeq]

theorem assembleLine_decode (c : Config) (ns : List Nat) :
    assembleLine c ("decode ".toList ++ joinWith " ".toList (ns.map (Nat.toDigits 10))) =
      if ∀ n ∈ ns, n < 2 then
        some (encode .decbeg :: ns.map (fun n => encode (.decbit (n == 1))) ++ [encode .decend])
      else none := by
  have hline := assembleLine_macro c (m := "decode".toList) (List.all_eq_true.mp rfl) (by decide) rfl
    (fun _ => rfl) (by decide) (tokenize_bits ns)
  refine hline.trans ?_
  have hread : expandMacro c "decode".toList (ns.map fun n => .word (Nat.toDigits 10 n)) =
      (ns.mapM fun n => bitOperand (Nat.toDigits 10 n)).map decodeSeq := by
    rw [← bitOperands_words]
    rfl
  rw [hread, mapM_eq_ite fun n => bitOperand_numeral (number_decimal n)]
  split <;> simp [decodeSeq]

/-- Settles O8: one lemma per line. -/
theorem macrosAssembleToTheirSequences : Obligations.MacrosAssembleToTheirSequences := by
  unfold Obligations.MacrosAssembleToTheirSequences
  exact fun c _ => ⟨assembleLine_construct c, assembleLine_encode c, assembleLine_decode c⟩

end Sys2Proof.Machine
end
